-- ==== Sys2Proof/Word.lean ====
section
/-! DEFINITION. The bit-vector types of the register block and of image memory (spec/00_scope.md R6, spec/20_memory.md R60). -/

namespace Sys2Proof

/-- A register of the block as the host moves it: 32 bits (R23). -/
abbrev Word := BitVec 32

/-- A 16-bit field: a dimension, a stride, a pixel coordinate (DIM_BITS of Table P1). -/
abbrev Half := BitVec 16

/-- One byte of image memory (R60). -/
abbrev Byte := BitVec 8

end Sys2Proof
end

