-- ==== Sys2Proof/Config.lean ====
section
/-! DEFINITION. The configuration record `Cfg` of spec/00_scope.md R5 (Table P1), its OPEN parameters, and the free values
the spec leaves unspecified. -/

namespace Sys2Proof

/-- Nine like things in the flattened row-major order of R41: element `3·i + j` is row `i`, column `j`. -/
structure Taps (α : Type) where
  k0 : α
  k1 : α
  k2 : α
  k3 : α
  k4 : α
  k5 : α
  k6 : α
  k7 : α
  k8 : α
deriving DecidableEq, Repr, Inhabited

/-- A kernel pair (R122): the horizontal and the vertical kernel, each weight a signed integer of WEIGHT_BITS = 8 bits (R123). -/
structure KernelPair where
  kx : Taps (BitVec 8)
  ky : Taps (BitVec 8)
deriving DecidableEq, Repr, Inhabited

/-- How `round_up` of the magnitude formula rounds (R162). -/
inductive RoundPolicy where
  /-- the exact ceiling: this hardware -/
  | ceil
  /-- floor plus one always: the other admissible value of the parameter -/
  | plusOne
deriving DecidableEq, Repr, Inhabited

/-- A range of byte addresses, both ends included. -/
structure AddrRange where
  lo : Nat
  hi : Nat
deriving DecidableEq, Repr, Inhabited

/-- The part of the configuration record `Cfg` a claim may quantify over (R5, spec/92_eei_decisions.md "OPEN parameters").
`memMap` is MEM_VALID: a byte exists when its address is below 2^32 and lies in one of the ranges; every set of addresses of
a finite space is such a union. `regPage` is REG_BASE divided by 256, so that REG_BASE is a multiple of 256 (R23). -/
structure Cfg where
  regPage : Nat
  memMap : List AddrRange
  kromLaplacian : KernelPair
  kromSharpen : KernelPair
  roundPolicy : RoundPolicy
deriving DecidableEq, Repr, Inhabited

namespace Config

/-- AW of Table P1: the width of an image-memory byte address. -/
def addrBits : Nat := 32

/-- 2^AW: the first address past image memory (R60), the bound of every hull end (R78). -/
def addrLimit : Nat := 4294967296

/-- PLANE_BORDER_FILL of Table P1 (D14). -/
def planeBorderFill : Nat := 0

/-- The precision of FP_FORMAT of Table P1: binary64 has 53 significant bits (D12). -/
def floatPrecision : Nat := 53

/-- OPEN (D3): where the platform puts the register block, in units of 256 bytes. -/
opaque regPage : Nat

/-- OPEN (D21): the bytes of image memory that exist. -/
opaque memMap : List AddrRange

/-- OPEN (D7): the Laplacian pair of the kernel ROM. -/
opaque kromLaplacian : KernelPair

/-- OPEN (D7): the Sharpen pair of the kernel ROM. -/
opaque kromSharpen : KernelPair

/-- FREE VALUE (R220, U3): what a valid byte of a write footprint holds after a command ended with ErrBus. The first argument
counts the failed commands (`State.freeCount`), the second is the address. -/
opaque busResidue : Nat → Nat → Byte

/-- FREE VALUE (R242, U17): what image memory holds at an address before anything has been written there. -/
opaque powerOnByte : Nat → Byte

/-- The configuration of the machine at reset: OPEN parameters without a value, ROUND_POLICY = CEIL (R162, D9). -/
def platform : Cfg where
  regPage := regPage
  memMap := memMap
  kromLaplacian := kromLaplacian
  kromSharpen := kromSharpen
  roundPolicy := .ceil

end Config

end Sys2Proof
end

