-- ==== Sys2Proof/Syntax.lean ====
section
/-! DEFINITION. The ten commands (spec/30_encoding.md R93), their selectors (R95 to R97) and the pseudo-commands (R102). -/

namespace Sys2Proof

/-- The variant selector VAR (R95). -/
inductive Variant where
  | sobel
  | sobelFast
  | laplacian
  | scharr
  | sharpen
  /-- a selector value outside the source's set: 5, 6 or 7, which WellFormed checks -/
  | unrecognised (code : BitVec 3)
deriving DecidableEq, Repr

/-- The convolution (indexing) strategy CONV (R96). -/
inductive Conv where
  | checked
  | fast
deriving DecidableEq, Repr

/-- The magnitude strategy MAG (R97). -/
inductive Mag where
  | newton
  | bisect
  | float
deriving DecidableEq, Repr

/-- The commands, one constructor for each row of spec/opcode_table.json, with the selector fields the command uses (R94). -/
inductive Instr where
  | nop
  | gradient (v : Variant) (c : Conv)
  | magnitude (m : Mag)
  | filter (v : Variant) (c : Conv) (m : Mag)
  | filterMath
  | gradPlanes
  | filterSimd
  | isqrtNewton
  | isqrtBisect
  | klookup (v : Variant)
deriving DecidableEq, Repr

/-- The pseudo-commands of R102: the source's entry points, each an expansion into one command. -/
inductive Pseudo where
  | filterGray (v : Variant)
  | filterGrayFast (v : Variant)
  | filterGrayMath
  | filterGraySimd
  | intSqrtNewton
  | intSqrtBisect
  | gradient (v : Variant)
  | magnitude (m : Mag)
  | kernelPairFor (v : Variant)
deriving DecidableEq, Repr

end Sys2Proof
end

