-- ==== Sys2Proof/Machine/State.lean ====
section
/-! DEFINITION. The state of the machine (spec/10_state.md R20: the register block and the image memory), the host's queue of
actions, the configuration the step takes, the reasons a step stops, and the state after reset (R46, R240). -/

namespace Sys2Proof.Machine

/-- The six errors of a command (spec/60_exceptions.md R210 to R216). They are outcomes the machine records in STATUS and goes
on from, not stops of the model. -/
inductive CmdError where
  | illegal
  | config
  | align
  | overlap
  | range
  | bus
deriving DecidableEq, Repr

/-- The registers of Table S1 (spec/10_state.md), by name; `kx k` and `ky k` are the nine registers KX[k], KY[k]. -/
inductive Reg where
  | cmd
  | status
  | srcBase
  | srcW
  | srcH
  | srcStride
  | dstBase
  | dstStride
  | dstW
  | dstH
  | gxBase
  | gyBase
  | opX
  | opY
  | opGx
  | opGy
  | opN
  | resGx
  | resGy
  | resMag
  | resSqrt
  | kx (k : Fin 9)
  | ky (k : Fin 9)
deriving DecidableEq, Repr

/-- What the host may do between commands (R21, R246): one line of a host program (R103), or reset (R240). `off` is the offset
in the 256-byte register block (R23), `size` the width of the access in bytes. -/
inductive HostAction where
  | regWrite (off : BitVec 8) (size : Nat) (value : Word)
  | regRead (off : BitVec 8) (size : Nat)
  | memWrite (addr : Nat) (value : Byte)
  | memRead (addr : Nat)
  | reset
deriving DecidableEq, Repr

/-- Image memory (R48, R60): the cells that differ from what an unlisted address reads as, addresses strictly rising
(`Memory.wf` in Machine/Ops.lean). `unwritten` says what an unlisted address reads as: `some b` is a memory that holds `b`
there, `none` is a memory whose contents before the first write nothing is known of (R242, U17: the free value
`Config.powerOnByte`). -/
structure Memory where
  unwritten : Option Byte
  cells : List Host.Cell
deriving DecidableEq, Repr

/-- The machine's state. The first twenty-three fields are the register block, each field of a register at the width of its
bits used (Table S1); `mem` is image memory. The last four are the model's own: the configuration record (R5), which no step
changes; the host actions still to come; the value the host's last read returned; and the count of commands that ended with
ErrBus in a command that writes memory, the argument of the free value `Config.busResidue`. -/
structure State where
  cmd : Word
  status : Word
  srcBase : Word
  srcW : Half
  srcH : Half
  srcStride : Half
  dstBase : Word
  dstStride : Half
  dstW : Half
  dstH : Half
  gxBase : Word
  gyBase : Word
  opX : Half
  opY : Half
  opGx : Word
  opGy : Word
  opN : Word
  resGx : Word
  resGy : Word
  resMag : Byte
  resSqrt : Word
  kx : Taps Word
  ky : Taps Word
  mem : Memory
  cfg : Cfg
  host : List HostAction
  hostRead : Option Word
  freeCount : Nat
deriving DecidableEq, Repr

/-- Why the machine has no next state. -/
inductive Fault where
  /-- Raised by GRADIENT on the FAST path with a centre that is not interior: undefined behaviour (R137, U1). Safe: the model
  stops where the hardware does something unknown. -/
  | fastGradientOutOfRange
  /-- Raised by a host access to an image-memory byte that does not exist (R48, R246 let the host reach valid bytes only).
  Safe. -/
  | hostByteAbsent
deriving DecidableEq, Repr

/-- What the model gives no step. -/
inductive Refusal where
  /-- Raised by an arm of `exec` whose instruction has no meaning yet: none in this model. Safe. -/
  | notModelled (mnemonic : String)
  /-- Raised by a host access to the register block that is not an aligned 32-bit one (R23, U8: refused). Safe. -/
  | registerAccessNotAlignedWord
deriving DecidableEq, Repr

/-- Nine zeros. -/
def zeroTaps : Taps Word := ⟨0, 0, 0, 0, 0, 0, 0, 0, 0⟩

/-- R46, R240, R241: every register is 0. Nothing is listed in image memory, whose contents reset does not determine (R242);
the host has written nothing; the configuration is the platform's (`Config.platform`). -/
def State.reset : State where
  cmd := 0
  status := 0
  srcBase := 0
  srcW := 0
  srcH := 0
  srcStride := 0
  dstBase := 0
  dstStride := 0
  dstW := 0
  dstH := 0
  gxBase := 0
  gyBase := 0
  opX := 0
  opY := 0
  opGx := 0
  opGy := 0
  opN := 0
  resGx := 0
  resGy := 0
  resMag := 0
  resSqrt := 0
  kx := zeroTaps
  ky := zeroTaps
  mem := ⟨none, []⟩
  cfg := Config.platform
  host := []
  hostRead := none
  freeCount := 0

end Sys2Proof.Machine
end

