-- ==== Sys2Proof/Machine/Flags.lean ====
section
/-! DEFINITION. The STATUS register (spec/10_state.md R26, R45): its fields, the value a command that ends without error leaves,
the value an error leaves (R120, R220), and the host's write to it (R24). -/

namespace Sys2Proof.Machine

/-- Bit 0: the last command ran to its end without error. -/
def statusDone (w : Word) : Bool := w.getLsbD 0
/-- Bit 1: the last command ended with an error. -/
def statusErr (w : Word) : Bool := w.getLsbD 1
/-- Bit 2: the last command produced an empty output. -/
def statusEmpty (w : Word) : Bool := w.getLsbD 2
/-- Bit 3: the last command resolved an unrecognised variant to the nil pair. -/
def statusKnil (w : Word) : Bool := w.getLsbD 3
/-- Bits [7:4]: the code of the error of the last command. -/
def statusErrCode (w : Word) : BitVec 4 := w.extractLsb' 4 4
/-- Bit 8: sticky, some command has ended with an error. -/
def statusAnyErr (w : Word) : Bool := w.getLsbD 8
/-- Bits [31:9], which read 0. -/
def statusReserved (w : Word) : BitVec 23 := w.extractLsb' 9 23

/-- Table X1 (R218): `code(E)`. -/
def errorCode : CmdError → BitVec 4
  | .illegal => 1
  | .config => 2
  | .align => 3
  | .overlap => 4
  | .range => 5
  | .bus => 6

/-- STATUS from its fields (R26). -/
def packStatus (reserved : BitVec 23) (anyErr : Bool) (code : BitVec 4) (knil empty err done : Bool) : Word :=
  reserved.setWidth 32 <<< 9 ||| (BitVec.ofBool anyErr).setWidth 32 <<< 8 ||| code.setWidth 32 <<< 4 |||
    (BitVec.ofBool knil).setWidth 32 <<< 3 ||| (BitVec.ofBool empty).setWidth 32 <<< 2 |||
    (BitVec.ofBool err).setWidth 32 <<< 1 ||| (BitVec.ofBool done).setWidth 32

/-- R120, `Done(empty, knil)`: bits [7:0] are overwritten as a whole; ANYERR stays. -/
def statusAfterDone (empty knil : Bool) (old : Word) : Word :=
  packStatus (statusReserved old) (statusAnyErr old) 0 knil empty false true

/-- R120, `Fail(E)`, and R220: bits [7:0] are `(code(E) << 4) | 2`; ANYERR becomes 1. -/
def statusAfterError (e : CmdError) (old : Word) : Word :=
  packStatus (statusReserved old) true (errorCode e) false false true false

/-- R24: a host write of 1 to bit 8 clears ANYERR, and nothing else of the written word matters. -/
def statusAfterWrite (w old : Word) : Word :=
  packStatus (statusReserved old) (statusAnyErr old && !statusAnyErr w) (statusErrCode old) (statusKnil old) (statusEmpty old)
    (statusErr old) (statusDone old)

end Sys2Proof.Machine
end

