-- ==== Sys2Proof/Machine/Ops.lean ====
section
/-! DEFINITION. The shared operations: loops, image memory and the access primitives (spec/20_memory.md R60, R63, R64), the
register block (spec/10_state.md R23, R24, Table S1), a command's two ends (spec/40 R120: `Done`, `Fail`) and reset (R240). -/

namespace Sys2Proof.Machine

/-! ### Loops -/

/-- Run `f 0`, …, `f (n-1)` in that order, stopping at the first error. -/
def loopBelow {σ : Type} (n : Nat) (f : Nat → σ → Except CmdError σ) (s : σ) : Except CmdError σ :=
  match n with
  | 0 => .ok s
  | k + 1 =>
    match loopBelow k f s with
    | .error e => .error e
    | .ok t => f k t

/-- Run `f x y` for `y` from 0 to `h-1` and, within a row, `x` from 0 to `w-1`: the row-major scan of R140, R191, R193. -/
def loopXY {σ : Type} (w h : Nat) (f : Nat → Nat → σ → Except CmdError σ) (s : σ) : Except CmdError σ :=
  loopBelow h (fun y => loopBelow w (fun x => f x y)) s

/-- `p` holds of 0, …, `n-1`. -/
def allBelow (n : Nat) (p : Nat → Bool) : Bool :=
  match n with
  | 0 => true
  | k + 1 => allBelow k p && p k

/-- `p x y` holds for all `x < w`, `y < h`. -/
def allXY (w h : Nat) (p : Nat → Nat → Bool) : Bool :=
  allBelow h (fun y => allBelow w (fun x => p x y))

/-- Apply `f 0`, …, `f (n-1)` in that order. -/
def foldBelow {σ : Type} (n : Nat) (f : Nat → σ → σ) (s : σ) : σ :=
  match n with
  | 0 => s
  | k + 1 => f k (foldBelow k f s)

/-! ### Image memory -/

/-- What a list of cells holds at an address. -/
def lookupCell (l : List Host.Cell) (a : Nat) : Option Byte :=
  match l with
  | [] => none
  | (b, v) :: t => if b = a then some v else lookupCell t a

/-- Set the cell at an address, keeping the addresses rising. -/
def insertCell (a : Nat) (v : Byte) (l : List Host.Cell) : List Host.Cell :=
  match l with
  | [] => [(a, v)]
  | (b, w) :: t =>
    if a < b then (a, v) :: (b, w) :: t
    else if a = b then (a, v) :: t
    else (b, w) :: insertCell a v t

/-- Drop the cell at an address. -/
def eraseCell (a : Nat) (l : List Host.Cell) : List Host.Cell :=
  match l with
  | [] => []
  | (b, w) :: t => if b = a then eraseCell a t else (b, w) :: eraseCell a t

/-- What an unlisted address reads as (R242, U17). -/
def Memory.unlisted (m : Memory) (a : Nat) : Byte :=
  match m.unwritten with
  | some b => b
  | none => Config.powerOnByte a

/-- The canonical form: addresses strictly rising, no cell equal to what an unlisted address reads as. -/
abbrev Memory.wf (m : Memory) : Prop :=
  (m.cells.map Prod.fst).Pairwise (· < ·) ∧ ∀ c ∈ m.cells, c.2 ≠ m.unlisted c.1

/-- The byte at an address (R60). -/
def Memory.read (m : Memory) (a : Nat) : Byte :=
  match lookupCell m.cells a with
  | some v => v
  | none => m.unlisted a

/-- Store a byte, keeping the canonical form. -/
def Memory.write (m : Memory) (a : Nat) (v : Byte) : Memory :=
  if v = m.unlisted a then { m with cells := eraseCell a m.cells }
  else { m with cells := insertCell a v m.cells }

/-- MEM_VALID (R60, R75): the byte at `a` exists. -/
def memValid (cfg : Cfg) (a : Nat) : Bool :=
  decide (a < Config.addrLimit) && cfg.memMap.any (fun r => decide (r.lo ≤ a) && decide (a ≤ r.hi))

/-- The two widths of an engine access (R63, R74). -/
inductive AccessSize where
  | byte
  | half
deriving DecidableEq, Repr

/-- R63, `MemRead(addr, n)`: the unsigned value of one byte, or of two bytes low byte first; ErrBus at a byte that does not
exist. -/
def memRead (cfg : Cfg) (m : Memory) (a : Nat) (n : AccessSize) : Except CmdError Nat :=
  match n with
  | .byte => if memValid cfg a then .ok (m.read a).toNat else .error .bus
  | .half =>
    if memValid cfg a && memValid cfg (a + 1) then .ok ((m.read a).toNat + 256 * (m.read (a + 1)).toNat) else .error .bus

/-- R64, `MemWrite(addr, n, v)`: the low 8·n bits of `v`, low byte first. -/
def memWrite (cfg : Cfg) (m : Memory) (a : Nat) (n : AccessSize) (v : Nat) : Except CmdError Memory :=
  match n with
  | .byte => if memValid cfg a then .ok (m.write a (BitVec.ofNat 8 v)) else .error .bus
  | .half =>
    if memValid cfg a && memValid cfg (a + 1) then
      .ok ((m.write a (BitVec.ofNat 8 v)).write (a + 1) (BitVec.ofNat 8 (v / 256)))
    else .error .bus

/-! ### The register block -/

/-- Element `k` of nine; `k` is below 9 wherever this is used. -/
def tapAt {α : Type} (t : Taps α) (k : Nat) : α :=
  match k with
  | 0 => t.k0
  | 1 => t.k1
  | 2 => t.k2
  | 3 => t.k3
  | 4 => t.k4
  | 5 => t.k5
  | 6 => t.k6
  | 7 => t.k7
  | _ => t.k8

/-- REG_BASE (R23): a multiple of 256. -/
def regBase (cfg : Cfg) : Nat := 256 * cfg.regPage

/-- The offset in the block of a host address, if it lies in the block (R23). -/
def regOffsetOf (cfg : Cfg) (addr : Nat) : Option (BitVec 8) :=
  if regBase cfg ≤ addr ∧ addr < regBase cfg + 256 then some (BitVec.ofNat 8 (addr - regBase cfg)) else none

/-- Table S1: the offset of a register. -/
def regOffset : Reg → Nat
  | .cmd => 0x00
  | .status => 0x04
  | .srcBase => 0x08
  | .srcW => 0x0C
  | .srcH => 0x10
  | .srcStride => 0x14
  | .dstBase => 0x18
  | .dstStride => 0x1C
  | .dstW => 0x20
  | .dstH => 0x24
  | .gxBase => 0x28
  | .gyBase => 0x2C
  | .opX => 0x30
  | .opY => 0x34
  | .opGx => 0x38
  | .opGy => 0x3C
  | .opN => 0x40
  | .resGx => 0x44
  | .resGy => 0x48
  | .resMag => 0x4C
  | .resSqrt => 0x50
  | .kx k => 0x60 + 4 * k.val
  | .ky k => 0x84 + 4 * k.val

/-- Table S1 the other way: the register at an offset that is a multiple of 4, if one is listed there (R24). -/
def regAt (off : Nat) : Option Reg :=
  match off / 4 with
  | 0 => some .cmd
  | 1 => some .status
  | 2 => some .srcBase
  | 3 => some .srcW
  | 4 => some .srcH
  | 5 => some .srcStride
  | 6 => some .dstBase
  | 7 => some .dstStride
  | 8 => some .dstW
  | 9 => some .dstH
  | 10 => some .gxBase
  | 11 => some .gyBase
  | 12 => some .opX
  | 13 => some .opY
  | 14 => some .opGx
  | 15 => some .opGy
  | 16 => some .opN
  | 17 => some .resGx
  | 18 => some .resGy
  | 19 => some .resMag
  | 20 => some .resSqrt
  | k =>
    if h : 24 ≤ k ∧ k < 33 then some (.kx ⟨k - 24, by omega⟩)
    else if h' : 33 ≤ k ∧ k < 42 then some (.ky ⟨k - 33, by omega⟩)
    else none

/-- What a host read of a register returns (R24, Table S1): a narrow field reads with zeros above it. -/
def readReg (r : Reg) (s : State) : Word :=
  match r with
  | .cmd => s.cmd
  | .status => s.status
  | .srcBase => s.srcBase
  | .srcW => s.srcW.setWidth 32
  | .srcH => s.srcH.setWidth 32
  | .srcStride => s.srcStride.setWidth 32
  | .dstBase => s.dstBase
  | .dstStride => s.dstStride.setWidth 32
  | .dstW => s.dstW.setWidth 32
  | .dstH => s.dstH.setWidth 32
  | .gxBase => s.gxBase
  | .gyBase => s.gyBase
  | .opX => s.opX.setWidth 32
  | .opY => s.opY.setWidth 32
  | .opGx => s.opGx
  | .opGy => s.opGy
  | .opN => s.opN
  | .resGx => s.resGx
  | .resGy => s.resGy
  | .resMag => s.resMag.setWidth 32
  | .resSqrt => s.resSqrt
  | .kx k => tapAt s.kx k.val
  | .ky k => tapAt s.ky k.val

/-- The host's clearing of ANYERR, the whole of recovery from an error (R221, R24): nothing else is saved, so nothing else is
restored. -/
def clearAnyErr (w : Word) (s : State) : State := { s with status := statusAfterWrite w s.status }

/-- What a host write does to the register itself (R24): an RW register keeps its own bits, an RO register ignores the write,
STATUS clears ANYERR. The command that a write to CMD runs is in Machine/HostPort.lean. -/
def writeReg (r : Reg) (w : Word) (s : State) : State :=
  match r with
  | .cmd => { s with cmd := w }
  | .status => clearAnyErr w s
  | .srcBase => { s with srcBase := w }
  | .srcW => { s with srcW := w.setWidth 16 }
  | .srcH => { s with srcH := w.setWidth 16 }
  | .srcStride => { s with srcStride := w.setWidth 16 }
  | .dstBase => { s with dstBase := w }
  | .dstStride => { s with dstStride := w.setWidth 16 }
  | .dstW => s
  | .dstH => s
  | .gxBase => { s with gxBase := w }
  | .gyBase => { s with gyBase := w }
  | .opX => { s with opX := w.setWidth 16 }
  | .opY => { s with opY := w.setWidth 16 }
  | .opGx => { s with opGx := w }
  | .opGy => { s with opGy := w }
  | .opN => { s with opN := w }
  | .resGx => s
  | .resGy => s
  | .resMag => s
  | .resSqrt => s
  | .kx _ => s
  | .ky _ => s

/-! ### The end of a command, and reset -/

/-- R120, `Done(empty, knil)`. -/
def complete (empty knil : Bool) (s : State) : State := { s with status := statusAfterDone empty knil s.status }

/-- R120, `Fail(E, producesImage)`, and R220: what taking an error does to the registers. No register saves anything and there
is no handler (R221); CMD already holds the word. -/
def raiseError (e : CmdError) (producesImage : Bool) (s : State) : State :=
  { s with
    status := statusAfterError e s.status
    dstW := if producesImage then 0 else s.dstW
    dstH := if producesImage then 0 else s.dstH }

/-- R240: every register becomes 0 and image memory is not touched. -/
def resetRegisters (s : State) : State :=
  { State.reset with mem := s.mem, cfg := s.cfg, host := s.host, hostRead := s.hostRead, freeCount := s.freeCount }

end Sys2Proof.Machine
end

