-- ==== Sys2Proof/Machine/Operands.lean ====
section
/-! DEFINITION. The operands of the commands (spec/30_encoding.md R100, Table E3): the registers a command samples (spec/10
R43), the addresses of source, destination and plane samples (spec/20 R61, R62, R65), the rectangles of bytes that are a
command's footprints and hulls (R66 to R68), and the two pixel accessors (spec/41 R131, R132). -/

namespace Sys2Proof.Machine

/-- The source image of the image commands (R9, R61): SRC_BASE, W, H, S as sampled at the CMD write. -/
structure Source where
  base : Nat
  w : Nat
  h : Nat
  s : Nat
deriving DecidableEq, Repr

/-- The sampled source image. -/
def sourceOf (s : State) : Source := ⟨s.srcBase.toNat, s.srcW.toNat, s.srcH.toNat, s.srcStride.toNat⟩

/-- R96: the effective strategy is FAST when CONV = 1 or VAR = 1. -/
def effectiveConv (v : Variant) (c : Conv) : Conv :=
  if c = .fast ∨ v = .sobelFast then .fast else .checked

/-- R32: the effective destination stride DS for an output of width `ow`. -/
def dstStrideOf (s : State) (ow : Nat) : Nat := if s.dstStride = 0 then ow else s.dstStride.toNat

/-- R61, `SrcAddr(x, y)`. -/
def srcAddr (src : Source) (x y : Nat) : Nat := src.base + y * src.s + x

/-- R62, `DstAddr(x, y)` for a base and an effective stride. -/
def dstAddr (base ds x y : Nat) : Nat := base + y * ds + x

/-- R65, `GxAddr(x, y)`, `GyAddr(x, y)` for the plane's base. -/
def planeAddr (base : Nat) (src : Source) (x y : Nat) : Nat := base + 2 * (y * src.s + x)

/-- R11: `(x, y)` is an interior pixel. -/
def interior (src : Source) (x y : Nat) : Bool :=
  decide (1 ≤ x) && decide (x ≤ src.w - 2) && decide (1 ≤ y) && decide (y ≤ src.h - 2)

/-- R138: fewer than 3 columns or rows. -/
def undersized (src : Source) : Bool := decide (src.w < 3) || decide (src.h < 3)

/-- A footprint: `height` runs of `width` bytes, `pitch` bytes apart. -/
structure Rect where
  base : Nat
  width : Nat
  height : Nat
  pitch : Nat
deriving DecidableEq, Repr

/-- R66: SrcFoot of an image-producing command. -/
def srcRect (src : Source) : Rect := ⟨src.base, src.w, src.h, src.s⟩

/-- R67: DstFoot of a filter command with an `ow` × `oh` output. -/
def dstRect (s : State) (ow oh : Nat) : Rect := ⟨s.dstBase.toNat, ow, oh, dstStrideOf s ow⟩

/-- R68: GxFoot or GyFoot for the plane's base; a row is 2·W bytes, rows are 2·S bytes apart. -/
def planeRect (base : Nat) (src : Source) : Rect := ⟨base, 2 * src.w, src.h, 2 * src.s⟩

/-- The address of byte `x` of run `y`. -/
def rectAddr (r : Rect) (x y : Nat) : Nat := r.base + y * r.pitch + x

/-- The upper end of the hull (R66 to R68), for a rectangle that is not empty. -/
def hullEnd (r : Rect) : Nat := r.base + (r.height - 1) * r.pitch + r.width - 1

/-- R79: the hulls share an address. -/
def hullsMeet (r q : Rect) : Bool := !(decide (hullEnd r < q.base) || decide (hullEnd q < r.base))

/-- R79: two of the hulls intersect. -/
def someHullsMeet (l : List Rect) : Bool :=
  match l with
  | [] => false
  | r :: rest => rest.any (hullsMeet r) || someHullsMeet rest

/-- R216: every byte of the footprint exists. -/
def rectValid (cfg : Cfg) (r : Rect) : Bool := allXY r.width r.height (fun x y => memValid cfg (rectAddr r x y))

/-- R131: the CHECKED accessor at tap `(i, j)` of the centre `(x, y)`, an interior pixel: `P(x−1+j, y−1+i)`. -/
def checkedTap (cfg : Cfg) (m : Memory) (src : Source) (x y i j : Nat) : Except CmdError Nat :=
  memRead cfg m (srcAddr src (x - 1 + j) (y - 1 + i)) .byte

/-- R132: the address the FAST accessor computes for tap `(i, j)`, from the linear offset of the centre. -/
def fastAddr (src : Source) (x y i j : Nat) : Nat :=
  ((src.base : Int) + ((y * src.s + x : Nat) : Int) + ((i : Int) - 1) * (src.s : Int) + ((j : Int) - 1)).toNat

/-- R132: the FAST accessor. -/
def fastTap (cfg : Cfg) (m : Memory) (src : Source) (x y i j : Nat) : Except CmdError Nat :=
  memRead cfg m (fastAddr src x y i j) .byte

/-- The accessor of an effective strategy (R96). -/
def pixelTap (c : Conv) (cfg : Cfg) (m : Memory) (src : Source) (x y i j : Nat) : Except CmdError Nat :=
  match c with
  | .checked => checkedTap cfg m src x y i j
  | .fast => fastTap cfg m src x y i j

end Sys2Proof.Machine
end

