-- ==== Sys2Proof/Machine/Image.lean ====
section
/-! DEFINITION. What the four image-producing commands share (spec/41_convolution.md R138, R139; spec/60_exceptions.md R219,
R220): the empty output, the checks and their order, what a bus error leaves in the write footprints, the published output. -/

namespace Sys2Proof.Machine

/-- The footprints a command writes: DstFoot if `usesDst`, GxFoot and GyFoot if `usesPlanes` (R67, R68). -/
def writeFoot (s : State) (usesDst usesPlanes : Bool) (ow oh : Nat) : List Rect :=
  (if usesDst then [dstRect s ow oh] else []) ++
    (if usesPlanes then [planeRect s.gxBase.toNat (sourceOf s), planeRect s.gyBase.toNat (sourceOf s)] else [])

/-- R139, `ImageChecks(usesDst, usesPlanes, OW, OH)`, in its order: ErrConfig, ErrAlign, ErrOverlap, ErrBus. -/
def imageChecks (s : State) (usesDst usesPlanes : Bool) (ow oh : Nat) : Except CmdError Unit :=
  let src := sourceOf s
  let foot := srcRect src :: writeFoot s usesDst usesPlanes ow oh
  if src.s < src.w then .error .config
  else if usesDst && decide (dstStrideOf s ow < ow) then .error .config
  else if foot.any (fun r => decide (Config.addrLimit ≤ hullEnd r)) then .error .config
  else if usesPlanes && (decide (s.gxBase.toNat % 2 = 1) || decide (s.gyBase.toNat % 2 = 1)) then .error .align
  else if someHullsMeet foot then .error .overlap
  else if foot.all (rectValid s.cfg) then .ok ()
  else .error .bus

/-- R220, U3: after ErrBus each valid byte of a write footprint holds an unspecified value. -/
def scatterResidue (cfg : Cfg) (n : Nat) (r : Rect) (m : Memory) : Memory :=
  foldBelow r.height (fun y => foldBelow r.width (fun x t =>
    if memValid cfg (rectAddr r x y) then t.write (rectAddr r x y) (Config.busResidue n (rectAddr r x y)) else t)) m

/-- The bytes of the write footprints become unspecified, with a fresh free value for this command. -/
def leaveResidue (foot : List Rect) (s : State) : State :=
  { s with
    mem := foot.foldl (fun m r => scatterResidue s.cfg s.freeCount r m) s.mem
    freeCount := s.freeCount + 1 }

/-- R220: an image-producing command ends with error `e`. -/
def imageError (e : CmdError) (foot : List Rect) (s : State) : State :=
  raiseError e true (if e = .bus then leaveResidue foot s else s)

/-- R33, R138: the dimensions the command publishes. -/
def publish (ow oh : Nat) (s : State) : State := { s with dstW := BitVec.ofNat 16 ow, dstH := BitVec.ofNat 16 oh }

/-- The frame of R141, R142, R191, R193: an undersized source gives the empty output before any check; then the checks; then
the command's own loop over memory; then DST_W, DST_H and `Done`. -/
def imageCommand (usesDst usesPlanes : Bool) (ow oh : Nat) (knil : Bool) (body : Memory → Except CmdError Memory) (s : State) :
    State :=
  if undersized (sourceOf s) then complete true knil (publish 0 0 s)
  else
    match imageChecks s usesDst usesPlanes ow oh with
    | .error e => imageError e (writeFoot s usesDst usesPlanes ow oh) s
    | .ok () =>
      match body s.mem with
      | .error e => imageError e (writeFoot s usesDst usesPlanes ow oh) s
      | .ok m => complete false knil (publish ow oh { s with mem := m })

end Sys2Proof.Machine
end

