-- ==== Sys2Proof/Machine/KernelBank.lean ====
section
/-! DEFINITION. The kernel bank (spec/40_control_and_kernel_bank.md R122, R123, R125), and the commands NOP (R121) and KLOOKUP
(R124). -/

namespace Sys2Proof.Machine

/-- R123, G1: the Sobel pair. PRESUMED by the spec itself: from general knowledge, not in its source (log 8). -/
def sobelPair : KernelPair where
  kx := ⟨-1, 0, 1, -2, 0, 2, -1, 0, 1⟩
  ky := ⟨-1, -2, -1, 0, 0, 0, 1, 2, 1⟩

/-- R123, G2: the Scharr pair. PRESUMED by the spec itself (log 8). -/
def scharrPair : KernelPair where
  kx := ⟨-3, 0, 3, -10, 0, 10, -3, 0, 3⟩
  ky := ⟨-3, -10, -3, 0, 0, 0, 3, 10, 3⟩

/-- R125: the nil pair behaves as eighteen zero weights. -/
def nilPair : KernelPair where
  kx := ⟨0, 0, 0, 0, 0, 0, 0, 0, 0⟩
  ky := ⟨0, 0, 0, 0, 0, 0, 0, 0, 0⟩

/-- R122, `KernelPairFor(v)`. -/
def kernelPairFor (cfg : Cfg) : Variant → KernelPair
  | .sobel => sobelPair
  | .sobelFast => sobelPair
  | .laplacian => cfg.kromLaplacian
  | .scharr => scharrPair
  | .sharpen => cfg.kromSharpen
  | .unrecognised _ => nilPair

/-- R125: the variant resolves to the nil pair, `v ≥ 5`. -/
def resolvesToNil : Variant → Bool
  | .unrecognised _ => true
  | .sobel => false
  | .sobelFast => false
  | .laplacian => false
  | .scharr => false
  | .sharpen => false

/-- R41: a kernel as the readout registers hold it, `sext_32` of each weight. -/
def readout (k : Taps (BitVec 8)) : Taps Word :=
  ⟨k.k0.signExtend 32, k.k1.signExtend 32, k.k2.signExtend 32, k.k3.signExtend 32, k.k4.signExtend 32, k.k5.signExtend 32,
    k.k6.signExtend 32, k.k7.signExtend 32, k.k8.signExtend 32⟩

/-- R121, NOP. -/
def execNop (s : State) : Host.Outcome State Fault Refusal := .next (complete false false s)

/-- R124, KLOOKUP. -/
def execKlookup (v : Variant) (s : State) : Host.Outcome State Fault Refusal :=
  .next (complete false (resolvesToNil v)
    { s with kx := readout (kernelPairFor s.cfg v).kx, ky := readout (kernelPairFor s.cfg v).ky })

end Sys2Proof.Machine
end

