-- ==== Sys2Proof/Machine/Float64.lean ====
section
/-! DEFINITION. The finite binary64 numbers the engine's FLOAT strategy computes with (spec/42_magnitude.md R171, FP_FORMAT of
Table P1): 53 significant bits, round to nearest, ties to even. A number is `sig · 2^exp`. The exponent is not bounded: every
value the engine forms is 0 or lies between 2^-53 and 2^66, where binary64 has neither overflow nor underflow, and no NaN or
infinity arises (R142, R171). -/

namespace Sys2Proof.Machine

/-- `sig · 2^exp`. -/
structure F64 where
  sig : Int
  exp : Int
deriving DecidableEq, Repr

/-- The number of bits of a natural. -/
def bitLength (n : Nat) : Nat := if n = 0 then 0 else Nat.log2 n + 1

/-- Drop the low `k` bits, to the nearest, ties to even. -/
def roundShift (n k : Nat) : Nat :=
  let q := n / 2 ^ k
  let r := n % 2 ^ k
  if 2 * r < 2 ^ k then q
  else if 2 ^ k < 2 * r then q + 1
  else if q % 2 = 0 then q
  else q + 1

/-- The binary64 number nearest `sig · 2^exp`. -/
def f64Round (sig exp : Int) : F64 :=
  let k := bitLength sig.natAbs - Config.floatPrecision
  ⟨sig.sign * (roundShift sig.natAbs k : Nat), exp + (k : Nat)⟩

/-- `fl(·)` (R171): conversion of an integer. -/
def f64OfInt (z : Int) : F64 := f64Round z 0

/-- The rounded product. -/
def f64Mul (a b : F64) : F64 := f64Round (a.sig * b.sig) (a.exp + b.exp)

/-- The rounded sum: both terms are brought to the smaller exponent, where the sum is exact. -/
def f64Add (a b : F64) : F64 :=
  let e := min a.exp b.exp
  f64Round (a.sig * 2 ^ (a.exp - e).toNat + b.sig * 2 ^ (b.exp - e).toNat) e

/-- The absolute value (exact). -/
def f64Abs (a : F64) : F64 := ⟨a.sig.natAbs, a.exp⟩

/-- The ceiling of a number, as an integer. -/
def f64Ceil (a : F64) : Int :=
  if 0 ≤ a.exp then a.sig * 2 ^ a.exp.toNat else -((-a.sig) / 2 ^ (-a.exp).toNat)

/-- The truncation of a number that is not negative, as an integer. -/
def f64Trunc (a : F64) : Int :=
  if 0 ≤ a.exp then a.sig * 2 ^ a.exp.toNat else a.sig / 2 ^ (-a.exp).toNat

end Sys2Proof.Machine
end

