-- ==== Sys2Proof/Machine/Magnitude.lean ====
section
/-! DEFINITION. The magnitude estimator (spec/42_magnitude.md): the two integer square roots, the binary64 root, the three
strategies of `Magnitude` (R163), and the commands MAGNITUDE, ISQRT_NEWTON, ISQRT_BISECT (R174 to R176). -/

namespace Sys2Proof.Machine

/-- The loop of R165. `fuel` bounds the iterations: 40 are enough for every `n < 2^32` (R166, Laws/Roots.lean). -/
def newtonLoop (n fuel : Nat) (prev2 : Option Nat) (prev : Nat) : Nat :=
  match fuel with
  | 0 => prev
  | f + 1 =>
    let next := (prev + n / prev) / 2
    if next = prev then prev
    else if some next = prev2 then min prev next
    else newtonLoop n f (some prev) next

/-- R165, `NewtonRoot(n)`, with the saturating arm of R167. -/
def newtonRoot (n : Nat) : Nat :=
  if n = 0 then 0
  else if 4294967296 ≤ n then 65535
  else newtonLoop n 40 none n

/-- The loop of R169. `fuel` bounds the halvings. -/
def bisectLoop (n fuel lo hi ans : Nat) : Nat :=
  match fuel with
  | 0 => ans
  | f + 1 =>
    if lo ≤ hi then
      let mid := (lo + hi) / 2
      if mid * mid ≤ n then bisectLoop n f (mid + 1) hi mid else bisectLoop n f lo (mid - 1) ans
    else ans

/-- R169, `BisectRoot(n)`: the range has at most n/2 candidates, so log2 n halvings empty it. -/
def bisectRoot (n : Nat) : Nat :=
  if n < 2 then n else bisectLoop n (Nat.log2 n + 1) 1 (n / 2) 1

/-- `sqrt64` (R171): the correctly rounded root of a number that is not negative. The significand is scaled by an even power
of two until its integer root has more than 53 bits; one more bit says whether the root is inexact; one rounding follows. -/
def f64Sqrt (a : F64) : F64 :=
  let t : Nat := if a.exp % 2 = 0 then 110 else 111
  let n := a.sig.toNat * 2 ^ t
  let r := bisectRoot n
  f64Round ((2 * r + (if r * r = n then 0 else 1) : Nat) : Int) ((a.exp - (t : Int)) / 2 - 1)

/-- R162, R163: round the root `r` of `s` up. -/
def roundUp (policy : RoundPolicy) (s r : Nat) : Nat :=
  if policy = .plusOne ∨ r * r ≠ s then r + 1 else r

/-- R164: the clamp. -/
def clamp255 (c : Nat) : Nat := min c 255

/-- R171, `MagFromSumFloat(fs)`: the clamp comes before the cast. -/
def magFromSumFloat (policy : RoundPolicy) (fs : F64) : Nat :=
  let f := f64Sqrt fs
  let g : Int := match policy with
    | .ceil => f64Ceil f
    | .plusOne => f64Trunc f + 1
  if 255 ≤ g then 255 else g.toNat

/-- R163, `Magnitude(m, gx, gy)`. -/
def magnitude (policy : RoundPolicy) (m : Mag) (gx gy : Nat) : Nat :=
  let s := gx * gx + gy * gy
  match m with
  | .newton => clamp255 (roundUp policy s (newtonRoot s))
  | .bisect => clamp255 (roundUp policy s (bisectRoot s))
  | .float =>
    magFromSumFloat policy
      (f64Add (f64Mul (f64OfInt gx) (f64OfInt gx)) (f64Mul (f64OfInt gy) (f64OfInt gy)))

/-- R174, MAGNITUDE. -/
def execMagnitude (m : Mag) (s : State) : Host.Outcome State Fault Refusal :=
  .next (complete false false
    { s with resMag := BitVec.ofNat 8 (magnitude s.cfg.roundPolicy m s.opGx.toNat s.opGy.toNat) })

/-- R175, ISQRT_NEWTON. -/
def execIsqrtNewton (s : State) : Host.Outcome State Fault Refusal :=
  .next (complete false false { s with resSqrt := BitVec.ofNat 32 (newtonRoot s.opN.toNat) })

/-- R176, ISQRT_BISECT. -/
def execIsqrtBisect (s : State) : Host.Outcome State Fault Refusal :=
  .next (complete false false { s with resSqrt := BitVec.ofNat 32 (bisectRoot s.opN.toNat) })

end Sys2Proof.Machine
end

