-- ==== Sys2Proof/Machine/Convolution.lean ====
section
/-! DEFINITION. The convolution engine (spec/41_convolution.md): the gradient of a pixel (R133), the driving loop (R140), and
the commands GRADIENT, FILTER, FILTER_MATH (R136, R141, R142). -/

namespace Sys2Proof.Machine

/-- The sums of R133, over the nine taps in row-major order, as mathematical integers (R134). -/
def gradientSums (tap : Nat → Nat → Except CmdError Nat) (k : KernelPair) : Except CmdError (Int × Int) :=
  loopBelow 3 (fun i => loopBelow 3 (fun j acc =>
    match tap i j with
    | .error e => .error e
    | .ok p =>
      .ok (acc.1 + (tapAt k.kx (3 * i + j)).toInt * (p : Int), acc.2 + (tapAt k.ky (3 * i + j)).toInt * (p : Int)))) (0, 0)

/-- R133, `Gradient(x, y, Kx, Ky)`: the absolute values of the two sums. -/
def gradientOf (tap : Nat → Nat → Except CmdError Nat) (k : KernelPair) : Except CmdError (Nat × Nat) :=
  match gradientSums tap k with
  | .error e => .error e
  | .ok (sx, sy) => .ok (sx.natAbs, sy.natAbs)

/-- The sums of R142, formed in binary64 (log 11). -/
def floatSums (tap : Nat → Nat → Except CmdError Nat) (k : KernelPair) : Except CmdError (F64 × F64) :=
  loopBelow 3 (fun i => loopBelow 3 (fun j acc =>
    match tap i j with
    | .error e => .error e
    | .ok p =>
      .ok (f64Add acc.1 (f64Mul (f64OfInt (tapAt k.kx (3 * i + j)).toInt) (f64OfInt (p : Int))),
        f64Add acc.2 (f64Mul (f64OfInt (tapAt k.ky (3 * i + j)).toInt) (f64OfInt (p : Int)))))) (⟨0, 0⟩, ⟨0, 0⟩)

/-- R142: the pixel value of FILTER_MATH. -/
def floatPixel (policy : RoundPolicy) (tap : Nat → Nat → Except CmdError Nat) (k : KernelPair) : Except CmdError Nat :=
  match floatSums tap k with
  | .error e => .error e
  | .ok (sx, sy) =>
    .ok (magFromSumFloat policy (f64Add (f64Mul (f64Abs sx) (f64Abs sx)) (f64Mul (f64Abs sy) (f64Abs sy))))

/-- The pixel value of FILTER (R140): the magnitude of the gradient. -/
def filterPixel (policy : RoundPolicy) (mag : Mag) (tap : Nat → Nat → Except CmdError Nat) (k : KernelPair) :
    Except CmdError Nat :=
  match gradientOf tap k with
  | .error e => .error e
  | .ok (gx, gy) => .ok (magnitude policy mag gx gy)

/-- R140, the driving loop: interior pixel `(x+1, y+1)` gives output sample `(x, y)`. `pixel m x y` is the value for the centre
`(x, y)` read from memory `m`. -/
def trimmedLoop (cfg : Cfg) (src : Source) (base ds : Nat) (pixel : Memory → Nat → Nat → Except CmdError Nat) (m : Memory) :
    Except CmdError Memory :=
  loopXY (src.w - 2) (src.h - 2) (fun x y t =>
    match pixel t (x + 1) (y + 1) with
    | .error e => .error e
    | .ok v => memWrite cfg t (dstAddr base ds x y) .byte v) m

/-- The command shared by FILTER and FILTER_MATH (R141, R142): trimmed output, source and destination footprints. -/
def trimmedCommand (knil : Bool) (pixel : Memory → Nat → Nat → Except CmdError Nat) (s : State) : State :=
  let src := sourceOf s
  imageCommand true false (src.w - 2) (src.h - 2) knil
    (trimmedLoop s.cfg src s.dstBase.toNat (dstStrideOf s (src.w - 2)) pixel) s

/-- R136, GRADIENT. The interior test on the FAST path is the host's duty (R248); its breach is undefined (R137). -/
def execGradient (v : Variant) (c : Conv) (s : State) : Host.Outcome State Fault Refusal :=
  let src := sourceOf s
  let x := s.opX.toNat
  let y := s.opY.toNat
  if src.s < src.w then .next (raiseError .config false s)
  else if 3 ≤ src.w ∧ 3 ≤ src.h ∧ Config.addrLimit ≤ hullEnd (srcRect src) then .next (raiseError .config false s)
  else if interior src x y then
    match gradientOf (pixelTap (effectiveConv v c) s.cfg s.mem src x y) (kernelPairFor s.cfg v) with
    | .error e => .next (raiseError e false s)
    | .ok (gx, gy) =>
      .next (complete false (resolvesToNil v) { s with resGx := BitVec.ofNat 32 gx, resGy := BitVec.ofNat 32 gy })
  else
    match effectiveConv v c with
    | .fast => .fault .fastGradientOutOfRange
    | .checked => .next (raiseError .range false s)

/-- R141, FILTER. -/
def execFilter (v : Variant) (c : Conv) (m : Mag) (s : State) : Host.Outcome State Fault Refusal :=
  .next (trimmedCommand (resolvesToNil v)
    (fun t x y =>
      filterPixel s.cfg.roundPolicy m (pixelTap (effectiveConv v c) s.cfg t (sourceOf s) x y) (kernelPairFor s.cfg v)) s)

/-- R142, FILTER_MATH: the Sobel pair, binary64 throughout. Reading through the CHECKED accessor is the model's choice: the spec
leaves the indexing strategy open and it cannot be observed (N28; log 26). -/
def execFilterMath (s : State) : Host.Outcome State Fault Refusal :=
  .next (trimmedCommand false
    (fun t x y => floatPixel s.cfg.roundPolicy (checkedTap s.cfg t (sourceOf s) x y) (kernelPairFor s.cfg .sobel)) s)

end Sys2Proof.Machine
end

