-- ==== Sys2Proof/Machine/Planes.lean ====
section
/-! DEFINITION. Gradient planes and the vectorized path (spec/43_planes_and_simd.md): the value of a plane sample (R192), and the
commands GRAD_PLANES (R191) and FILTER_SIMD (R193). -/

namespace Sys2Proof.Machine

/-- R192, `PlaneSample(x, y)`. Reading through the CHECKED accessor is the model's choice: the spec leaves the indexing strategy
of FILTER_SIMD open and it cannot be observed (N28, R135; log 26). -/
def planeSample (cfg : Cfg) (m : Memory) (src : Source) (x y : Nat) : Except CmdError (Nat × Nat) :=
  if interior src x y then
    match gradientOf (checkedTap cfg m src x y) (kernelPairFor cfg .sobel) with
    | .error e => .error e
    | .ok (gx, gy) => .ok (min gx 65535, min gy 65535)
  else .ok (Config.planeBorderFill, Config.planeBorderFill)

/-- The gradient primitive (R191, stage 1 of R193): both samples of every position. -/
def planesLoop (cfg : Cfg) (src : Source) (gxBase gyBase : Nat) (m : Memory) : Except CmdError Memory :=
  loopXY src.w src.h (fun x y t =>
    match planeSample cfg t src x y with
    | .error e => .error e
    | .ok (sx, sy) =>
      match memWrite cfg t (planeAddr gxBase src x y) .half sx with
      | .error e => .error e
      | .ok t' => memWrite cfg t' (planeAddr gyBase src x y) .half sy) m

/-- Stage 2 of R193: the reduction over every sample of the planes, border included. -/
def reduceLoop (cfg : Cfg) (src : Source) (gxBase gyBase base ds : Nat) (m : Memory) : Except CmdError Memory :=
  loopXY src.w src.h (fun x y t =>
    match memRead cfg t (planeAddr gxBase src x y) .half, memRead cfg t (planeAddr gyBase src x y) .half with
    | .ok gx, .ok gy => memWrite cfg t (dstAddr base ds x y) .byte (magnitude cfg.roundPolicy .float gx gy)
    | .error e, _ => .error e
    | _, .error e => .error e) m

/-- R191, GRAD_PLANES. -/
def execGradPlanes (s : State) : Host.Outcome State Fault Refusal :=
  let src := sourceOf s
  .next (imageCommand false true src.w src.h false (planesLoop s.cfg src s.gxBase.toNat s.gyBase.toNat) s)

/-- R193, FILTER_SIMD. -/
def execFilterSimd (s : State) : Host.Outcome State Fault Refusal :=
  let src := sourceOf s
  .next (imageCommand true true src.w src.h false
    (fun m =>
      match planesLoop s.cfg src s.gxBase.toNat s.gyBase.toNat m with
      | .error e => .error e
      | .ok t => reduceLoop s.cfg src s.gxBase.toNat s.gyBase.toNat s.dstBase.toNat (dstStrideOf s src.w) t) s)

end Sys2Proof.Machine
end

