-- ==== Sys2Proof/Machine/Dispatch.lean ====
section
/-! DEFINITION. The meaning of each command, one arm per constructor of `Instr`. -/

namespace Sys2Proof.Machine

def exec (i : Instr) (s : State) : Host.Outcome State Fault Refusal :=
  match i with
  | .nop => Sys2Proof.Machine.execNop s
  | .gradient v c => Sys2Proof.Machine.execGradient v c s
  | .magnitude m => Sys2Proof.Machine.execMagnitude m s
  | .filter v c m => Sys2Proof.Machine.execFilter v c m s
  | .filterMath => Sys2Proof.Machine.execFilterMath s
  | .gradPlanes => Sys2Proof.Machine.execGradPlanes s
  | .filterSimd => Sys2Proof.Machine.execFilterSimd s
  | .isqrtNewton => Sys2Proof.Machine.execIsqrtNewton s
  | .isqrtBisect => Sys2Proof.Machine.execIsqrtBisect s
  | .klookup v => Sys2Proof.Machine.execKlookup v s

end Sys2Proof.Machine
end

