-- ==== Sys2Proof/WellFormed.lean ====
section
/-! DEFINITION. Which terms of `Instr` stand for a command word (spec/30_encoding.md R95): an unrecognised variant carries one
of the selector values 5, 6, 7. Every other check of R98 holds by the shape of `Instr`. -/

namespace Sys2Proof

/-- R95: values 0 to 4 are the five variants, so `unrecognised` stands for 5, 6 and 7 only. -/
def Variant.wf : Variant → Bool
  | .unrecognised code => decide (5 ≤ code.toNat)
  | .sobel => true
  | .sobelFast => true
  | .laplacian => true
  | .scharr => true
  | .sharpen => true

/-- The instruction stands for a legal command word. -/
def Instr.wf : Instr → Bool
  | .nop => true
  | .gradient v _ => v.wf
  | .magnitude _ => true
  | .filter v _ _ => v.wf
  | .filterMath => true
  | .gradPlanes => true
  | .filterSimd => true
  | .isqrtNewton => true
  | .isqrtBisect => true
  | .klookup v => v.wf

end Sys2Proof
end

