-- ==== Sys2Proof/Decode.lean ====
section
/-! DEFINITION. Decoding a command word (spec/30_encoding.md R105), rejecting by the clause of R98 that the word breaks; the
encoder from the same tables (E1, E2); the textual form (R101) and the pseudo-commands (R102). -/

namespace Sys2Proof

/-- Why a word is illegal: the clauses (a) to (f) of R98. -/
inductive Reject where
  /-- (a): a bit of ZERO, [31:10], is 1 -/
  | zeroBits
  /-- (b): OPC is 10 to 15 -/
  | reservedOpcode
  /-- (c): the command does not use MAG and MAG is not 0 -/
  | unusedMag
  /-- (d): the command uses MAG and MAG is 3 -/
  | reservedMag
  /-- (e): the command does not use CONV and CONV is 1 -/
  | unusedConv
  /-- (f): the command does not use VAR and VAR is not 0 -/
  | unusedVar
deriving DecidableEq, Repr

/-- Field OPC (R91). -/
def fieldOpc (c : Word) : BitVec 4 := c.extractLsb' 0 4
/-- Field VAR (R92). -/
def fieldVar (c : Word) : BitVec 3 := c.extractLsb' 4 3
/-- Field CONV (R92). -/
def fieldConv (c : Word) : BitVec 1 := c.extractLsb' 7 1
/-- Field MAG (R92). -/
def fieldMag (c : Word) : BitVec 2 := c.extractLsb' 8 2
/-- Field ZERO (R92). -/
def fieldZero (c : Word) : BitVec 22 := c.extractLsb' 10 22

/-- R95: the variant of a selector value. -/
def decodeVariant (code : BitVec 3) : Variant :=
  match code.toNat with
  | 0 => .sobel
  | 1 => .sobelFast
  | 2 => .laplacian
  | 3 => .scharr
  | 4 => .sharpen
  | _ => .unrecognised code

/-- R96. -/
def decodeConv (code : BitVec 1) : Conv := if code = 0 then .checked else .fast

/-- R97: value 3 is reserved. -/
def decodeMag (code : BitVec 2) : Option Mag :=
  match code.toNat with
  | 0 => some .newton
  | 1 => some .bisect
  | 2 => some .float
  | _ => none

/-- A command that uses no selector (R98 (c), (e), (f)). -/
def decodePlain (i : Instr) (var : BitVec 3) (conv : BitVec 1) (mag : BitVec 2) : Except Reject Instr :=
  if mag ≠ 0 then .error .unusedMag
  else if conv ≠ 0 then .error .unusedConv
  else if var ≠ 0 then .error .unusedVar
  else .ok i

/-- R105, total on the 32-bit words. -/
def decode (c : Word) : Except Reject Instr :=
  if fieldZero c ≠ 0 then .error .zeroBits
  else
    let var := fieldVar c
    let conv := fieldConv c
    let mag := fieldMag c
    match (fieldOpc c).toNat with
    | 0 => decodePlain .nop var conv mag
    | 1 => if mag ≠ 0 then .error .unusedMag else .ok (.gradient (decodeVariant var) (decodeConv conv))
    | 2 =>
      if conv ≠ 0 then .error .unusedConv
      else if var ≠ 0 then .error .unusedVar
      else
        match decodeMag mag with
        | none => .error .reservedMag
        | some m => .ok (.magnitude m)
    | 3 =>
      match decodeMag mag with
      | none => .error .reservedMag
      | some m => .ok (.filter (decodeVariant var) (decodeConv conv) m)
    | 4 => decodePlain .filterMath var conv mag
    | 5 => decodePlain .gradPlanes var conv mag
    | 6 => decodePlain .filterSimd var conv mag
    | 7 => decodePlain .isqrtNewton var conv mag
    | 8 => decodePlain .isqrtBisect var conv mag
    | 9 =>
      if mag ≠ 0 then .error .unusedMag
      else if conv ≠ 0 then .error .unusedConv
      else .ok (.klookup (decodeVariant var))
    | _ => .error .reservedOpcode

/-- The selector value of a variant (R95). -/
def variantCode : Variant → BitVec 3
  | .sobel => 0
  | .sobelFast => 1
  | .laplacian => 2
  | .scharr => 3
  | .sharpen => 4
  | .unrecognised code => code

/-- The selector value of a convolution strategy (R96). -/
def convCode : Conv → BitVec 1
  | .checked => 0
  | .fast => 1

/-- The selector value of a magnitude strategy (R97). -/
def magCode : Mag → BitVec 2
  | .newton => 0
  | .bisect => 1
  | .float => 2

/-- Table E1: the word with the given fields and ZERO = 0. -/
def packCommand (opc : BitVec 4) (var : BitVec 3) (conv : BitVec 1) (mag : BitVec 2) : Word :=
  mag.setWidth 32 <<< 8 ||| conv.setWidth 32 <<< 7 ||| var.setWidth 32 <<< 4 ||| opc.setWidth 32

/-- Table E2: the word of a command. -/
def encode : Instr → Word
  | .nop => packCommand 0 0 0 0
  | .gradient v c => packCommand 1 (variantCode v) (convCode c) 0
  | .magnitude m => packCommand 2 0 0 (magCode m)
  | .filter v c m => packCommand 3 (variantCode v) (convCode c) (magCode m)
  | .filterMath => packCommand 4 0 0 0
  | .gradPlanes => packCommand 5 0 0 0
  | .filterSimd => packCommand 6 0 0 0
  | .isqrtNewton => packCommand 7 0 0 0
  | .isqrtBisect => packCommand 8 0 0 0
  | .klookup v => packCommand 9 (variantCode v) 0 0

/-- The instruction read from a row of spec/opcode_table.json: `w` numbered as the table numbers its bits, every bit from
`nbits` on being 0. The register bus moves whole 32-bit values, so there is no byte order to apply (R23). -/
def decodeTableWord (nbits w : Nat) : Option Instr :=
  match decode (BitVec.ofNat 32 (w % 2 ^ nbits)) with
  | .ok i => some i
  | .error _ => none

/-- DEFAULT_MAG of Table P1 (D26). -/
def defaultMag : Mag := .newton

/-- R102: the expansion of a pseudo-command. -/
def expandPseudo : Pseudo → Instr
  | .filterGray v => .filter v .checked defaultMag
  | .filterGrayFast v => .filter v .fast defaultMag
  | .filterGrayMath => .filterMath
  | .filterGraySimd => .filterSimd
  | .intSqrtNewton => .isqrtNewton
  | .intSqrtBisect => .isqrtBisect
  | .gradient v => .gradient v .checked
  | .magnitude m => .magnitude m
  | .kernelPairFor v => .klookup v

/-- The name of a variant in the textual form (R101); an unrecognised one is written as its number. -/
def variantName : Variant → String
  | .sobel => "SOBEL"
  | .sobelFast => "SOBELFAST"
  | .laplacian => "LAPLACIAN"
  | .scharr => "SCHARR"
  | .sharpen => "SHARPEN"
  | .unrecognised code => toString code.toNat

/-- The name of a convolution strategy in the textual form (R101). -/
def convName : Conv → String
  | .checked => "CHECKED"
  | .fast => "FAST"

/-- The name of a magnitude strategy in the textual form (R101). -/
def magName : Mag → String
  | .newton => "NEWTON"
  | .bisect => "BISECT"
  | .float => "FLOAT"

/-- R101: the textual form with every selector field the command uses written out, in the order var, conv, mag. -/
def commandText : Instr → String
  | .nop => "NOP"
  | .gradient v c => "GRADIENT var=" ++ variantName v ++ " conv=" ++ convName c
  | .magnitude m => "MAGNITUDE mag=" ++ magName m
  | .filter v c m => "FILTER var=" ++ variantName v ++ " conv=" ++ convName c ++ " mag=" ++ magName m
  | .filterMath => "FILTER_MATH"
  | .gradPlanes => "GRAD_PLANES"
  | .filterSimd => "FILTER_SIMD"
  | .isqrtNewton => "ISQRT_NEWTON"
  | .isqrtBisect => "ISQRT_BISECT"
  | .klookup v => "KLOOKUP var=" ++ variantName v

/-- The selector value a textual field stands for (R101): a name or, for var, a number 0 to 7; an omitted field is 0. -/
def assembleVar : Option String → Option (BitVec 3)
  | none => some 0
  | some t =>
    match ["SOBEL", "SOBELFAST", "LAPLACIAN", "SCHARR", "SHARPEN"].idxOf? t with
    | some k => some (BitVec.ofNat 3 k)
    | none => (["0", "1", "2", "3", "4", "5", "6", "7"].idxOf? t).map (BitVec.ofNat 3)

/-- As `assembleVar`, for conv (R101). -/
def assembleConv : Option String → Option (BitVec 1)
  | none => some 0
  | some t => (["CHECKED", "FAST"].idxOf? t).map (BitVec.ofNat 1)

/-- As `assembleVar`, for mag (R101). -/
def assembleMag : Option String → Option (BitVec 2)
  | none => some 0
  | some t => (["NEWTON", "BISECT", "FLOAT"].idxOf? t).map (BitVec.ofNat 2)

/-- OPC and the selector fields a mnemonic takes, in the order R101 writes them (Table E2, R94). -/
def mnemonicForm : String → Option (BitVec 4 × List String)
  | "NOP" => some (0, [])
  | "GRADIENT" => some (1, ["var", "conv"])
  | "MAGNITUDE" => some (2, ["mag"])
  | "FILTER" => some (3, ["var", "conv", "mag"])
  | "FILTER_MATH" => some (4, [])
  | "GRAD_PLANES" => some (5, [])
  | "FILTER_SIMD" => some (6, [])
  | "ISQRT_NEWTON" => some (7, [])
  | "ISQRT_BISECT" => some (8, [])
  | "KLOOKUP" => some (9, ["var"])
  | _ => none

/-- R101: the word of a command written as its mnemonic and `field=NAME` pairs (each pair given here as the two names). -/
def assemble (mnemonic : String) (fields : List (String × String)) : Option Word :=
  match mnemonicForm mnemonic with
  | none => none
  | some (opc, used) =>
    if (fields.map Prod.fst).isSublist used then
      match assembleVar (fields.lookup "var"), assembleConv (fields.lookup "conv"), assembleMag (fields.lookup "mag") with
      | some var, some conv, some mag => some (packCommand opc var conv mag)
      | _, _, _ => none
    else none

end Sys2Proof
end

