-- ==== Sys2Proof/Machine/HostPort.lean ====
section
/-! DEFINITION. The host's actions (spec/10_state.md R23 to R26, spec/70 R240, R246), the execution sequence of a CMD write
(spec/40 R120) and the queue the step takes them from. `run` is the meaning of a command, `exec` in Machine/Step.lean. -/

namespace Sys2Proof.Machine

/-- R120, `Execute(c)`: CMD holds the word, legal or not; an illegal word ends with ErrIllegal (R211); a legal one runs. -/
def executeWord (run : Instr → State → Host.Outcome State Fault Refusal) (c : Word) (s : State) :
    Host.Outcome State Fault Refusal :=
  match decode c with
  | .error _ => .next (raiseError .illegal false (writeReg .cmd c s))
  | .ok i => run i (writeReg .cmd c s)

/-- R23: an aligned access of four bytes. -/
def alignedWord (off : BitVec 8) (size : Nat) : Bool := decide (size = 4) && decide (off.toNat % 4 = 0)

/-- One host action. -/
def hostAct (run : Instr → State → Host.Outcome State Fault Refusal) (a : HostAction) (s : State) :
    Host.Outcome State Fault Refusal :=
  match a with
  | .regWrite off size w =>
    if alignedWord off size then
      match regAt off.toNat with
      | none => .next s
      | some .cmd => executeWord run w s
      | some r => .next (writeReg r w s)
    else .refused .registerAccessNotAlignedWord
  | .regRead off size =>
    if alignedWord off size then
      match regAt off.toNat with
      | none => .next { s with hostRead := some 0 }
      | some r => .next { s with hostRead := some (readReg r s) }
    else .refused .registerAccessNotAlignedWord
  | .memWrite a v => if memValid s.cfg a then .next { s with mem := s.mem.write a v } else .fault .hostByteAbsent
  | .memRead a =>
    if memValid s.cfg a then .next { s with hostRead := some ((s.mem.read a).setWidth 32) } else .fault .hostByteAbsent
  | .reset => .next (resetRegisters s)

/-- The next host action, if there is one; with none the engine idles and holds its registers (R230). -/
def runHost (run : Instr → State → Host.Outcome State Fault Refusal) (s : State) : Host.Outcome State Fault Refusal :=
  match s.host with
  | [] => .next s
  | a :: rest => hostAct run a { s with host := rest }

/-- The host's write of a command word, as its next action. -/
def pushCommand (c : Word) (s : State) : State := { s with host := .regWrite 0 4 c :: s.host }

end Sys2Proof.Machine
end

