-- ==== Sys2Proof/Machine/Step.lean ====
section
/-! DEFINITION. One step: the host's next action (spec/10_state.md R21), a write to CMD running its command to the end. -/

namespace Sys2Proof.Machine

/-- One step of the machine. -/
def step (s : State) : Host.Outcome State Fault Refusal := runHost exec s

/-- The state whose next step is the host's write to CMD of the word `w` of an opcode-table row: the engine fetches nothing
(R22), a command is delivered by the host. -/
def State.withFetchWord (s : State) (nbits w : Nat) : State := pushCommand (BitVec.ofNat 32 (w % 2 ^ nbits)) s

end Sys2Proof.Machine
end

