-- ==== Sys2Proof/Safety.lean ====
section
/-! DEFINITION. The terms claims use: the closed forms of the spec's arithmetic, the conditions of the checks, footprints as sets
of addresses, the invariant of the machine, and runs (spec/70_reset_and_hazards.md R258). -/

namespace Sys2Proof.Machine

/-! ### Closed forms -/

/-- R163: `MagOf(s)`, from the floor root. -/
def magOf (policy : RoundPolicy) (s : Nat) : Nat := clamp255 (roundUp policy s (Nat.sqrt s))

/-- R133: `Σ K[i][j]·p(i, j)` over the nine taps, weights in row-major order. -/
def weightedSum (k : Taps (BitVec 8)) (p : Nat → Nat → Nat) : Int :=
  k.k0.toInt * p 0 0 + k.k1.toInt * p 0 1 + k.k2.toInt * p 0 2 +
  k.k3.toInt * p 1 0 + k.k4.toInt * p 1 1 + k.k5.toInt * p 1 2 +
  k.k6.toInt * p 2 0 + k.k7.toInt * p 2 1 + k.k8.toInt * p 2 2

/-- R61: the sample of pixel `(x, y)` of the source image. -/
def sourcePixel (s : State) (x y : Nat) : Nat := (s.mem.read (srcAddr (sourceOf s) x y)).toNat

/-- The nine pixels around `(x, y)`: tap `(i, j)` is pixel `(x−1+j, y−1+i)` (R133). -/
def window (s : State) (x y i j : Nat) : Nat := sourcePixel s (x - 1 + j) (y - 1 + i)

/-- R133: the horizontal component of the gradient at `(x, y)` for the pair of a variant. -/
def gradX (s : State) (v : Variant) (x y : Nat) : Nat := (weightedSum (kernelPairFor s.cfg v).kx (window s x y)).natAbs

/-- R133: the vertical component. -/
def gradY (s : State) (v : Variant) (x y : Nat) : Nat := (weightedSum (kernelPairFor s.cfg v).ky (window s x y)).natAbs

/-- The 8-bit intensity at `(x, y)`: `MagOf(gx² + gy²)` (R140, R163). -/
def sampleAt (s : State) (v : Variant) (x y : Nat) : Nat :=
  magOf s.cfg.roundPolicy (gradX s v x y * gradX s v x y + gradY s v x y * gradY s v x y)

/-- R192: the samples of the two planes at `(x, y)`, 0 at the border. -/
def planeX (s : State) (x y : Nat) : Nat := if interior (sourceOf s) x y then gradX s .sobel x y else 0

/-- R192. -/
def planeY (s : State) (x y : Nat) : Nat := if interior (sourceOf s) x y then gradY s .sobel x y else 0

/-- The 16-bit value at an even address, low byte first (R63). -/
def readHalf (m : Memory) (a : Nat) : Nat := (m.read a).toNat + 256 * (m.read (a + 1)).toNat

/-! ### STATUS and the register table -/

/-- R120, `Done(empty, knil)`: bits [7:0] are replaced by DONE = 1, EMPTY, KNIL; bits [31:8] stay. -/
def doneWord (empty knil : Bool) (old : Word) : Word :=
  old &&& 0xFFFFFF00#32 ||| (if knil then 8#32 else 0#32) ||| (if empty then 4#32 else 0#32) ||| 1#32

/-- R220, `Fail(E)` with `code(E) = code`: bits [7:0] are replaced by `(code << 4) | 2`, ANYERR becomes 1, bits [31:9] stay. -/
def failWord (code : Nat) (old : Word) : Word := old &&& 0xFFFFFE00#32 ||| 0x100#32 ||| BitVec.ofNat 32 (16 * code + 2)

/-- The access kinds of R24. -/
inductive Access where
  | rw
  | ro
  /-- read-only but for bit 8, write 1 to clear -/
  | w1c
deriving DecidableEq, Repr

/-- Table S1, column access. -/
def accessOf : Reg → Access
  | .cmd => .rw
  | .status => .w1c
  | .srcBase => .rw
  | .srcW => .rw
  | .srcH => .rw
  | .srcStride => .rw
  | .dstBase => .rw
  | .dstStride => .rw
  | .dstW => .ro
  | .dstH => .ro
  | .gxBase => .rw
  | .gyBase => .rw
  | .opX => .rw
  | .opY => .rw
  | .opGx => .rw
  | .opGy => .rw
  | .opN => .rw
  | .resGx => .ro
  | .resGy => .ro
  | .resMag => .ro
  | .resSqrt => .ro
  | .kx _ => .ro
  | .ky _ => .ro

/-- Table S1, column "bits used", of the RW registers: the bits of a written word that are kept. -/
def fieldMask : Reg → Word
  | .srcW => 0xFFFF#32
  | .srcH => 0xFFFF#32
  | .srcStride => 0xFFFF#32
  | .dstStride => 0xFFFF#32
  | .opX => 0xFFFF#32
  | .opY => 0xFFFF#32
  | .cmd => 0xFFFFFFFF#32
  | .srcBase => 0xFFFFFFFF#32
  | .dstBase => 0xFFFFFFFF#32
  | .gxBase => 0xFFFFFFFF#32
  | .gyBase => 0xFFFFFFFF#32
  | .opGx => 0xFFFFFFFF#32
  | .opGy => 0xFFFFFFFF#32
  | .opN => 0xFFFFFFFF#32
  | .status => 0x1FF#32
  | .dstW => 0xFFFF#32
  | .dstH => 0xFFFF#32
  | .resGx => 0xFFFFFFFF#32
  | .resGy => 0xFFFFFFFF#32
  | .resMag => 0xFF#32
  | .resSqrt => 0xFFFFFFFF#32
  | .kx _ => 0xFFFFFFFF#32
  | .ky _ => 0xFFFFFFFF#32

/-- The registers that describe the source image. -/
def sourceRegs : List Reg := [.srcBase, .srcW, .srcH, .srcStride]

/-- Table E3, column "reads registers". -/
def readsOf : Instr → List Reg
  | .nop => []
  | .gradient _ _ => sourceRegs ++ [.opX, .opY]
  | .magnitude _ => [.opGx, .opGy]
  | .filter _ _ _ => sourceRegs ++ [.dstBase, .dstStride]
  | .filterMath => sourceRegs ++ [.dstBase, .dstStride]
  | .gradPlanes => sourceRegs ++ [.gxBase, .gyBase]
  | .filterSimd => sourceRegs ++ [.gxBase, .gyBase, .dstBase, .dstStride]
  | .isqrtNewton => [.opN]
  | .isqrtBisect => [.opN]
  | .klookup _ => []

/-- Table E3, column "writes registers". -/
def writesOf : Instr → List Reg
  | .nop => [.status]
  | .gradient _ _ => [.resGx, .resGy, .status]
  | .magnitude _ => [.resMag, .status]
  | .filter _ _ _ => [.dstW, .dstH, .status]
  | .filterMath => [.dstW, .dstH, .status]
  | .gradPlanes => [.dstW, .dstH, .status]
  | .filterSimd => [.dstW, .dstH, .status]
  | .isqrtNewton => [.resSqrt, .status]
  | .isqrtBisect => [.resSqrt, .status]
  | .klookup _ =>
    [.kx 0, .kx 1, .kx 2, .kx 3, .kx 4, .kx 5, .kx 6, .kx 7, .kx 8,
      .ky 0, .ky 1, .ky 2, .ky 3, .ky 4, .ky 5, .ky 6, .ky 7, .ky 8, .status]

/-- R98: the clauses (a) to (f), over the fields of the word. -/
def IllegalWord (c : Word) : Prop :=
  let opc := (c.extractLsb' 0 4).toNat
  let var := (c.extractLsb' 4 3).toNat
  let conv := (c.extractLsb' 7 1).toNat
  let mag := (c.extractLsb' 8 2).toNat
  c.extractLsb' 10 22 ≠ 0 ∨ 10 ≤ opc ∨ (opc ∉ [2, 3] ∧ mag ≠ 0) ∨ (opc ∈ [2, 3] ∧ mag = 3) ∨ (opc ∉ [1, 3] ∧ conv = 1) ∨
    (opc ∉ [1, 3, 9] ∧ var ≠ 0)

/-! ### Footprints and checks -/

/-- The address is one of the footprint's bytes (R66 to R68). -/
def InRect (r : Rect) (a : Nat) : Prop := ∃ x y, x < r.width ∧ y < r.height ∧ rectAddr r x y = a

/-- Every byte of the footprint exists (R216). -/
def RectExists (cfg : Cfg) (r : Rect) : Prop := ∀ x y, x < r.width → y < r.height → memValid cfg (rectAddr r x y) = true

/-- R212 (a), (b), (c) for an image-producing command. -/
def ConfigBad (s : State) (usesDst usesPlanes : Bool) (ow oh : Nat) : Prop :=
  (sourceOf s).s < (sourceOf s).w ∨ (usesDst = true ∧ dstStrideOf s ow < ow) ∨
    ∃ r ∈ srcRect (sourceOf s) :: writeFoot s usesDst usesPlanes ow oh, 2 ^ 32 ≤ hullEnd r

/-- R213. -/
def AlignBad (s : State) (usesPlanes : Bool) : Prop :=
  usesPlanes = true ∧ (s.gxBase.toNat % 2 = 1 ∨ s.gyBase.toNat % 2 = 1)

/-- R79: two intervals `[a, b]`, `[c, d]` are disjoint when `b < c` or `d < a`. -/
def HullsDisjoint (r q : Rect) : Prop := hullEnd r < q.base ∨ hullEnd q < r.base

/-- R214. -/
def OverlapBad (s : State) (usesDst usesPlanes : Bool) (ow oh : Nat) : Prop :=
  ¬ (srcRect (sourceOf s) :: writeFoot s usesDst usesPlanes ow oh).Pairwise HullsDisjoint

/-- R216 for an image-producing command. -/
def BusBad (s : State) (usesDst usesPlanes : Bool) (ow oh : Nat) : Prop :=
  ∃ r ∈ srcRect (sourceOf s) :: writeFoot s usesDst usesPlanes ow oh, ¬ RectExists s.cfg r

/-- The command passes every check of R139. -/
def ChecksPass (s : State) (usesDst usesPlanes : Bool) (ow oh : Nat) : Prop :=
  ¬ ConfigBad s usesDst usesPlanes ow oh ∧ ¬ AlignBad s usesPlanes ∧ ¬ OverlapBad s usesDst usesPlanes ow oh ∧
    ¬ BusBad s usesDst usesPlanes ow oh

/-- R136: the stride or the hull of the source image is refused by GRADIENT. -/
def GradientConfigBad (s : State) : Prop :=
  (sourceOf s).s < (sourceOf s).w ∨
    (3 ≤ (sourceOf s).w ∧ 3 ≤ (sourceOf s).h ∧
      2 ^ 32 ≤ (sourceOf s).base + ((sourceOf s).h - 1) * (sourceOf s).s + (sourceOf s).w - 1)

/-- R11: `1 ≤ x ≤ W − 2` and `1 ≤ y ≤ H − 2`, in the naturals of R78 (false whenever W or H is below 3). -/
def Interior (s : State) (x y : Nat) : Prop :=
  1 ≤ x ∧ x + 2 ≤ (sourceOf s).w ∧ 1 ≤ y ∧ y + 2 ≤ (sourceOf s).h

/-- R66: the nine bytes around `(x, y)` exist. -/
def NineExist (s : State) (x y : Nat) : Prop :=
  ∀ i j, i < 3 → j < 3 → memValid s.cfg (srcAddr (sourceOf s) (x - 1 + j) (y - 1 + i)) = true

/-- R43: the source image of `u` is that of `s`, in the same place, with the same bytes. -/
def SameSource (s u : State) : Prop :=
  sourceOf u = sourceOf s ∧ ∀ a, InRect (srcRect (sourceOf s)) a → u.mem.read a = s.mem.read a

/-- R143: every pixel of the source image is `c`. -/
def ConstantImage (s : State) (c : Nat) : Prop :=
  ∀ x y, x < (sourceOf s).w → y < (sourceOf s).h → sourcePixel s x y = c

/-- The sum of the nine weights. -/
def weightTotal (k : Taps (BitVec 8)) : Int :=
  k.k0.toInt + k.k1.toInt + k.k2.toInt + k.k3.toInt + k.k4.toInt + k.k5.toInt + k.k6.toInt + k.k7.toInt + k.k8.toInt

/-- R162: `c` is `ceil_sqrt(s)`, the smallest natural whose square is at least `s`. -/
def IsCeilSqrt (s c : Nat) : Prop := s ≤ c * c ∧ ∀ d, s ≤ d * d → c ≤ d

/-- The four image-producing commands (R26), with what their checks use: DstFoot, the planes, and the output's dimensions. -/
def imageForm (s : State) : Instr → Option (Bool × Bool × Nat × Nat)
  | .filter _ _ _ => some (true, false, (sourceOf s).w - 2, (sourceOf s).h - 2)
  | .filterMath => some (true, false, (sourceOf s).w - 2, (sourceOf s).h - 2)
  | .gradPlanes => some (false, true, (sourceOf s).w, (sourceOf s).h)
  | .filterSimd => some (true, true, (sourceOf s).w, (sourceOf s).h)
  | .nop => none
  | .gradient _ _ => none
  | .magnitude _ => none
  | .isqrtNewton => none
  | .isqrtBisect => none
  | .klookup _ => none

/-- KNIL as a command that ends without error leaves it (R45): only the commands that take a variant selector set it. -/
def nilForm : Instr → Bool
  | .gradient v _ => resolvesToNil v
  | .filter v _ _ => resolvesToNil v
  | .klookup v => resolvesToNil v
  | .nop => false
  | .magnitude _ => false
  | .filterMath => false
  | .gradPlanes => false
  | .filterSimd => false
  | .isqrtNewton => false
  | .isqrtBisect => false

/-! ### The invariant -/

/-- Every listed cell is at an address that exists (R48). -/
abbrev Memory.inSpace (cfg : Cfg) (m : Memory) : Prop := ∀ c ∈ m.cells, memValid cfg c.1 = true

/-- R26: what STATUS can hold. -/
def StatusLegal (w : Word) : Prop :=
  statusReserved w = 0 ∧ ¬ (statusDone w = true ∧ statusErr w = true) ∧
    (statusErr w = true → 1 ≤ (statusErrCode w).toNat ∧ (statusErrCode w).toNat ≤ 6 ∧ statusEmpty w = false ∧
      statusKnil w = false) ∧
    (statusErr w = false → statusErrCode w = 0) ∧ (statusEmpty w = true ∨ statusKnil w = true → statusDone w = true)

/-- R41: a readout register holds the sign extension of an 8-bit weight. -/
def IsWeight (w : Word) : Prop := ∃ b : BitVec 8, w = b.signExtend 32

/-- What every step keeps: image memory in canonical form and inside the bytes that exist, STATUS legal (R26), the result
registers within their bounds (R38, R40), the readout registers sign-extended weights (R41). -/
def Inv (s : State) : Prop :=
  s.mem.wf ∧ s.mem.inSpace s.cfg ∧ StatusLegal s.status ∧ s.resGx.toNat ≤ 293760 ∧ s.resGy.toNat ≤ 293760 ∧
    s.resSqrt.toNat ≤ 65535 ∧ (∀ k < 9, IsWeight (tapAt s.kx k)) ∧ ∀ k < 9, IsWeight (tapAt s.ky k)

/-! ### Runs -/

/-- `n` steps lead from `s` to `u`. -/
def stepsTo (n : Nat) (s u : State) : Prop :=
  match n with
  | 0 => s = u
  | k + 1 => ∃ t, step s = .next t ∧ stepsTo k t u

/-- The host's next action writes CMD. -/
def writesCommand (s : State) : Prop := ∃ c rest, s.host = .regWrite 0 4 c :: rest

/-- R258: a run in which no command ends with ERR = 1. A FAST GRADIENT that breaks R248 has no next state, so a run has none. -/
def cleanRun (n : Nat) (s u : State) : Prop :=
  match n with
  | 0 => s = u
  | k + 1 => ∃ t, step s = .next t ∧ (writesCommand s → statusErr t.status = false) ∧ cleanRun k t u

/-- The action is one that may clear ANYERR: a STATUS write with bit 8 set, or reset. -/
def mayClear : HostAction → Bool
  | .regWrite off size w => alignedWord off size && decide (regAt off.toNat = some .status) && statusAnyErr w
  | .regRead _ _ => false
  | .memWrite _ _ => false
  | .memRead _ => false
  | .reset => true

/-- The outcome with STATUS blanked: what a command does besides STATUS. -/
def eraseStatus (o : Host.Outcome State Fault Refusal) : Host.Outcome State Fault Refusal :=
  match o with
  | .next t => .next { t with status := 0 }
  | .fault f => .fault f
  | .refused r => .refused r

end Sys2Proof.Machine
end

