-- ==== Sys2Proof/Certificates/Slice0/Obligations.lean ====
section
/-! DEFINITION. The statements for the provers. Each docstring says which rule of spec/ the statement formalises. -/

open Sys2Proof Sys2Proof.Machine

/-! ### Encoding -/

/-- Table E2 and the examples of R101: one word or more of each of the ten commands, and the command it is. -/
def Obligations.DecodesTheOpcodeTable : Prop :=
  decode 0x00000000#32 = .ok .nop ∧
  decode 0x00000001#32 = .ok (.gradient .sobel .checked) ∧
  decode 0x000000F1#32 = .ok (.gradient (.unrecognised 7) .fast) ∧
  decode 0x00000202#32 = .ok (.magnitude .float) ∧
  decode 0x000001B3#32 = .ok (.filter .scharr .fast .bisect) ∧
  decode 0x000002F3#32 = .ok (.filter (.unrecognised 7) .fast .float) ∧
  decode 0x00000004#32 = .ok .filterMath ∧
  decode 0x00000005#32 = .ok .gradPlanes ∧
  decode 0x00000006#32 = .ok .filterSimd ∧
  decode 0x00000007#32 = .ok .isqrtNewton ∧
  decode 0x00000008#32 = .ok .isqrtBisect ∧
  decode 0x00000049#32 = .ok (.klookup .sharpen) ∧
  decode 0x00000079#32 = .ok (.klookup (.unrecognised 7))

/-- R93, R94, R105: the word of a well-formed command decodes to that command, with every selector value. -/
def Obligations.EncodeThenDecode : Prop := ∀ i : Instr, i.wf = true → decode (encode i) = .ok i

/-- R90, R105: no bit of a legal word is dropped: the command read from it is well formed and has that word only. -/
def Obligations.DecodeThenEncode : Prop := ∀ (c : Word) (i : Instr), decode c = .ok i → i.wf = true ∧ encode i = c

/-- R93: a word selects a command exactly when it matches the command's row of Table E2 under the row's mask and, where the
command uses MAG, MAG is not 3. -/
def Obligations.OpcodeMapSelects : Prop :=
  ∀ c : Word,
    (decode c = .ok .nop ↔ c &&& 0xFFFFFFFF#32 = 0x00000000#32) ∧
    ((∃ v k, decode c = .ok (.gradient v k)) ↔ c &&& 0xFFFFFF0F#32 = 0x00000001#32) ∧
    ((∃ m, decode c = .ok (.magnitude m)) ↔ c &&& 0xFFFFFCFF#32 = 0x00000002#32 ∧ c.extractLsb' 8 2 ≠ 3#2) ∧
    ((∃ v k m, decode c = .ok (.filter v k m)) ↔ c &&& 0xFFFFFC0F#32 = 0x00000003#32 ∧ c.extractLsb' 8 2 ≠ 3#2) ∧
    (decode c = .ok .filterMath ↔ c &&& 0xFFFFFFFF#32 = 0x00000004#32) ∧
    (decode c = .ok .gradPlanes ↔ c &&& 0xFFFFFFFF#32 = 0x00000005#32) ∧
    (decode c = .ok .filterSimd ↔ c &&& 0xFFFFFFFF#32 = 0x00000006#32) ∧
    (decode c = .ok .isqrtNewton ↔ c &&& 0xFFFFFFFF#32 = 0x00000007#32) ∧
    (decode c = .ok .isqrtBisect ↔ c &&& 0xFFFFFFFF#32 = 0x00000008#32) ∧
    ((∃ v, decode c = .ok (.klookup v)) ↔ c &&& 0xFFFFFF8F#32 = 0x00000009#32)

/-- R98, R211: the decoder refuses exactly the words of clauses (a) to (f); the other words are 81; writing an illegal word
stores it in CMD, records ErrIllegal (code 1) in STATUS and changes nothing else. -/
def Obligations.IllegalWordsTakeErrIllegal : Prop :=
  (∀ c : Word, (∃ r, decode c = .error r) ↔ IllegalWord c) ∧
  (∃ l : List Word, l.length = 81 ∧ l.Nodup ∧ ∀ c, c ∈ l ↔ ¬ IllegalWord c) ∧
  ∀ (s : State) (c : Word) (rest : List HostAction), IllegalWord c → s.host = .regWrite 0 4 c :: rest →
    step s = .next { s with host := rest, cmd := c, status := failWord 1 s.status }

/-- R102: each pseudo-command of the source is the one command the rule names (here by its word, R101). -/
def Obligations.PseudoCommandsExpand : Prop :=
  (∀ v : Variant, encode (expandPseudo (.filterGray v)) = 0x03#32 + 16#32 * (variantCode v).setWidth 32 ∧
    encode (expandPseudo (.filterGrayFast v)) = 0x83#32 + 16#32 * (variantCode v).setWidth 32 ∧
    encode (expandPseudo (.gradient v)) = 0x01#32 + 16#32 * (variantCode v).setWidth 32 ∧
    encode (expandPseudo (.kernelPairFor v)) = 0x09#32 + 16#32 * (variantCode v).setWidth 32) ∧
  (∀ m : Mag, encode (expandPseudo (.magnitude m)) = 0x02#32 + 256#32 * (magCode m).setWidth 32) ∧
  encode (expandPseudo .filterGrayMath) = 0x04#32 ∧ encode (expandPseudo .filterGraySimd) = 0x06#32 ∧
  encode (expandPseudo .intSqrtNewton) = 0x07#32 ∧ encode (expandPseudo .intSqrtBisect) = 0x08#32 ∧
  defaultMag = .newton

/-! ### The step -/

/-- R25: a host write of a word to CMD stores it and runs the command it encodes; a word that encodes none is stored too; a read
of CMD returns the stored word and executes nothing. The step is the whole command: `exec` of the decoded command, at the state
in which the write has been taken from the host's queue and CMD holds the word. -/
def Obligations.CmdWriteRunsTheDecodedCommand : Prop :=
  (∀ (s : State) (c : Word) (rest : List HostAction), s.host = .regWrite 0 4 c :: rest →
    (∀ i, decode c = .ok i → step s = exec i { s with host := rest, cmd := c }) ∧
    ∀ t, step s = .next t → readReg .cmd t = c) ∧
  (∀ (s : State) (rest : List HostAction), s.host = .regRead 0 4 :: rest →
    step s = .next { s with host := rest, hostRead := some s.cmd }) ∧
  readReg .cmd State.reset = 0

/-- The opcode table's words, delivered as the host delivers a command (log 2): the next step runs the command they decode to. -/
def Obligations.TableWordRunsNext : Prop :=
  ∀ (s : State) (nbits w : Nat) (i : Instr), decodeTableWord nbits w = some i →
    step (s.withFetchWord nbits w) = exec i { s with cmd := BitVec.ofNat 32 (w % 2 ^ nbits) }

/-- R230: between commands the engine is idle and holds its registers. The empty queue is the model's form of it (log 2). -/
def Obligations.IdleKeepsEverything : Prop := ∀ s : State, s.host = [] → step s = .next s

/-- R21, R257, R258: each line of a host program is one step, and it takes that line only; no step changes the configuration. -/
def Obligations.RunTakesOneLinePerStep : Prop :=
  ∀ (n : Nat) (s u : State), stepsTo n s u → n ≤ s.host.length → u.host = s.host.drop n ∧ u.cfg = s.cfg

/-- R246, R257: a step has a next state, but for the one undefined command (R137, R248) and the two kinds of access the host may
not make (a byte that does not exist, R48; a register access that is not an aligned 32-bit one, R23), which stop by name. -/
def Obligations.StopsOnlyWhereNamed : Prop :=
  ∀ s : State,
    (∃ t, step s = .next t) ∨
    (step s = .fault .fastGradientOutOfRange ∧ ∃ c rest v k, s.host = .regWrite 0 4 c :: rest ∧
      decode c = .ok (.gradient v k) ∧ (k = .fast ∨ v = .sobelFast) ∧ ¬ Interior s s.opX.toNat s.opY.toNat) ∨
    (step s = .fault .hostByteAbsent ∧ ∃ a rest, memValid s.cfg a = false ∧
      (s.host = .memRead a :: rest ∨ ∃ v, s.host = .memWrite a v :: rest)) ∨
    (step s = .refused .registerAccessNotAlignedWord ∧ ∃ (off : BitVec 8) (size : Nat) (rest : List HostAction),
      (size ≠ 4 ∨ off.toNat % 4 ≠ 0) ∧ (s.host = .regRead off size :: rest ∨ ∃ w, s.host = .regWrite off size w :: rest))

/-! ### The register block, reset, image memory -/

/-- Table S1, whole: the offset, the access kind, the bits used and the reset value of each of the 39 registers, and the offsets
that are not listed; offsets and registers correspond one to one; and the piece of the state a read of each register returns. -/
def Obligations.RegisterMapIsTableS1 : Prop :=
  (∀ r : Reg, regAt (regOffset r) = some r) ∧
  (∀ (off : Nat) (r : Reg), off % 4 = 0 → regAt off = some r → regOffset r = off) ∧
  (∃ l : List Reg, l.length = 39 ∧ l.Nodup ∧ ∀ r, r ∈ l) ∧
  (∀ row ∈ ([(.cmd, 0x00, .rw, 0xFFFFFFFF#32), (.status, 0x04, .w1c, 0x1FF#32), (.srcBase, 0x08, .rw, 0xFFFFFFFF#32),
      (.srcW, 0x0C, .rw, 0xFFFF#32), (.srcH, 0x10, .rw, 0xFFFF#32), (.srcStride, 0x14, .rw, 0xFFFF#32),
      (.dstBase, 0x18, .rw, 0xFFFFFFFF#32), (.dstStride, 0x1C, .rw, 0xFFFF#32), (.dstW, 0x20, .ro, 0xFFFF#32),
      (.dstH, 0x24, .ro, 0xFFFF#32)] ++
      [(.gxBase, 0x28, .rw, 0xFFFFFFFF#32), (.gyBase, 0x2C, .rw, 0xFFFFFFFF#32), (.opX, 0x30, .rw, 0xFFFF#32),
      (.opY, 0x34, .rw, 0xFFFF#32), (.opGx, 0x38, .rw, 0xFFFFFFFF#32), (.opGy, 0x3C, .rw, 0xFFFFFFFF#32),
      (.opN, 0x40, .rw, 0xFFFFFFFF#32), (.resGx, 0x44, .ro, 0xFFFFFFFF#32), (.resGy, 0x48, .ro, 0xFFFFFFFF#32),
      (.resMag, 0x4C, .ro, 0xFF#32), (.resSqrt, 0x50, .ro, 0xFFFFFFFF#32)] : List (Reg × Nat × Access × Word)),
    regOffset row.1 = row.2.1 ∧ accessOf row.1 = row.2.2.1 ∧ fieldMask row.1 = row.2.2.2) ∧
  (∀ k : Fin 9, regOffset (.kx k) = 0x60 + 4 * k.val ∧ regOffset (.ky k) = 0x84 + 4 * k.val ∧
    accessOf (.kx k) = .ro ∧ accessOf (.ky k) = .ro ∧ fieldMask (.kx k) = 0xFFFFFFFF#32 ∧ fieldMask (.ky k) = 0xFFFFFFFF#32) ∧
  (∀ off, off % 4 = 0 → off < 256 → (regAt off = none ↔ (0x54 ≤ off ∧ off ≤ 0x5C) ∨ 0xA8 ≤ off)) ∧
  (∀ r : Reg, readReg r State.reset = 0) ∧
  ∀ s : State,
    readReg .cmd s = s.cmd ∧ readReg .status s = s.status ∧ readReg .srcBase s = s.srcBase ∧
    readReg .srcW s = s.srcW.setWidth 32 ∧ readReg .srcH s = s.srcH.setWidth 32 ∧
    readReg .srcStride s = s.srcStride.setWidth 32 ∧ readReg .dstBase s = s.dstBase ∧
    readReg .dstStride s = s.dstStride.setWidth 32 ∧ readReg .dstW s = s.dstW.setWidth 32 ∧
    readReg .dstH s = s.dstH.setWidth 32 ∧ readReg .gxBase s = s.gxBase ∧ readReg .gyBase s = s.gyBase ∧
    readReg .opX s = s.opX.setWidth 32 ∧ readReg .opY s = s.opY.setWidth 32 ∧ readReg .opGx s = s.opGx ∧
    readReg .opGy s = s.opGy ∧ readReg .opN s = s.opN ∧ readReg .resGx s = s.resGx ∧ readReg .resGy s = s.resGy ∧
    readReg .resMag s = s.resMag.setWidth 32 ∧ readReg .resSqrt s = s.resSqrt ∧
    ∀ k : Fin 9, readReg (.kx k) s = tapAt s.kx k.val ∧ readReg (.ky k) s = tapAt s.ky k.val

/-- R24: the access kinds. A read returns the register and has no side effect; a listed register takes a write as its kind says
and no other register changes; an unlisted offset reads 0 and ignores a write; the bits a field lacks read 0; only a command or
reset changes an RO register. -/
def Obligations.RegisterAccessKinds : Prop :=
  (∀ (s : State) (r : Reg) (rest : List HostAction), s.host = .regRead (BitVec.ofNat 8 (regOffset r)) 4 :: rest →
    step s = .next { s with host := rest, hostRead := some (readReg r s) }) ∧
  (∀ (s : State) (off : BitVec 8) (rest : List HostAction), off.toNat % 4 = 0 → (∀ r, regOffset r ≠ off.toNat) →
    (s.host = .regRead off 4 :: rest → step s = .next { s with host := rest, hostRead := some 0 }) ∧
    ∀ w, s.host = .regWrite off 4 w :: rest → step s = .next { s with host := rest }) ∧
  (∀ (s : State) (r : Reg) (w : Word) (rest : List HostAction), r ≠ .cmd →
    s.host = .regWrite (BitVec.ofNat 8 (regOffset r)) 4 w :: rest →
    ∃ u, step s = .next u ∧
      readReg r u = (match accessOf r with
        | .rw => w &&& fieldMask r
        | .ro => readReg r s
        | .w1c => if w.getLsbD 8 then readReg r s &&& 0xFFFFFEFF#32 else readReg r s) ∧
      (∀ q, q ≠ r → readReg q u = readReg q s) ∧
      u.mem = s.mem ∧ u.cfg = s.cfg ∧ u.host = rest ∧ u.hostRead = s.hostRead ∧ u.freeCount = s.freeCount) ∧
  (∀ (s : State) (w : Word) (rest : List HostAction) (u : State), s.host = .regWrite 0 4 w :: rest → step s = .next u →
    readReg .cmd u = w) ∧
  (∀ (s : State) (r : Reg), accessOf r ≠ .w1c → readReg r s &&& fieldMask r = readReg r s) ∧
  ∀ (s : State) (a : HostAction) (rest : List HostAction) (u : State) (r : Reg), s.host = a :: rest → a ≠ .reset →
    (∀ c, a ≠ .regWrite 0 4 c) → step s = .next u → accessOf r = .ro → readReg r u = readReg r s

/-- R23: the block is 256 bytes at a multiple of 256; an access that is narrower or wider than 32 bits or not aligned is refused,
and has no next state. The refusal's name is the model's (log 4), the place of the block a parameter (log 3). -/
def Obligations.OtherRegisterAccessIsRefused : Prop :=
  (∀ cfg : Cfg, regBase cfg % 256 = 0 ∧ (∀ off : BitVec 8, regOffsetOf cfg (regBase cfg + off.toNat) = some off) ∧
    ∀ a, a < regBase cfg ∨ regBase cfg + 256 ≤ a → regOffsetOf cfg a = none) ∧
  ∀ (s : State) (off : BitVec 8) (size : Nat) (w : Word) (rest : List HostAction), size ≠ 4 ∨ off.toNat % 4 ≠ 0 →
    (s.host = .regWrite off size w :: rest → step s = .refused .registerAccessNotAlignedWord) ∧
    (s.host = .regRead off size :: rest → step s = .refused .registerAccessNotAlignedWord)

/-- R46, R240: after reset every register of Table S1 holds 0, and reset changes neither image memory nor the kernel ROM. -/
def Obligations.ResetClearsEveryRegister : Prop :=
  (∀ r : Reg, readReg r State.reset = 0) ∧
  ∀ (s : State) (rest : List HostAction), s.host = .reset :: rest →
    ∃ u, step s = .next u ∧ (∀ r, readReg r u = 0) ∧ u.mem = s.mem ∧ u.cfg = s.cfg ∧ u.host = rest

/-- R244: straight after reset (every register 0, any memory and configuration) each command is defined, as the rule lists. That
the undefined FAST GRADIENT stops by name is the model's choice (log 5). -/
def Obligations.EveryCommandAfterReset : Prop :=
  ∀ s : State, (∀ r, readReg r s = 0) →
    exec .nop s = .next { s with status := 1 } ∧
    (∀ i d p ow oh, imageForm s i = some (d, p, ow, oh) →
      exec i s = .next { s with status := if nilForm i then 13 else 5 }) ∧
    (∀ m, exec (.magnitude m) s = .next { s with status := 1, resMag := if s.cfg.roundPolicy = .ceil then 0 else 1 }) ∧
    exec .isqrtNewton s = .next { s with status := 1 } ∧ exec .isqrtBisect s = .next { s with status := 1 } ∧
    (∀ v, ∃ t, exec (.klookup v) s = .next t ∧ statusDone t.status = true) ∧
    (∀ v, v ≠ .sobelFast → exec (.gradient v .checked) s = .next { s with status := 0x152 }) ∧
    ∀ v, exec (.gradient v .fast) s = .fault .fastGradientOutOfRange

/-- R48: the host reads and writes any valid byte, and no other changes; a command writes bytes of its write footprints only, and
never one of its source image. -/
def Obligations.MemoryAsState : Prop :=
  (∀ (s : State) (a : Nat) (v : Byte) (rest : List HostAction), memValid s.cfg a = true → s.host = .memWrite a v :: rest →
    ∃ m, step s = .next { s with host := rest, mem := m } ∧ m.read a = v ∧ ∀ b, b ≠ a → m.read b = s.mem.read b) ∧
  (∀ (s : State) (a : Nat) (rest : List HostAction), memValid s.cfg a = true → s.host = .memRead a :: rest →
    step s = .next { s with host := rest, hostRead := some ((s.mem.read a).setWidth 32) }) ∧
  ∀ (s : State) (i : Instr) (t : State), exec i s = .next t →
    (∀ a, (∀ d p ow oh r, imageForm s i = some (d, p, ow, oh) → r ∈ writeFoot s d p ow oh → ¬ InRect r a) →
      t.mem.read a = s.mem.read a) ∧
    ∀ a, InRect (srcRect (sourceOf s)) a → t.mem.read a = s.mem.read a

/-- The host may reach valid bytes only (R48, R246): any other access stops by name, the model's choice (log 16). -/
def Obligations.AbsentByteStopsTheHost : Prop :=
  ∀ (s : State) (a : Nat) (v : Byte) (rest : List HostAction), memValid s.cfg a = false →
    (s.host = .memWrite a v :: rest → step s = .fault .hostByteAbsent) ∧
    (s.host = .memRead a :: rest → step s = .fault .hostByteAbsent)

/-- R63, R64: the engine's access primitives: values, byte order, the bytes that change, and when they raise ErrBus. -/
def Obligations.AccessPrimitives : Prop :=
  (∀ (cfg : Cfg) (m : Memory) (a : Nat),
    (memValid cfg a = true → memRead cfg m a .byte = .ok (m.read a).toNat) ∧
    (memValid cfg a = false → memRead cfg m a .byte = .error .bus) ∧
    (memValid cfg a = true → memValid cfg (a + 1) = true →
      memRead cfg m a .half = .ok ((m.read a).toNat + 256 * (m.read (a + 1)).toNat)) ∧
    (memValid cfg a = false ∨ memValid cfg (a + 1) = false → memRead cfg m a .half = .error .bus)) ∧
  ∀ (cfg : Cfg) (m : Memory) (a v : Nat),
    (memValid cfg a = true → ∃ m', memWrite cfg m a .byte v = .ok m' ∧ (m'.read a).toNat = v % 256 ∧
      ∀ b, b ≠ a → m'.read b = m.read b) ∧
    (memValid cfg a = false → memWrite cfg m a .byte v = .error .bus) ∧
    (memValid cfg a = true → memValid cfg (a + 1) = true → ∃ m', memWrite cfg m a .half v = .ok m' ∧
      (m'.read a).toNat = v % 256 ∧ (m'.read (a + 1)).toNat = v / 256 % 256 ∧
      ∀ b, b ≠ a → b ≠ a + 1 → m'.read b = m.read b) ∧
    (memValid cfg a = false ∨ memValid cfg (a + 1) = false → memWrite cfg m a .half v = .error .bus)

/-! ### Control and the kernel bank -/

/-- R121: NOP. STATUS[7:0] becomes 0x01, ANYERR stays, nothing else changes; any other word with OPC = 0 is illegal. -/
def Obligations.NopCommand : Prop :=
  encode .nop = 0 ∧
  (∀ c : Word, c.extractLsb' 0 4 = 0 → c ≠ 0 → ∃ r, decode c = .error r) ∧
  ∀ s : State, exec .nop s = .next { s with status := s.status &&& 0xFFFFFF00#32 ||| 0x01#32 }

/-- R124: KLOOKUP reads the pair of its variant out into KX, KY, sign-extended, and touches nothing else. -/
def Obligations.KlookupCommand : Prop :=
  (∀ v : Variant, encode (.klookup v) = 0x09#32 + 16#32 * (variantCode v).setWidth 32) ∧
  (∀ (s : State) (v : Variant), ∃ a b, exec (.klookup v) s =
      .next { s with kx := a, ky := b, status := doneWord false (resolvesToNil v) s.status } ∧
    ∀ k < 9, tapAt a k = (tapAt (kernelPairFor s.cfg v).kx k).signExtend 32 ∧
      tapAt b k = (tapAt (kernelPairFor s.cfg v).ky k).signExtend 32) ∧
  (∀ s : State, exec (.klookup .sobelFast) s = exec (.klookup .sobel) s) ∧
  ∀ (s : State) (code : BitVec 3), exec (.klookup (.unrecognised code)) s =
    .next { s with kx := zeroTaps, ky := zeroTaps, status := doneWord false true s.status }

/-- The Sobel and Scharr weights as KLOOKUP reads them out. The weights are PRESUMED: the spec takes them from general knowledge
(R123, G1, G2; log 8). -/
def Obligations.SobelAndScharrWeights : Prop :=
  ∀ s : State,
    exec (.klookup .sobel) s = .next { s with
      kx := ⟨0xFFFFFFFF, 0, 1, 0xFFFFFFFE, 0, 2, 0xFFFFFFFF, 0, 1⟩
      ky := ⟨0xFFFFFFFF, 0xFFFFFFFE, 0xFFFFFFFF, 0, 0, 0, 1, 2, 1⟩
      status := doneWord false false s.status } ∧
    exec (.klookup .scharr) s = .next { s with
      kx := ⟨0xFFFFFFFD, 0, 3, 0xFFFFFFF6, 0, 10, 0xFFFFFFFD, 0, 3⟩
      ky := ⟨0xFFFFFFFD, 0xFFFFFFF6, 0xFFFFFFFD, 0, 0, 0, 3, 10, 3⟩
      status := doneWord false false s.status }

/-- R125: the nil pair of an unrecognised variant. The gradient is (0, 0) at every pixel; the commands that resolve to it end
with DONE and KNIL; a filtered image has its full size and every sample is the magnitude of (0, 0), 0 under CEIL. -/
def Obligations.NilPairGivesZeroGradient : Prop :=
  (∀ (s : State) (code : BitVec 3) (k : Conv), ¬ GradientConfigBad s → Interior s s.opX.toNat s.opY.toNat →
    NineExist s s.opX.toNat s.opY.toNat → exec (.gradient (.unrecognised code) k) s =
      .next { s with resGx := 0, resGy := 0, status := doneWord false true s.status }) ∧
  (∀ (s : State) (code : BitVec 3) (k : Conv) (m : Mag), 3 ≤ (sourceOf s).w → 3 ≤ (sourceOf s).h →
    ChecksPass s true false ((sourceOf s).w - 2) ((sourceOf s).h - 2) →
    ∃ t, exec (.filter (.unrecognised code) k m) s = .next t ∧ t.status = doneWord false true s.status ∧
      t.dstW.toNat = (sourceOf s).w - 2 ∧ t.dstH.toNat = (sourceOf s).h - 2 ∧
      ∀ x y, x < (sourceOf s).w - 2 → y < (sourceOf s).h - 2 →
        t.mem.read (dstAddr s.dstBase.toNat (dstStrideOf s ((sourceOf s).w - 2)) x y) =
          BitVec.ofNat 8 (magnitude s.cfg.roundPolicy m 0 0)) ∧
  (∀ (s : State) (code : BitVec 3), exec (.klookup (.unrecognised code)) s =
    .next { s with kx := zeroTaps, ky := zeroTaps, status := doneWord false true s.status }) ∧
  ∀ m, magnitude .ceil m 0 0 = 0

/-- R126, R42: no step and no command changes a kernel pair, reset included, and the bank answers from reset. -/
def Obligations.KernelBankIsConstant : Prop :=
  (∀ (s t : State) (v : Variant), step s = .next t → kernelPairFor t.cfg v = kernelPairFor s.cfg v) ∧
  (∀ (s t : State) (i : Instr) (v : Variant), exec i s = .next t → kernelPairFor t.cfg v = kernelPairFor s.cfg v) ∧
  ∃ t, step (State.reset.withFetchWord 32 0x09) = .next t ∧ t.kx = readout (kernelPairFor State.reset.cfg .sobel).kx ∧
    t.ky = readout (kernelPairFor State.reset.cfg .sobel).ky

/-! ### The magnitude estimator -/

/-- R175, R166: ISQRT_NEWTON is 0x00000007; it puts the floor square root of OP_N in RES_SQRT. -/
def Obligations.IsqrtNewtonCommand : Prop :=
  encode .isqrtNewton = 0x07#32 ∧
  ∀ s : State, ∃ r : Nat, r * r ≤ s.opN.toNat ∧ s.opN.toNat < (r + 1) * (r + 1) ∧
    exec .isqrtNewton s = .next { s with resSqrt := BitVec.ofNat 32 r, status := doneWord false false s.status }

/-- R176, R169: ISQRT_BISECT is 0x00000008; it puts the floor square root of OP_N in RES_SQRT. -/
def Obligations.IsqrtBisectCommand : Prop :=
  encode .isqrtBisect = 0x08#32 ∧
  ∀ s : State, ∃ r : Nat, r * r ≤ s.opN.toNat ∧ s.opN.toNat < (r + 1) * (r + 1) ∧
    exec .isqrtBisect s = .next { s with resSqrt := BitVec.ofNat 32 r, status := doneWord false false s.status }

/-- R174, R163: MAGNITUDE puts `MagOf(OP_GX² + OP_GY²)` in RES_MAG, whatever the strategy, on all 32-bit operands: under CEIL
the ceiling of the root, under PLUS_ONE the floor plus one, each clamped to 255. -/
def Obligations.MagnitudeCommand : Prop :=
  (∀ m : Mag, encode (.magnitude m) = 0x02#32 + 256#32 * (magCode m).setWidth 32) ∧
  ∀ (s : State) (m : Mag), ∃ c : Nat,
    exec (.magnitude m) s =
      .next { s with resMag := BitVec.ofNat 8 (min c 255), status := doneWord false false s.status } ∧
    (s.cfg.roundPolicy = .ceil → IsCeilSqrt (s.opGx.toNat * s.opGx.toNat + s.opGy.toNat * s.opGy.toNat) c) ∧
    (s.cfg.roundPolicy = .plusOne →
      c = Nat.sqrt (s.opGx.toNat * s.opGx.toNat + s.opGy.toNat * s.opGy.toNat) + 1)

/-- R164: where the clamp binds, under either policy, for every strategy. -/
def Obligations.ClampThreshold : Prop :=
  (∀ v, clamp255 v = min v 255) ∧
  ∀ (m : Mag) (gx gy : Nat), gx < 2 ^ 32 → gy < 2 ^ 32 →
    (magnitude .ceil m gx gy = 255 ↔ 64516 < gx * gx + gy * gy) ∧
    (gx * gx + gy * gy ≤ 64516 → IsCeilSqrt (gx * gx + gy * gy) (magnitude .ceil m gx gy) ∧ magnitude .ceil m gx gy ≤ 254) ∧
    (magnitude .plusOne m gx gy = 255 ↔ 64516 ≤ gx * gx + gy * gy) ∧
    (65025 ≤ gx * gx + gy * gy → ∀ policy, magnitude policy m gx gy = 255)

/-- R173: the three strategies agree exactly, for all operands; so MAG changes neither MAGNITUDE nor FILTER, and the two root
commands are the same. After ErrBus the rule does not fix the bytes of DstFoot (R220, U3): that a FILTER leaves the same ones for
every MAG there is the model's choice, whose free bytes depend on the address and `freeCount` alone (log 6). -/
def Obligations.StrategiesAgree : Prop :=
  (∀ (policy : RoundPolicy) (m : Mag) (gx gy : Nat), gx < 2 ^ 32 → gy < 2 ^ 32 →
    magnitude policy m gx gy = magOf policy (gx * gx + gy * gy)) ∧
  (∀ (s : State) (m n : Mag), exec (.magnitude m) s = exec (.magnitude n) s) ∧
  (∀ (s : State) (v : Variant) (k : Conv) (m n : Mag), exec (.filter v k m) s = exec (.filter v k n) s) ∧
  ∀ s : State, exec .isqrtNewton s = exec .isqrtBisect s

/-- R177: the reference values of the magnitude, for every strategy: gradient, sum of squares, result under CEIL, result under
PLUS_ONE; and where the two policies differ. -/
def Obligations.ReferenceMagnitudes : Prop :=
  (∀ m ∈ [Mag.newton, .bisect, .float], ∀ row ∈ ([(0, 0, 0, 0, 1), (1, 0, 1, 1, 2), (1, 1, 2, 2, 2), (0, 2, 4, 2, 3),
      (2, 2, 8, 3, 3), (3, 4, 25, 5, 6), (5, 12, 169, 13, 14), (10, 10, 200, 15, 15), (7, 24, 625, 25, 26)] ++
      [(100, 0, 10000, 100, 101), (179, 180, 64441, 254, 254), (0, 254, 64516, 254, 255), (254, 1, 64517, 255, 255),
      (180, 180, 64800, 255, 255), (0, 255, 65025, 255, 255), (0, 1020, 1040400, 255, 255),
      (65536, 0, 4294967296, 255, 255), (4294967295, 4294967295, 36893488130239234050, 255, 255)] :
      List (Nat × Nat × Nat × Nat × Nat)),
    row.1 * row.1 + row.2.1 * row.2.1 = row.2.2.1 ∧ magnitude .ceil m row.1 row.2.1 = row.2.2.2.1 ∧
      magnitude .plusOne m row.1 row.2.1 = row.2.2.2.2) ∧
  ∀ s : Nat, magOf .ceil s ≠ magOf .plusOne s ↔ s < 64517 ∧ ∃ r, r * r = s

/-! ### The gradient of a pixel -/

/-- R136, R215: GRADIENT. The tests in their order, each with its outcome; an interior centre whose nine bytes exist gives
`(|Gx|, |Gy|)` (R133). The FAST path with a centre that is not interior is undefined (R137): FastGradientOutsideStops. -/
def Obligations.GradientCommand : Prop :=
  (∀ (v : Variant) (k : Conv), encode (.gradient v k) =
    0x01#32 + 16#32 * (variantCode v).setWidth 32 + 128#32 * (convCode k).setWidth 32) ∧
  ∀ (s : State) (v : Variant) (k : Conv),
    (GradientConfigBad s → exec (.gradient v k) s = .next { s with status := failWord 2 s.status }) ∧
    (¬ GradientConfigBad s → ¬ Interior s s.opX.toNat s.opY.toNat → ¬ (k = .fast ∨ v = .sobelFast) →
      exec (.gradient v k) s = .next { s with status := failWord 5 s.status }) ∧
    (¬ GradientConfigBad s → Interior s s.opX.toNat s.opY.toNat → ¬ NineExist s s.opX.toNat s.opY.toNat →
      exec (.gradient v k) s = .next { s with status := failWord 6 s.status }) ∧
    (¬ GradientConfigBad s → Interior s s.opX.toNat s.opY.toNat → NineExist s s.opX.toNat s.opY.toNat →
      exec (.gradient v k) s = .next { s with
        resGx := BitVec.ofNat 32 (weightedSum (kernelPairFor s.cfg v).kx (window s s.opX.toNat s.opY.toNat)).natAbs
        resGy := BitVec.ofNat 32 (weightedSum (kernelPairFor s.cfg v).ky (window s s.opX.toNat s.opY.toNat)).natAbs
        status := doneWord false (resolvesToNil v) s.status })

/-- The FAST path with a centre that is not interior: the spec gives it no effect (R137, R248, U1), and the model stops by name
there and only there. The stop is the model's choice (log 5). -/
def Obligations.FastGradientOutsideStops : Prop :=
  ∀ (s : State) (i : Instr) (f : Fault),
    exec i s = .fault f ↔
      f = .fastGradientOutOfRange ∧ ∃ v k, i = .gradient v k ∧ (k = .fast ∨ v = .sobelFast) ∧ ¬ GradientConfigBad s ∧
        ¬ Interior s s.opX.toNat s.opY.toNat

/-- R134: what a GRADIENT leaves in RES_GX, RES_GY is at most 293 760 for any pair, 1020 for Sobel and 4080 for Scharr; the last
two rest on the PRESUMED weights (log 8). -/
def Obligations.GradientWidths : Prop :=
  ∀ (s t : State) (v : Variant) (k : Conv), exec (.gradient v k) s = .next t → statusDone t.status = true →
    t.resGx.toNat ≤ 293760 ∧ t.resGy.toNat ≤ 293760 ∧
    (v = .sobel ∨ v = .sobelFast → t.resGx.toNat ≤ 1020 ∧ t.resGy.toNat ≤ 1020) ∧
    (v = .scharr → t.resGx.toNat ≤ 4080 ∧ t.resGy.toNat ≤ 4080)

/-- R135: the two indexing strategies agree at every interior pixel, SobelFast with Sobel too; at a centre that is not interior
CHECKED reports ErrRange (FAST is undefined there: FastGradientOutsideStops). -/
def Obligations.IndexingStrategiesAgree : Prop :=
  (∀ (s : State) (v : Variant), Interior s s.opX.toNat s.opY.toNat →
    exec (.gradient v .checked) s = exec (.gradient v .fast) s) ∧
  (∀ (s : State) (j k : Conv), Interior s s.opX.toNat s.opY.toNat →
    exec (.gradient .sobel j) s = exec (.gradient .sobelFast k) s) ∧
  ∀ (s : State) (v : Variant), v ≠ .sobelFast → ¬ GradientConfigBad s → ¬ Interior s s.opX.toNat s.opY.toNat →
    exec (.gradient v .checked) s = .next { s with status := failWord 5 s.status }

/-! ### The image-producing commands -/

/-- R139 (with R212 to R214, R216, R219): the checks of an image-producing command and their order; each failure's outcome; and
that a command which passes them ends without error. -/
def Obligations.ImageChecksInOrder : Prop :=
  ∀ (s : State) (i : Instr) (d p : Bool) (ow oh : Nat), imageForm s i = some (d, p, ow, oh) →
    3 ≤ (sourceOf s).w → 3 ≤ (sourceOf s).h →
    (ConfigBad s d p ow oh → exec i s = .next { s with dstW := 0, dstH := 0, status := failWord 2 s.status }) ∧
    (¬ ConfigBad s d p ow oh → AlignBad s p →
      exec i s = .next { s with dstW := 0, dstH := 0, status := failWord 3 s.status }) ∧
    (¬ ConfigBad s d p ow oh → ¬ AlignBad s p → OverlapBad s d p ow oh →
      exec i s = .next { s with dstW := 0, dstH := 0, status := failWord 4 s.status }) ∧
    (¬ ConfigBad s d p ow oh → ¬ AlignBad s p → ¬ OverlapBad s d p ow oh → BusBad s d p ow oh →
      ∃ m n, exec i s = .next { s with
        mem := m, dstW := 0, dstH := 0, status := failWord 6 s.status, freeCount := n }) ∧
    (ChecksPass s d p ow oh → ∃ m, exec i s = .next { s with
      mem := m, dstW := BitVec.ofNat 16 ow, dstH := BitVec.ofNat 16 oh, status := doneWord false (nilForm i) s.status })

/-- R138: the output is W−2 by H−2 for FILTER and FILTER_MATH when W, H ≥ 3; with W < 3 or H < 3 each image-producing command
ends at once with DONE and EMPTY, DST_W = DST_H = 0, whatever the other registers hold, and touches no memory. -/
def Obligations.UndersizedGivesEmptyOutput : Prop :=
  (∀ (s : State) (i : Instr) (d p : Bool) (ow oh : Nat), imageForm s i = some (d, p, ow, oh) →
    (sourceOf s).w < 3 ∨ (sourceOf s).h < 3 →
    exec i s = .next { s with dstW := 0, dstH := 0, status := doneWord true (nilForm i) s.status }) ∧
  ∀ (s t : State) (i : Instr), (i = .filterMath ∨ ∃ v k m, i = .filter v k m) → 3 ≤ (sourceOf s).w → 3 ≤ (sourceOf s).h →
    exec i s = .next t → statusDone t.status = true →
    t.dstW.toNat = (sourceOf s).w - 2 ∧ t.dstH.toNat = (sourceOf s).h - 2

/-- R33: DST_W and DST_H after any command, at reset, and under a host write, which is ignored. -/
def Obligations.PublishedDimensions : Prop :=
  (∀ (s t : State) (i : Instr), exec i s = .next t →
    (imageForm s i = none → t.dstW = s.dstW ∧ t.dstH = s.dstH) ∧
    ∀ d p ow oh, imageForm s i = some (d, p, ow, oh) →
      (statusErr t.status = true → t.dstW = 0 ∧ t.dstH = 0) ∧
      (statusErr t.status = false → (sourceOf s).w < 3 ∨ (sourceOf s).h < 3 → t.dstW = 0 ∧ t.dstH = 0) ∧
      (statusErr t.status = false → 3 ≤ (sourceOf s).w → 3 ≤ (sourceOf s).h → t.dstW.toNat = ow ∧ t.dstH.toNat = oh)) ∧
  (∀ (s : State) (v : Variant) (k : Conv) (m : Mag),
    imageForm s (.filter v k m) = some (true, false, s.srcW.toNat - 2, s.srcH.toNat - 2)) ∧
  (∀ s : State, imageForm s .filterMath = some (true, false, s.srcW.toNat - 2, s.srcH.toNat - 2) ∧
    imageForm s .gradPlanes = some (false, true, s.srcW.toNat, s.srcH.toNat) ∧
    imageForm s .filterSimd = some (true, true, s.srcW.toNat, s.srcH.toNat)) ∧
  (∀ (s t : State) (c : Word) (rest : List HostAction) (r : Reject), s.host = .regWrite 0 4 c :: rest → decode c = .error r →
    step s = .next t → t.dstW = s.dstW ∧ t.dstH = s.dstH) ∧
  readReg .dstW State.reset = 0 ∧ readReg .dstH State.reset = 0 ∧
  ∀ (s : State) (off : BitVec 8) (w : Word) (rest : List HostAction), off = 0x20 ∨ off = 0x24 →
    s.host = .regWrite off 4 w :: rest → step s = .next { s with host := rest }

/-- R140, R141: the driving loop, and the DST_W, DST_H and STATUS a FILTER that passes its checks leaves. A FILTER that passes its checks ends without error; the sample of every interior pixel `(x, y)` is
`Magnitude(Gradient(x, y))`, stored at offset `(x−1, y−1)` of the output; no byte outside DstFoot changes. -/
def Obligations.FilterWritesEverySample : Prop :=
  ∀ (s : State) (v : Variant) (k : Conv) (m : Mag), 3 ≤ (sourceOf s).w → 3 ≤ (sourceOf s).h →
    ChecksPass s true false ((sourceOf s).w - 2) ((sourceOf s).h - 2) →
    ∃ M, exec (.filter v k m) s = .next { s with
        mem := M
        dstW := BitVec.ofNat 16 ((sourceOf s).w - 2)
        dstH := BitVec.ofNat 16 ((sourceOf s).h - 2)
        status := doneWord false (resolvesToNil v) s.status } ∧
      (∀ x y, Interior s x y →
        M.read (dstAddr s.dstBase.toNat (dstStrideOf s ((sourceOf s).w - 2)) (x - 1) (y - 1)) =
          BitVec.ofNat 8 (magnitude s.cfg.roundPolicy m (gradX s v x y) (gradY s v x y))) ∧
      ∀ a, ¬ InRect (dstRect s ((sourceOf s).w - 2) ((sourceOf s).h - 2)) a → M.read a = s.mem.read a

/-- R142: FILTER_MATH, through binary64, ends without error when its checks pass; every sample is the Sobel intensity, and no
byte outside DstFoot changes. -/
def Obligations.FilterMathWritesEverySample : Prop :=
  ∀ s : State, 3 ≤ (sourceOf s).w → 3 ≤ (sourceOf s).h →
    ChecksPass s true false ((sourceOf s).w - 2) ((sourceOf s).h - 2) →
    ∃ M, exec .filterMath s = .next { s with
        mem := M
        dstW := BitVec.ofNat 16 ((sourceOf s).w - 2)
        dstH := BitVec.ofNat 16 ((sourceOf s).h - 2)
        status := doneWord false false s.status } ∧
      (∀ x y, Interior s x y →
        M.read (dstAddr s.dstBase.toNat (dstStrideOf s ((sourceOf s).w - 2)) (x - 1) (y - 1)) =
          BitVec.ofNat 8 (sampleAt s .sobel x y)) ∧
      ∀ a, ¬ InRect (dstRect s ((sourceOf s).w - 2) ((sourceOf s).h - 2)) a → M.read a = s.mem.read a

/-- R142: FILTER_MATH is FILTER with the Sobel pair and the FLOAT strategy, from every state. After ErrBus the rule does not fix
the bytes of DstFoot (R220, U3): that both commands leave the same ones there is the model's choice, whose free bytes depend on the
address and `freeCount` alone (log 6). -/
def Obligations.FilterMathIsFilterFloat : Prop :=
  ∀ s : State, exec .filterMath s = exec (.filter .sobel .checked .float) s

/-- R144: CHECKED and FAST give the same state from every state, and so do SOBEL and SOBELFAST. -/
def Obligations.CheckedEqualsFast : Prop :=
  (∀ (s : State) (v : Variant) (m : Mag), exec (.filter v .checked m) s = exec (.filter v .fast m) s) ∧
  ∀ (s : State) (k : Conv) (m : Mag), exec (.filter .sobel k m) s = exec (.filter .sobelFast k m) s

/-- R191, R192: GRAD_PLANES that passes its checks ends without error; every sample of both planes holds its value, the gradient
inside and 0 at the border; no byte outside the planes changes. -/
def Obligations.GradPlanesWritesBothPlanes : Prop :=
  ∀ s : State, 3 ≤ (sourceOf s).w → 3 ≤ (sourceOf s).h → ChecksPass s false true (sourceOf s).w (sourceOf s).h →
    ∃ M, exec .gradPlanes s = .next { s with
        mem := M, dstW := s.srcW, dstH := s.srcH, status := doneWord false false s.status } ∧
      (∀ x y, Interior s x y →
        readHalf M (planeAddr s.gxBase.toNat (sourceOf s) x y) = min (gradX s .sobel x y) 65535 ∧
        readHalf M (planeAddr s.gyBase.toNat (sourceOf s) x y) = min (gradY s .sobel x y) 65535) ∧
      (∀ x y, x < (sourceOf s).w → y < (sourceOf s).h → ¬ Interior s x y →
        readHalf M (planeAddr s.gxBase.toNat (sourceOf s) x y) = 0 ∧
        readHalf M (planeAddr s.gyBase.toNat (sourceOf s) x y) = 0) ∧
      ∀ a, ¬ InRect (planeRect s.gxBase.toNat (sourceOf s)) a → ¬ InRect (planeRect s.gyBase.toNat (sourceOf s)) a →
        M.read a = s.mem.read a

/-- R193, R195: FILTER_SIMD that passes its checks ends without error; the output has W by H samples with no shift, each the
FLOAT magnitude of the two plane samples, the planes hold what GRAD_PLANES would write, and nothing else changes. That a sample is
the Sobel gradient itself, without the min of R192, rests on the PRESUMED weights, whose gradients are at most 1020 (log 8). -/
def Obligations.FilterSimdWritesEverySample : Prop :=
  ∀ s : State, 3 ≤ (sourceOf s).w → 3 ≤ (sourceOf s).h → ChecksPass s true true (sourceOf s).w (sourceOf s).h →
    ∃ M, exec .filterSimd s = .next { s with
        mem := M, dstW := s.srcW, dstH := s.srcH, status := doneWord false false s.status } ∧
      (∀ x y, x < (sourceOf s).w → y < (sourceOf s).h →
        M.read (dstAddr s.dstBase.toNat (dstStrideOf s (sourceOf s).w) x y) =
          BitVec.ofNat 8 (magnitude s.cfg.roundPolicy .float (planeX s x y) (planeY s x y)) ∧
        readHalf M (planeAddr s.gxBase.toNat (sourceOf s) x y) = planeX s x y ∧
        readHalf M (planeAddr s.gyBase.toNat (sourceOf s) x y) = planeY s x y) ∧
      ∀ a, ¬ InRect (planeRect s.gxBase.toNat (sourceOf s)) a → ¬ InRect (planeRect s.gyBase.toNat (sourceOf s)) a →
        ¬ InRect (dstRect s (sourceOf s).w (sourceOf s).h) a → M.read a = s.mem.read a

/-- R198: inside the border, a sample of FILTER_SIMD is the sample of FILTER (Sobel) one column and one row before, on the same
source image. -/
def Obligations.SimdInteriorIsFilter : Prop :=
  ∀ (s u t t' : State) (k : Conv) (m : Mag) (x y : Nat), SameSource s u → u.cfg.roundPolicy = s.cfg.roundPolicy →
    Interior s x y → exec .filterSimd s = .next t → statusDone t.status = true →
    exec (.filter .sobel k m) u = .next t' → statusDone t'.status = true →
    t.mem.read (dstAddr s.dstBase.toNat (dstStrideOf s (sourceOf s).w) x y) =
      t'.mem.read (dstAddr u.dstBase.toNat (dstStrideOf u ((sourceOf u).w - 2)) (x - 1) (y - 1))

/-- R143: on a constant image the gradient is (0, 0) at an interior pixel when the constant is 0 or both weight sums are 0, and
only then; Sobel, SobelFast, Scharr (PRESUMED weights, log 8) and the nil pair have such sums, so their output is all zero under
CEIL and all one under PLUS_ONE, and so is that of FILTER_MATH. -/
def Obligations.UniformImageGivesZero : Prop :=
  (∀ (s : State) (v : Variant) (c x y : Nat), ConstantImage s c → Interior s x y →
    ((gradX s v x y = 0 ∧ gradY s v x y = 0) ↔
      c = 0 ∨ (weightTotal (kernelPairFor s.cfg v).kx = 0 ∧ weightTotal (kernelPairFor s.cfg v).ky = 0))) ∧
  ∀ (s t : State) (i : Instr) (c x y : Nat), ConstantImage s c → Interior s x y →
    (i = .filterMath ∨ ∃ v k m, i = .filter v k m ∧ v ≠ .laplacian ∧ v ≠ .sharpen) →
    exec i s = .next t → statusDone t.status = true →
    t.mem.read (dstAddr s.dstBase.toNat (dstStrideOf s ((sourceOf s).w - 2)) (x - 1) (y - 1)) =
      if s.cfg.roundPolicy = .ceil then 0 else 1

/-- R146: the known vector. A step from a top row of 0 to a bottom row of 255 gives Gx = 0, Gy = 1020 and intensity 255, under
either policy, wherever the image lies (PRESUMED weights, log 8). -/
def Obligations.KnownVector : Prop :=
  ∀ s : State, (∀ x < 3, sourcePixel s x 0 = 0 ∧ sourcePixel s x 1 = 0 ∧ sourcePixel s x 2 = 255) →
    gradX s .sobel 1 1 = 0 ∧ gradY s .sobel 1 1 = 1020 ∧ sampleAt s .sobel 1 1 = 255

/-! ### Errors and flags -/

/-- R220: error entry, in full. Whatever error ends a command, STATUS[7:0] is `(code << 4) | 2` and ANYERR is 1; an
image-producing command publishes no image, the others leave DST_W, DST_H; every other register keeps its value; memory is
untouched for every code but 6, and for code 6 no byte outside the write footprints and none of the source image changes. -/
def Obligations.ErrorEntry : Prop :=
  (∀ (s t : State) (i : Instr), exec i s = .next t → statusErr t.status = true →
    ∃ code, 2 ≤ code ∧ code ≤ 6 ∧ t.status = failWord code s.status ∧
      (∀ d p ow oh, imageForm s i = some (d, p, ow, oh) → t.dstW = 0 ∧ t.dstH = 0) ∧
      (imageForm s i = none → t.dstW = s.dstW ∧ t.dstH = s.dstH) ∧
      (∀ r, r ≠ .status → r ≠ .dstW → r ≠ .dstH → readReg r t = readReg r s) ∧
      (code ≠ 6 → t.mem = s.mem) ∧
      (imageForm s i = none → t.mem = s.mem) ∧
      (∀ d p ow oh a, imageForm s i = some (d, p, ow, oh) → (∀ r ∈ writeFoot s d p ow oh, ¬ InRect r a) →
        t.mem.read a = s.mem.read a) ∧
      ∀ a, InRect (srcRect (sourceOf s)) a → t.mem.read a = s.mem.read a) ∧
  (∀ (s : State) (c : Word) (rest : List HostAction) (r : Reject), s.host = .regWrite 0 4 c :: rest → decode c = .error r →
    step s = .next { s with host := rest, cmd := c, status := failWord 1 s.status }) ∧
  ∀ old : Word, (failWord 1 old).extractLsb' 0 9 = 0x112#9 ∧ (failWord 2 old).extractLsb' 0 9 = 0x122#9 ∧
    (failWord 3 old).extractLsb' 0 9 = 0x132#9 ∧ (failWord 4 old).extractLsb' 0 9 = 0x142#9 ∧
    (failWord 5 old).extractLsb' 0 9 = 0x152#9 ∧ (failWord 6 old).extractLsb' 0 9 = 0x162#9

/-- R218, Table X1: which command can end with which code. The five register commands never fail; code 1 is the decoder's. -/
def Obligations.ErrorCodesByCommand : Prop :=
  ∀ (s t : State) (i : Instr), exec i s = .next t →
    (statusErrCode t.status = 0 ↔ statusDone t.status = true) ∧
    (statusErrCode t.status).toNat ≤ 6 ∧ statusErrCode t.status ≠ 1 ∧
    (statusErrCode t.status = 3 → i = .gradPlanes ∨ i = .filterSimd) ∧
    (statusErrCode t.status = 4 → imageForm s i ≠ none) ∧
    (statusErrCode t.status = 5 → ∃ v k, i = .gradient v k ∧ k = .checked ∧ v ≠ .sobelFast) ∧
    (imageForm s i = none → (∀ v k, i ≠ .gradient v k) → statusDone t.status = true)

/-- R26: STATUS after a command, the reset value, and what else changes it. -/
def Obligations.StatusReportsTheLastCommand : Prop :=
  (∀ (s t : State) (i : Instr), exec i s = .next t →
    (statusDone t.status = !statusErr t.status) ∧
    (statusEmpty t.status = true ↔ statusDone t.status = true ∧ imageForm s i ≠ none ∧
      ((sourceOf s).w < 3 ∨ (sourceOf s).h < 3)) ∧
    (statusKnil t.status = true ↔ statusDone t.status = true ∧ nilForm i = true) ∧
    (statusErr t.status = false → statusErrCode t.status = 0) ∧
    (statusErr t.status = true → statusErrCode t.status ≠ 0) ∧
    (statusAnyErr t.status = (statusAnyErr s.status || statusErr t.status)) ∧
    statusReserved t.status = statusReserved s.status) ∧
  (∀ (s t : State) (c : Word) (rest : List HostAction) (r : Reject), s.host = .regWrite 0 4 c :: rest → decode c = .error r →
    step s = .next t → statusDone t.status = false ∧ statusErr t.status = true ∧ statusEmpty t.status = false ∧
      statusKnil t.status = false ∧ statusErrCode t.status = 1 ∧ statusAnyErr t.status = true ∧
      statusReserved t.status = statusReserved s.status) ∧
  readReg .status State.reset = 0 ∧
  (∀ (s : State) (rest : List HostAction), s.host = .reset :: rest → ∃ u, step s = .next u ∧ readReg .status u = 0) ∧
  (∀ (s : State) (w : Word) (rest : List HostAction), s.host = .regWrite 4 4 w :: rest →
    step s = .next { s with host := rest, status := if w.getLsbD 8 then s.status &&& 0xFFFFFEFF#32 else s.status }) ∧
  ∀ (s u : State) (a : HostAction) (rest : List HostAction), s.host = a :: rest → (∀ w, a ≠ .regWrite 4 4 w) →
    (∀ c, a ≠ .regWrite 0 4 c) → a ≠ .reset → step s = .next u → u.status = s.status

/-- R45: the flags. Every command writes DONE, ERR, ERRCODE and ANYERR; EMPTY can be 1 only after an image-producing command and KNIL only after one that takes a variant; no command
reads a flag: besides STATUS a command's outcome is the same whatever STATUS held, and so are STATUS[7:0]. -/
def Obligations.FlagsAreNeverRead : Prop :=
  (∀ (s t : State) (i : Instr), exec i s = .next t →
    (statusDone t.status = !statusErr t.status) ∧ (statusErrCode t.status = 0 ↔ statusErr t.status = false) ∧
    (statusAnyErr t.status = (statusAnyErr s.status || statusErr t.status)) ∧
    (statusEmpty t.status = true → imageForm s i ≠ none) ∧
    (statusKnil t.status = true → (∃ v k, i = .gradient v k) ∨ (∃ v k m, i = .filter v k m) ∨ ∃ v, i = .klookup v)) ∧
  (∀ (s : State) (i : Instr) (w : Word), eraseStatus (exec i { s with status := w }) = eraseStatus (exec i s)) ∧
  ∀ (s t u : State) (i : Instr) (w : Word), exec i s = .next t → exec i { s with status := w } = .next u →
    u.status.extractLsb' 0 8 = t.status.extractLsb' 0 8

/-- R100, Table E3 (and R38 to R41: "no other command changes them"): a command changes no register but those of its row, no byte
of memory unless it is image-producing, and nothing of the host's or of the configuration. -/
def Obligations.RegisterFrame : Prop :=
  ∀ (s t : State) (i : Instr), exec i s = .next t →
    (∀ r, r ∉ writesOf i → readReg r t = readReg r s) ∧ (imageForm s i = none → t.mem = s.mem) ∧
    t.cfg = s.cfg ∧ t.host = s.host ∧ t.hostRead = s.hostRead

/-- R100, Table E3, R41, R43, R244: a command's outcome is a function of the registers of its row, of memory and of the
configuration: two states that agree on those end alike, whatever the other registers hold. After ErrBus the rules do not fix the
bytes of the write footprints (R220, U3): that both states get the same ones is the model's choice (log 6), hence the premise on
`freeCount`. -/
def Obligations.OutcomeDependsOnOperandsOnly : Prop :=
  ∀ (s u : State) (i : Instr), (∀ r ∈ readsOf i, readReg r u = readReg r s) → u.mem = s.mem → u.cfg = s.cfg →
    u.freeCount = s.freeCount →
    match exec i s, exec i u with
    | .next t, .next t' =>
      t'.mem = t.mem ∧ t'.status.extractLsb' 0 8 = t.status.extractLsb' 0 8 ∧
        (statusDone t.status = true → ∀ r ∈ writesOf i, r ≠ .status → readReg r t' = readReg r t)
    | .fault f, .fault f' => f = f'
    | _, _ => False

/-! ### The invariant, and runs -/

/-- What every step keeps: memory in canonical form (log 7) and at addresses that exist (R48), STATUS legal (R26), the result
registers within their bounds (R38, R40), the readout registers sign-extended weights (R41). -/
def Obligations.EveryStepKeepsInv : Prop := ∀ s t : State, Inv s → step s = .next t → Inv t

/-- The invariant holds at reset. -/
def Obligations.InvAtReset : Prop := Inv State.reset

/-- R258: a run that never clears ANYERR, started with ANYERR = 0, is clean exactly when ANYERR is 0 at its end. -/
def Obligations.CleanRunShowsInAnyErr : Prop :=
  ∀ (n : Nat) (s u : State), stepsTo n s u → (∀ a ∈ s.host.take n, mayClear a = false) → statusAnyErr s.status = false →
    (cleanRun n s u ↔ statusAnyErr u.status = false)
end

