-- ==== Sys2Proof/Laws/Roots.lean ====
section
/-! SUPPORT. The two integer square roots compute the floor root (spec/42_magnitude.md R166, R169). -/

namespace Sys2Proof.Machine

/-- The Newton update of R165. -/
abbrev newtonNext (n x : Nat) : Nat := (x + n / x) / 2

/-- R166 (A): no update falls below the floor root. -/
theorem sqrt_le_newtonNext {n x : Nat} (hx : 1 ≤ x) : Nat.sqrt n ≤ newtonNext n x := by
  have hr : Nat.sqrt n * Nat.sqrt n ≤ n := Nat.sqrt_le n
  generalize Nat.sqrt n = r at *
  have hq : n < (n / x + 1) * x := by
    have := Nat.lt_mul_div_succ n hx
    rwa [mul_comm] at this
  rw [newtonNext, Nat.le_div_iff_mul_le (by norm_num)]
  by_contra hlt
  have h1 : x + n / x + 1 ≤ 2 * r := by omega
  generalize n / x = q at *
  nlinarith [sq_nonneg ((x : ℤ) - (q + 1 : ℤ)), Nat.mul_le_mul h1 h1, mul_comm x (q + 1)]

/-- R166 (B), with the amount: above the floor root an update at least halves the distance to it. -/
theorem newtonNext_le {n x : Nat} (hx : Nat.sqrt n < x) : newtonNext n x ≤ Nat.sqrt n + (x - Nat.sqrt n) / 2 := by
  have hq : n / x ≤ Nat.sqrt n := by
    have hn : n < (Nat.sqrt n + 1) * x :=
      (Nat.lt_succ_sqrt n).trans_le (Nat.mul_le_mul_left _ hx)
    exact Nat.lt_succ_iff.mp ((Nat.div_lt_iff_lt_mul (by omega)).mpr hn)
  simp only [newtonNext]
  omega

/-- R166 (C): at the floor root an update gives it back or one more. -/
theorem newtonNext_sqrt_le {n : Nat} (hn : 1 ≤ n) : newtonNext n (Nat.sqrt n) ≤ Nat.sqrt n + 1 := by
  have hr : 1 ≤ Nat.sqrt n := Nat.le_sqrt.mpr (by omega)
  have h := Nat.lt_succ_sqrt n
  have hq : n / Nat.sqrt n ≤ Nat.sqrt n + 2 := by
    refine Nat.lt_succ_iff.mp ((Nat.div_lt_iff_lt_mul (by omega)).mpr ?_)
    have : n < (Nat.sqrt n + 1) * (Nat.sqrt n + 1) := h
    nlinarith
  simp only [newtonNext]
  omega

/-- R166: with fuel for the halvings of the distance and two more steps, the loop answers the floor root. `prev2` is never the
value just below a value above the root. -/
theorem newtonLoop_eq {n : Nat} (hn : 1 ≤ n) :
    ∀ {f : Nat} {p2 : Option Nat} {x : Nat}, Nat.sqrt n ≤ x → x - Nat.sqrt n < 2 ^ f → (∀ p, p2 = some p → x < p) →
      newtonLoop n (f + 2) p2 x = Nat.sqrt n := by
  have hr : 1 ≤ Nat.sqrt n := Nat.le_sqrt.mpr (by omega)
  have atRoot : ∀ {f : Nat} {p2 : Option Nat}, (∀ p, p2 = some p → Nat.sqrt n < p) →
      newtonLoop n (f + 2) p2 (Nat.sqrt n) = Nat.sqrt n := by
    intro f p2 hp
    rw [newtonLoop]
    have hlo : Nat.sqrt n ≤ (Nat.sqrt n + n / Nat.sqrt n) / 2 := sqrt_le_newtonNext hr
    have hhi : (Nat.sqrt n + n / Nat.sqrt n) / 2 ≤ Nat.sqrt n + 1 := newtonNext_sqrt_le hn
    split
    · rfl
    · split
      · omega
      · have hnext : (Nat.sqrt n + n / Nat.sqrt n) / 2 = Nat.sqrt n + 1 := by omega
        rw [hnext, newtonLoop]
        have h1 : Nat.sqrt n ≤ (Nat.sqrt n + 1 + n / (Nat.sqrt n + 1)) / 2 := sqrt_le_newtonNext (by omega)
        have h2 : (Nat.sqrt n + 1 + n / (Nat.sqrt n + 1)) / 2 ≤ Nat.sqrt n + (Nat.sqrt n + 1 - Nat.sqrt n) / 2 :=
          newtonNext_le (by omega)
        have h3 : (Nat.sqrt n + 1 + n / (Nat.sqrt n + 1)) / 2 = Nat.sqrt n := by omega
        simp [h3]
  intro f
  induction f with
  | zero =>
    intro p2 x hx hgap hp
    have : x = Nat.sqrt n := by
      have : (2 : Nat) ^ 0 = 1 := rfl
      omega
    subst this
    exact atRoot hp
  | succ f ih =>
    intro p2 x hx hgap hp
    rcases Nat.eq_or_lt_of_le hx with rfl | hlt
    · exact atRoot hp
    · have hlo : Nat.sqrt n ≤ (x + n / x) / 2 := sqrt_le_newtonNext (by omega)
      have hhi : (x + n / x) / 2 ≤ Nat.sqrt n + (x - Nat.sqrt n) / 2 := newtonNext_le hlt
      have hdec : (x + n / x) / 2 < x := by omega
      rw [newtonLoop]
      rw [if_neg (by omega), if_neg]
      · refine ih hlo ?_ ?_
        · have : (2 : Nat) ^ (f + 1) = 2 * 2 ^ f := by rw [pow_succ]; omega
          omega
        · rintro p ⟨⟩
          exact hdec
      · intro h
        have := hp _ h.symm
        omega

/-- R166. -/
theorem newtonRoot_eq_sqrt {n : Nat} (h : n < 2 ^ 32) : newtonRoot n = Nat.sqrt n := by
  simp only [newtonRoot]
  split
  · subst_vars
    rfl
  · rw [if_neg (by norm_num at h; omega)]
    have hs : Nat.sqrt n ≤ n := Nat.sqrt_le_self n
    refine newtonLoop_eq (f := 38) (by omega) hs ?_ (by simp)
    norm_num at h ⊢
    omega

/-- R167. -/
theorem newtonRoot_saturates {n : Nat} (h : 2 ^ 32 ≤ n) : newtonRoot n = 65535 := by
  norm_num at h
  simp only [newtonRoot]
  rw [if_neg (by omega), if_pos h]

/-- The invariant of R169: `ans² ≤ n`, every candidate above `hi` has a square above `n`, and the range is smaller than the
fuel allows. -/
theorem bisectLoop_eq {n : Nat} : ∀ {f lo hi ans : Nat}, hi + 1 - lo < 2 ^ f → 1 ≤ lo → ans ≤ Nat.sqrt n → lo ≤ ans + 1 →
    Nat.sqrt n ≤ hi → bisectLoop n f lo hi ans = Nat.sqrt n := by
  intro f
  induction f with
  | zero =>
    intro lo hi ans hf _ _ _ _
    have : (2 : Nat) ^ 0 = 1 := rfl
    simp only [bisectLoop]
    omega
  | succ f ih =>
    intro lo hi ans hf h1 ha hl hh
    have h2 : (2 : Nat) ^ (f + 1) = 2 * 2 ^ f := by rw [pow_succ]; omega
    simp only [bisectLoop]
    split
    · split
      · rename_i hm
        refine ih (by omega) (by omega) (Nat.le_sqrt.mpr hm) (by omega) hh
      · rename_i hm
        have : Nat.sqrt n < (lo + hi) / 2 := Nat.sqrt_lt.mpr (by omega)
        exact ih (by omega) h1 ha hl (by omega)
    · omega

/-- R169: the bisection gives the floor root of every natural. -/
theorem bisectRoot_eq_sqrt (n : Nat) : bisectRoot n = Nat.sqrt n := by
  simp only [bisectRoot]
  split
  · have : n = 0 ∨ n = 1 := by omega
    rcases this with rfl | rfl <;> simp
  · have hlog : n < 2 ^ (Nat.log2 n + 1) := Nat.lt_log2_self
    have hs : Nat.sqrt n ≤ n / 2 := by
      have h1 : Nat.sqrt n * Nat.sqrt n ≤ n := Nat.sqrt_le n
      rcases Nat.lt_or_ge (Nat.sqrt n) 2 with h | h
      · omega
      · rw [Nat.le_div_iff_mul_le (by norm_num)]
        nlinarith
    have h0 : 0 < Nat.sqrt n := Nat.sqrt_pos.mpr (by omega)
    exact bisectLoop_eq (by omega) (le_refl 1) (by omega) (by omega) hs

end Sys2Proof.Machine
end

