-- ==== Sys2Proof/Laws/Float.lean ====
section
/-! SUPPORT. The binary64 strategy equals the integer closed form (spec/42_magnitude.md R172): rounding is exact below 2^53 and
has a relative error of at most 2^-53, and that is too little to move a root across an integer. -/

namespace Sys2Proof.Machine

/-! ### Rounding -/

theorem roundShift_zero (n : Nat) : roundShift n 0 = n := by simp [roundShift, Nat.mod_one]

theorem bitLength_le_of_lt {n k : Nat} (h : n < 2 ^ k) : bitLength n ≤ k := by
  simp only [bitLength]
  split
  · omega
  · exact (Nat.log2_lt ‹_›).mpr h

theorem pow_bitLength_le {n : Nat} (h : n ≠ 0) : 2 ^ (bitLength n - 1) ≤ n := by
  simp only [bitLength, if_neg h, Nat.add_sub_cancel]
  exact Nat.log2_self_le h

/-- Numbers of at most 53 bits are exact (G4). -/
theorem f64Round_exact {z e : Int} (h : z.natAbs < 2 ^ 53) : f64Round z e = ⟨z, e⟩ := by
  have hk : bitLength z.natAbs - Config.floatPrecision = 0 := Nat.sub_eq_zero_of_le (bitLength_le_of_lt h)
  simp only [f64Round, hk, roundShift_zero, Int.sign_mul_natAbs]
  simp

theorem f64OfInt_exact {z : Int} (h : z.natAbs < 2 ^ 53) : f64OfInt z = ⟨z, 0⟩ := f64Round_exact h

theorem f64Mul_exact {a b : Int} (h : (a * b).natAbs < 2 ^ 53) : f64Mul ⟨a, 0⟩ ⟨b, 0⟩ = ⟨a * b, 0⟩ := f64Round_exact h

theorem f64Add_exact {a b : Int} (h : (a + b).natAbs < 2 ^ 53) : f64Add ⟨a, 0⟩ ⟨b, 0⟩ = ⟨a + b, 0⟩ := by
  simp only [f64Add, min_self, sub_self, Int.toNat_zero, pow_zero, mul_one]
  exact f64Round_exact h

/-- Dropping `k` bits moves a number by at most half a unit of the last bit kept. -/
theorem roundShift_error (n k : Nat) : 2 * roundShift n k * 2 ^ k ≤ 2 * n + 2 ^ k ∧ 2 * n ≤ 2 * roundShift n k * 2 ^ k + 2 ^ k := by
  have hd := Nat.div_add_mod n (2 ^ k)
  have hm : n % 2 ^ k < 2 ^ k := Nat.mod_lt _ (by positivity)
  simp only [roundShift]
  generalize n / 2 ^ k = q at *
  generalize n % 2 ^ k = r at *
  generalize 2 ^ k = p at *
  have h1 : 2 * q * p = 2 * (p * q) := by ring
  have h2 : 2 * (q + 1) * p = 2 * (p * q) + 2 * p := by ring
  split
  · rw [h1]; omega
  · split
    · rw [h2]; omega
    · split
      · rw [h1]; omega
      · rw [h2]; omega

/-- The value of a number. -/
def f64Val (a : F64) : ℚ := (a.sig : ℚ) * 2 ^ a.exp

/-- Rounding has a relative error of at most 2^-53. -/
theorem f64Round_error {n : Nat} (e : Int) :
    |f64Val (f64Round (n : Int) e) - (n : ℚ) * 2 ^ e| ≤ (n : ℚ) * 2 ^ e / 2 ^ 53 := by
  by_cases h0 : n < 2 ^ 53
  · rw [f64Round_exact (by simpa using h0)]
    simp only [f64Val, Int.cast_natCast, sub_self, abs_zero]
    positivity
  · have hn : n ≠ 0 := by rintro rfl; simp at h0
    have hpos : (0 : Int) < n := by omega
    simp only [f64Round, f64Val, Int.natAbs_natCast, Int.sign_eq_one_of_pos hpos, one_mul, Int.cast_natCast]
    have hb : 53 < bitLength n := by
      by_contra hb
      have h1 : n < 2 ^ bitLength n := by
        simp only [bitLength, if_neg hn]
        exact Nat.lt_log2_self
      exact h0 (h1.trans_le (Nat.pow_le_pow_right (by norm_num) (by omega)))
    obtain ⟨k, hk⟩ : ∃ k, bitLength n = k + 53 := ⟨bitLength n - 53, by omega⟩
    have hk' : bitLength n - Config.floatPrecision = k := by rw [hk]; rfl
    have hbig : 2 ^ (k + 52) ≤ n := by
      have := pow_bitLength_le hn
      rwa [hk] at this
    rw [hk']
    obtain ⟨h1, h2⟩ := roundShift_error n k
    generalize roundShift n k = q at *
    have h1' : (2 * q * 2 ^ k : ℚ) ≤ 2 * n + 2 ^ k := by exact_mod_cast h1
    have h2' : (2 * n : ℚ) ≤ 2 * q * 2 ^ k + 2 ^ k := by exact_mod_cast h2
    have hbig' : (2 : ℚ) ^ k * 2 ^ 52 ≤ n := by rw [← pow_add]; exact_mod_cast hbig
    have hz : ((2 : ℚ) ^ (e + (k : Int))) = 2 ^ k * 2 ^ e := by
      rw [zpow_add₀ (by norm_num), mul_comm, zpow_natCast]
    rw [hz, ← mul_assoc, ← sub_mul, abs_mul, abs_of_pos (show (0 : ℚ) < 2 ^ e by positivity), mul_div_right_comm]
    refine mul_le_mul_of_nonneg_right ?_ (by positivity)
    rw [abs_le]
    constructor <;> · norm_num at *; linarith

theorem f64Ceil_eq (a : F64) : f64Ceil a = ⌈f64Val a⌉ := by
  obtain ⟨s, e⟩ := a
  simp only [f64Ceil, f64Val]
  split
  · rename_i h
    obtain ⟨k, rfl⟩ := Int.eq_ofNat_of_zero_le h
    rw [zpow_natCast, Int.toNat_natCast]
    exact_mod_cast (Int.ceil_intCast (R := ℚ) (s * 2 ^ k)).symm
  · rename_i h
    obtain ⟨k, hk⟩ := Int.eq_ofNat_of_zero_le (show 0 ≤ -e by omega)
    have he : e = -(k : Int) := by omega
    subst he
    rw [zpow_neg, zpow_natCast, neg_neg, Int.toNat_natCast, ← div_eq_mul_inv]
    have := Rat.floor_intCast_div_natCast (-s) (2 ^ k)
    push_cast at this ⊢
    rw [← this, neg_div, Int.floor_neg, neg_neg]

theorem f64Trunc_eq (a : F64) : f64Trunc a = ⌊f64Val a⌋ := by
  obtain ⟨s, e⟩ := a
  simp only [f64Trunc, f64Val]
  split
  · rename_i h
    obtain ⟨k, rfl⟩ := Int.eq_ofNat_of_zero_le h
    rw [zpow_natCast, Int.toNat_natCast]
    exact_mod_cast (Int.floor_intCast (R := ℚ) (s * 2 ^ k)).symm
  · rename_i h
    obtain ⟨k, hk⟩ := Int.eq_ofNat_of_zero_le (show 0 ≤ -e by omega)
    have he : e = -(k : Int) := by omega
    subst he
    rw [zpow_neg, zpow_natCast, neg_neg, Int.toNat_natCast, ← div_eq_mul_inv]
    have := Rat.floor_intCast_div_natCast s (2 ^ k)
    push_cast at this ⊢
    exact this.symm

/-- What the root computes, for a positive number: with `w` the weight of the last bit of the integer root and `R` that root's
value, `R ≤ √x < R + w`, `w` is tiny beside `R`, and the answer is within the rounding error of `[R, R + w/2]`. -/
theorem f64Sqrt_bounds {a : F64} (h : 0 < a.sig) : ∃ R w : ℚ, 0 < w ∧ 2 ^ 54 * w ≤ R ∧ R ^ 2 ≤ f64Val a ∧
    f64Val a < (R + w) ^ 2 ∧ R * (1 - 1 / 2 ^ 53) ≤ f64Val (f64Sqrt a) ∧ f64Val (f64Sqrt a) ≤ (R + w / 2) * (1 + 1 / 2 ^ 53) := by
  obtain ⟨s, e⟩ := a
  simp only at h
  obtain ⟨t, ht, q, hq⟩ : ∃ t : Nat, (t = if e % 2 = 0 then 110 else 111) ∧ ∃ q : Int, e - t = 2 * q := by
    refine ⟨_, rfl, (e - (if e % 2 = 0 then 110 else 111 : Nat)) / 2, ?_⟩
    split <;> push_cast <;> omega
  have ht110 : 110 ≤ t := by rw [ht]; split <;> omega
  obtain ⟨n, rfl⟩ : ∃ n : Nat, s = n := ⟨s.toNat, by omega⟩
  have hn : 0 < n := by exact_mod_cast h
  have hsqrt : f64Sqrt ⟨n, e⟩ = f64Round (((2 * Nat.sqrt (n * 2 ^ t) +
      (if Nat.sqrt (n * 2 ^ t) * Nat.sqrt (n * 2 ^ t) = n * 2 ^ t then 0 else 1) : Nat)) : Int) (q - 1) := by
    simp only [f64Sqrt, ← ht, Int.toNat_natCast, bisectRoot_eq_sqrt]
    rw [hq, Int.mul_ediv_cancel_left _ (by norm_num)]
  have hr1 : Nat.sqrt (n * 2 ^ t) * Nat.sqrt (n * 2 ^ t) ≤ n * 2 ^ t := Nat.sqrt_le _
  have hr2 : n * 2 ^ t < (Nat.sqrt (n * 2 ^ t) + 1) * (Nat.sqrt (n * 2 ^ t) + 1) := Nat.lt_succ_sqrt _
  have hrbig : 2 ^ 54 ≤ Nat.sqrt (n * 2 ^ t) := by
    refine Nat.le_sqrt.mpr ?_
    calc 2 ^ 54 * 2 ^ 54 ≤ 1 * 2 ^ 110 := by norm_num
      _ ≤ n * 2 ^ t := Nat.mul_le_mul hn (Nat.pow_le_pow_right (by norm_num) ht110)
  have hval : f64Val ⟨n, e⟩ = ((n * 2 ^ t : Nat) : ℚ) * (2 ^ q) ^ 2 := by
    have : e = t + (q + q) := by omega
    simp only [f64Val, this, zpow_add₀ (show (2 : ℚ) ≠ 0 by norm_num), zpow_natCast]
    push_cast
    ring
  rw [hval, hsqrt]
  generalize n * 2 ^ t = N at *
  generalize Nat.sqrt N = r at *
  have hr1' : (r * r : ℚ) ≤ N := by exact_mod_cast hr1
  have hr2' : (N : ℚ) < (r + 1) * (r + 1) := by exact_mod_cast hr2
  have hw : (0 : ℚ) < 2 ^ q := by positivity
  have hhalf : (2 : ℚ) ^ (q - 1) = 2 ^ q / 2 := by rw [zpow_sub_one₀ (by norm_num)]; ring
  refine ⟨r * 2 ^ q, 2 ^ q, hw, ?_, ?_, ?_, ?_⟩
  · have : ((2 : ℚ) ^ 54) ≤ r := by exact_mod_cast hrbig
    exact mul_le_mul_of_nonneg_right this hw.le
  · have : ((r : ℚ) * 2 ^ q) ^ 2 = (r * r) * (2 ^ q) ^ 2 := by ring
    rw [this]
    exact mul_le_mul_of_nonneg_right hr1' (by positivity)
  · have : ((r : ℚ) * 2 ^ q + 2 ^ q) ^ 2 = ((r + 1) * (r + 1)) * (2 ^ q) ^ 2 := by ring
    rw [this]
    exact mul_lt_mul_of_pos_right hr2' (by positivity)
  · obtain ⟨b, hb, hbe⟩ : ∃ b : Nat, b ≤ 1 ∧ (if r * r = N then 0 else 1) = b := ⟨_, by split <;> omega, rfl⟩
    rw [hbe]
    have herr := f64Round_error (n := 2 * r + b) (q - 1)
    have hx : ((2 * r + b : Nat) : ℚ) * 2 ^ (q - 1) = r * 2 ^ q + b * 2 ^ q / 2 := by
      rw [hhalf]; push_cast; ring
    rw [hx, abs_le] at herr
    have hb1 : (b : ℚ) ≤ 1 := by exact_mod_cast hb
    have hb0 : (0 : ℚ) ≤ b := by positivity
    have hbw : (b : ℚ) * 2 ^ q ≤ 2 ^ q := by nlinarith
    have hbw0 : (0 : ℚ) ≤ b * 2 ^ q := by positivity
    generalize (b : ℚ) * 2 ^ q = bw at *
    generalize (r : ℚ) * 2 ^ q = R at *
    generalize (2 : ℚ) ^ q = w at *
    constructor <;> · norm_num at *; linarith

/-! ### The strategy -/

/-- Perfect squares below the clamp, one by one. -/
theorem magFromSumFloat_square : ∀ p < 255, ∀ policy ∈ [RoundPolicy.ceil, .plusOne],
    magFromSumFloat policy ⟨((p * p : Nat) : Int), 0⟩ = clamp255 (roundUp policy (p * p) p) := by
  decide +kernel

/-- The root of a sum above 254² is above 254. -/
theorem f64Sqrt_gt {a : F64} (h : 64517 ≤ f64Val a) : 254 < f64Val (f64Sqrt a) := by
  have hs : 0 < a.sig := by
    by_contra hs
    have h1 : (a.sig : ℚ) ≤ 0 := by exact_mod_cast not_lt.mp hs
    have h2 : f64Val a ≤ 0 := mul_nonpos_of_nonpos_of_nonneg h1 (by positivity)
    linarith
  obtain ⟨R, w, hw, hRw, -, hx, hlo, -⟩ := f64Sqrt_bounds hs
  refine lt_of_lt_of_le ?_ hlo
  by_contra hle
  have hR : R ≤ 254.0001 := by
    by_contra hR
    norm_num at *
    linarith
  have hw' : w ≤ 0.0001 := by
    norm_num at *
    linarith
  have h0 : 0 ≤ R + w := by
    have : 0 ≤ R := le_trans (by positivity) hRw
    linarith
  have : (R + w) ^ 2 ≤ (254.0002 : ℚ) ^ 2 := pow_le_pow_left₀ h0 (by linarith) 2
  norm_num at *
  linarith

/-- Between two squares the root stays strictly between their roots (R172). -/
theorem f64Sqrt_between {s p : Nat} (hp : p < 255) (h1 : p * p < s) (h2 : s < (p + 1) * (p + 1)) :
    (p : ℚ) < f64Val (f64Sqrt ⟨s, 0⟩) ∧ f64Val (f64Sqrt ⟨s, 0⟩) < p + 1 := by
  have hs : 0 < s := by omega
  obtain ⟨R, w, hw, hRw, hx1, hx2, hlo, hhi⟩ := f64Sqrt_bounds (a := ⟨s, 0⟩) (by simpa using hs)
  have hval : f64Val ⟨s, 0⟩ = s := by simp [f64Val]
  rw [hval] at hx1 hx2
  have hp0 : (0 : ℚ) ≤ p := by positivity
  have hp' : (p : ℚ) ≤ 254 := by exact_mod_cast Nat.lt_succ_iff.mp hp
  have h1' : (p : ℚ) * p + 1 ≤ s := by exact_mod_cast h1
  have h2' : (s : ℚ) + 1 ≤ (p + 1) * (p + 1) := by exact_mod_cast h2
  have hR0 : 0 < R := lt_of_lt_of_le (by positivity) hRw
  have hRhi : R ≤ p + 1 - 1 / 512 := by
    by_contra hR
    rw [not_le] at hR
    nlinarith
  have hw' : w ≤ 1 / 2 ^ 40 := by
    norm_num at hRw ⊢
    linarith
  have hRlo : p + 1 / 1024 ≤ R := by
    by_contra hR
    rw [not_le] at hR
    have : (R + w) ^ 2 ≤ (p + 1 / 1000) ^ 2 := pow_le_pow_left₀ (by linarith) (by norm_num at hw' ⊢; linarith) 2
    nlinarith
  constructor
  · refine lt_of_lt_of_le ?_ hlo
    norm_num
    linarith
  · refine lt_of_le_of_lt hhi ?_
    norm_num at hw' ⊢
    linarith

/-- R172 for an exact sum. -/
theorem magFromSumFloat_exact (policy : RoundPolicy) {s : Nat} (h : s ≤ 64516) :
    magFromSumFloat policy ⟨s, 0⟩ = magOf policy s := by
  have hsq1 := Nat.sqrt_le s
  have hsq2 : s < (Nat.sqrt s + 1) * (Nat.sqrt s + 1) := Nat.lt_succ_sqrt s
  simp only [magOf]
  have hp : Nat.sqrt s < 255 := by
    by_contra hp
    have : 255 * 255 ≤ Nat.sqrt s * Nat.sqrt s := Nat.mul_le_mul (by omega) (by omega)
    omega
  rcases Nat.eq_or_lt_of_le hsq1 with he | hlt
  · have := magFromSumFloat_square (Nat.sqrt s) hp policy (by cases policy <;> simp)
    rwa [he] at this
  · have hne : Nat.sqrt s * Nat.sqrt s ≠ s := by omega
    have hp' : Nat.sqrt s ≤ 253 := by
      by_contra hp'
      have : 254 * 254 ≤ Nat.sqrt s * Nat.sqrt s := Nat.mul_le_mul (by omega) (by omega)
      omega
    obtain ⟨b1, b2⟩ := f64Sqrt_between hp hlt hsq2
    have hc : f64Ceil (f64Sqrt ⟨s, 0⟩) = Nat.sqrt s + 1 := by
      rw [f64Ceil_eq, Int.ceil_eq_iff]
      push_cast
      constructor <;> linarith
    have ht : f64Trunc (f64Sqrt ⟨s, 0⟩) = Nat.sqrt s := by
      rw [f64Trunc_eq, Int.floor_eq_iff]
      push_cast
      constructor <;> linarith
    simp only [magFromSumFloat, roundUp, hne, ne_eq, not_false_eq_true, or_true, if_true, clamp255, hc, ht]
    cases policy <;> simp only [] <;> rw [if_neg (by omega)] <;> omega

/-- R172 above the clamp. -/
theorem magFromSumFloat_large (policy : RoundPolicy) {a : F64} (h : 64517 ≤ f64Val a) : magFromSumFloat policy a = 255 := by
  have hgt := f64Sqrt_gt h
  have hc : 255 ≤ f64Ceil (f64Sqrt a) := by
    rw [f64Ceil_eq]
    exact Int.lt_ceil.mpr (by exact_mod_cast hgt)
  have ht : 254 ≤ f64Trunc (f64Sqrt a) := by
    rw [f64Trunc_eq]
    exact Int.le_floor.mpr (by exact_mod_cast hgt.le)
  simp only [magFromSumFloat]
  cases policy <;> simp only [] <;> rw [if_pos (by omega)]

/-- The closed form above the clamp (R164). -/
theorem magOf_large (policy : RoundPolicy) {s : Nat} (h : 64517 ≤ s) : magOf policy s = 255 := by
  have h1 : 254 ≤ Nat.sqrt s := Nat.le_sqrt.mpr (by omega)
  simp only [magOf, roundUp, clamp255]
  split
  · omega
  · have : Nat.sqrt s * Nat.sqrt s = s := by simp_all
    have : 255 ≤ Nat.sqrt s := by
      by_contra h2
      have h254 : Nat.sqrt s = 254 := by omega
      rw [h254] at this
      omega
    omega

/-- R172 for the exact sum of any size below 2^53. -/
theorem magFromSumFloat_eq (policy : RoundPolicy) (s : Nat) : magFromSumFloat policy ⟨s, 0⟩ = magOf policy s := by
  rcases Nat.lt_or_ge 64516 s with h | h
  · rw [magOf_large policy h, magFromSumFloat_large]
    simp only [f64Val, zpow_zero, mul_one]
    exact_mod_cast h
  · exact magFromSumFloat_exact policy h

theorem f64Round_sig_nonneg (n : Nat) (e : Int) : 0 ≤ (f64Round (n : Int) e).sig :=
  mul_nonneg (by rcases n with _ | n <;> simp) (by positivity)

/-- The sum of two numbers that are not negative has a relative error of at most 2^-53. -/
theorem f64Add_error {a b : F64} (ha : 0 ≤ a.sig) (hb : 0 ≤ b.sig) :
    (f64Val a + f64Val b) * (1 - 1 / 2 ^ 53) ≤ f64Val (f64Add a b) := by
  obtain ⟨sa, ea⟩ := a
  obtain ⟨sb, eb⟩ := b
  obtain ⟨na, rfl⟩ := Int.eq_ofNat_of_zero_le ha
  obtain ⟨nb, rfl⟩ := Int.eq_ofNat_of_zero_le hb
  have align : ∀ (n : Nat) (x e : Int), e ≤ x → (n : ℚ) * 2 ^ (x - e).toNat * 2 ^ e = n * 2 ^ x := by
    intro n x e h
    obtain ⟨k, hk⟩ := Int.eq_ofNat_of_zero_le (sub_nonneg.mpr h)
    have hx : x = k + e := by omega
    rw [hk, Int.toNat_natCast, hx, zpow_add₀ (by norm_num), zpow_natCast, mul_assoc]
  simp only [f64Add]
  have hcast : ((na : Int) * 2 ^ (ea - min ea eb).toNat + (nb : Int) * 2 ^ (eb - min ea eb).toNat) =
      ((na * 2 ^ (ea - min ea eb).toNat + nb * 2 ^ (eb - min ea eb).toNat : Nat) : Int) := by push_cast; rfl
  have h := f64Round_error (n := na * 2 ^ (ea - min ea eb).toNat + nb * 2 ^ (eb - min ea eb).toNat) (min ea eb)
  rw [hcast]
  have hv : ((na * 2 ^ (ea - min ea eb).toNat + nb * 2 ^ (eb - min ea eb).toNat : Nat) : ℚ) * 2 ^ (min ea eb) =
      f64Val ⟨na, ea⟩ + f64Val ⟨nb, eb⟩ := by
    push_cast
    rw [add_mul, align _ _ _ (min_le_left _ _), align _ _ _ (min_le_right _ _)]
    simp [f64Val]
  rw [hv, abs_le] at h
  linarith [h.1]

/-- The square of an exact number has a relative error of at most 2^-53. -/
theorem f64Square_error (g : Nat) : (g * g : ℚ) * (1 - 1 / 2 ^ 53) ≤ f64Val (f64Mul ⟨g, 0⟩ ⟨g, 0⟩) := by
  have h := f64Round_error (n := g * g) 0
  simp only [f64Mul, add_zero]
  rw [zpow_zero, mul_one, abs_le] at h
  push_cast at h ⊢
  linarith [h.1]

/-- The binary64 sum of squares of R163: exact below 2^53, and not small above. -/
theorem floatSum_cases {gx gy : Nat} (hx : gx < 2 ^ 32) (hy : gy < 2 ^ 32) :
    let fs := f64Add (f64Mul (f64OfInt gx) (f64OfInt gx)) (f64Mul (f64OfInt gy) (f64OfInt gy))
    fs = ⟨((gx * gx + gy * gy : Nat) : Int), 0⟩ ∨ (64517 ≤ f64Val fs ∧ 64517 ≤ gx * gx + gy * gy) := by
  simp only
  rw [f64OfInt_exact (z := gx) (by norm_num at *; omega), f64OfInt_exact (z := gy) (by norm_num at *; omega)]
  by_cases h : gx * gx + gy * gy < 2 ^ 53
  · left
    have ex : ((gx : Int) * gx).natAbs = gx * gx := by rw [Int.natAbs_mul]; rfl
    have ey : ((gy : Int) * gy).natAbs = gy * gy := by rw [Int.natAbs_mul]; rfl
    rw [f64Mul_exact (by rw [ex]; omega), f64Mul_exact (by rw [ey]; omega), f64Add_exact]
    · push_cast; rfl
    · have : ((gx : Int) * gx + gy * gy) = ((gx * gx + gy * gy : Nat) : Int) := by push_cast; rfl
      rw [this]
      exact h
  · right
    refine ⟨?_, by norm_num at h; omega⟩
    have hsig : ∀ g : Nat, 0 ≤ (f64Mul ⟨g, 0⟩ ⟨g, 0⟩).sig := fun g => f64Round_sig_nonneg (g * g) 0
    refine le_trans ?_ (f64Add_error (hsig gx) (hsig gy))
    have hx' := f64Square_error gx
    have hy' := f64Square_error gy
    have hs : (2 ^ 53 : ℚ) ≤ gx * gx + gy * gy := by exact_mod_cast not_lt.mp h
    norm_num at *
    linarith

/-- R163, R172: the FLOAT strategy is the closed form for all 32-bit operands. -/
theorem magnitude_float_eq (policy : RoundPolicy) {gx gy : Nat} (hx : gx < 2 ^ 32) (hy : gy < 2 ^ 32) :
    magnitude policy .float gx gy = magOf policy (gx * gx + gy * gy) := by
  simp only [magnitude]
  rcases floatSum_cases hx hy with h | ⟨h, hs⟩
  · rw [h, magFromSumFloat_eq]
  · rw [magFromSumFloat_large policy h, magOf_large policy hs]

/-- R163, R166, R167: the NEWTON strategy is the closed form, on the saturating arm too. -/
theorem magnitude_newton_eq (policy : RoundPolicy) (gx gy : Nat) :
    magnitude policy .newton gx gy = magOf policy (gx * gx + gy * gy) := by
  simp only [magnitude]
  rcases Nat.lt_or_ge (gx * gx + gy * gy) (2 ^ 32) with h | h
  · rw [newtonRoot_eq_sqrt h]
    rfl
  · rw [newtonRoot_saturates h, magOf_large policy (by norm_num at h; omega)]
    simp only [roundUp, clamp255]
    split <;> omega

/-- R163, R169: the BISECT strategy is the closed form. -/
theorem magnitude_bisect_eq (policy : RoundPolicy) (gx gy : Nat) :
    magnitude policy .bisect gx gy = magOf policy (gx * gx + gy * gy) := by
  simp only [magnitude, bisectRoot_eq_sqrt]
  rfl

/-- A magnitude fits a byte (R164). -/
theorem magnitude_le (policy : RoundPolicy) (m : Mag) (gx gy : Nat) : magnitude policy m gx gy ≤ 255 := by
  cases m
  · simp only [magnitude, clamp255]
    omega
  · simp only [magnitude, clamp255]
    omega
  · simp only [magnitude, magFromSumFloat]
    cases policy <;> simp only [] <;> split <;> omega

end Sys2Proof.Machine
end

