-- ==== Sys2Proof/Laws/Loops.lean ====
section
/-! SUPPORT. The induction principles of the shared loops (`loopBelow`, `loopXY`, `allBelow`, `allXY`, `foldBelow`). -/

namespace Sys2Proof.Machine

variable {σ : Type}

/-- A loop whose every iteration succeeds and keeps an invariant indexed by the iteration count succeeds. -/
theorem loopBelow_ok {P : Nat → σ → Prop} {f : Nat → σ → Except CmdError σ} :
    ∀ {n : Nat} {s : σ}, P 0 s → (∀ k t, k < n → P k t → ∃ t', f k t = .ok t' ∧ P (k + 1) t') →
      ∃ t, loopBelow n f s = .ok t ∧ P n t
  | 0, s, h0, _ => ⟨s, rfl, h0⟩
  | n + 1, s, h0, hs => by
    obtain ⟨t, ht, hP⟩ := loopBelow_ok (n := n) h0 (fun k t hk => hs k t (by omega))
    obtain ⟨t', ht', hP'⟩ := hs n t (by omega) hP
    exact ⟨t', by simp [loopBelow, ht, ht'], hP'⟩

/-- Whatever a successful loop answers satisfies an invariant that every successful iteration keeps. -/
theorem loopBelow_inv {P : Nat → σ → Prop} {f : Nat → σ → Except CmdError σ} :
    ∀ {n : Nat} {s t : σ}, P 0 s → (∀ k u u', k < n → P k u → f k u = .ok u' → P (k + 1) u') →
      loopBelow n f s = .ok t → P n t
  | 0, s, _, h0, _, h => by
    simp only [loopBelow, Except.ok.injEq] at h
    exact h ▸ h0
  | n + 1, s, t, h0, hs, h => by
    simp only [loopBelow] at h
    split at h
    · cases h
    · rename_i u hu
      exact hs n u t (by omega) (loopBelow_inv (n := n) h0 (fun k u u' hk => hs k u u' (by omega)) hu) h

/-- A loop fails only by an error of one of its iterations. -/
theorem loopBelow_error {Q : CmdError → Prop} {f : Nat → σ → Except CmdError σ} :
    ∀ {n : Nat} {s : σ} {e : CmdError}, (∀ k u e, f k u = .error e → Q e) → loopBelow n f s = .error e → Q e
  | 0, s, e, _, h => by simp [loopBelow] at h
  | n + 1, s, e, hf, h => by
    simp only [loopBelow] at h
    split at h
    · rename_i hu
      cases h
      exact loopBelow_error (n := n) hf hu
    · exact hf _ _ _ h

/-- Two loops whose iterations agree below the bound agree. -/
theorem loopBelow_congr {f g : Nat → σ → Except CmdError σ} :
    ∀ {n : Nat} {s : σ}, (∀ k t, k < n → f k t = g k t) → loopBelow n f s = loopBelow n g s
  | 0, _, _ => rfl
  | n + 1, s, h => by
    simp only [loopBelow]
    rw [loopBelow_congr (n := n) (fun k t hk => h k t (by omega))]
    split
    · rfl
    · exact h n _ (by omega)

/-- `loopBelow_congr` for iterations that agree only on states of an invariant that the loop keeps. -/
theorem loopBelow_congr_inv {P : σ → Prop} {f g : Nat → σ → Except CmdError σ} :
    ∀ {n : Nat} {s : σ}, P s → (∀ k t, k < n → P t → f k t = g k t) →
      (∀ k t t', k < n → P t → f k t = .ok t' → P t') → loopBelow n f s = loopBelow n g s
  | 0, _, _, _, _ => rfl
  | n + 1, s, h0, h, hk => by
    have ih := loopBelow_congr_inv (n := n) h0 (fun k t hk => h k t (by omega)) (fun k t t' hlt => hk k t t' (by omega))
    simp only [loopBelow]
    rw [← ih]
    split
    · rfl
    · rename_i t ht
      exact h n t (by omega)
        (loopBelow_inv (P := fun _ => P) h0 (fun k u u' hlt hu hf => hk k u u' (by omega) hu hf) ht)

theorem loopXY_congr {w h : Nat} {f g : Nat → Nat → σ → Except CmdError σ} {s : σ}
    (H : ∀ x y t, x < w → y < h → f x y t = g x y t) : loopXY w h f s = loopXY w h g s :=
  loopBelow_congr fun y _ hy => loopBelow_congr fun x u hx => H x y u hx hy

/-- The positions before `(x, y)` in the row-major scan of a rectangle `w` wide. -/
abbrev Visited (w x y a b : Nat) : Prop := a < w ∧ (b < y ∨ (b = y ∧ a < x))

/-- `loopBelow_ok` for the row-major scan: `P x y` is the invariant just before position `(x, y)`. -/
theorem loopXY_ok {P : Nat → Nat → σ → Prop} {w h : Nat} {f : Nat → Nat → σ → Except CmdError σ} {s : σ}
    (h0 : P 0 0 s)
    (hrow : ∀ y t, y < h → P w y t → P 0 (y + 1) t)
    (hs : ∀ x y t, x < w → y < h → P x y t → ∃ t', f x y t = .ok t' ∧ P (x + 1) y t') :
    ∃ t, loopXY w h f s = .ok t ∧ P 0 h t := by
  refine loopBelow_ok (P := fun y t => P 0 y t) h0 fun y t hy hP => ?_
  obtain ⟨t', ht', hP'⟩ := loopBelow_ok (P := fun x t => P x y t) (n := w) hP fun x u hx hu => hs x y u hx hy hu
  exact ⟨t', ht', hrow y t' hy hP'⟩

/-- `loopBelow_inv` for the row-major scan. -/
theorem loopXY_inv {P : σ → Prop} {w h : Nat} {f : Nat → Nat → σ → Except CmdError σ} {s t : σ} (h0 : P s)
    (hs : ∀ x y u u', x < w → y < h → P u → f x y u = .ok u' → P u') (H : loopXY w h f s = .ok t) : P t :=
  loopBelow_inv (P := fun _ => P) h0
    (fun y _ _ hy hu hr => loopBelow_inv (P := fun _ => P) hu (fun x v v' hx hv hf => hs x y v v' hx hy hv hf) hr) H

theorem loopXY_error {Q : CmdError → Prop} {w h : Nat} {f : Nat → Nat → σ → Except CmdError σ} {s : σ} {e : CmdError}
    (hf : ∀ x y u e, f x y u = .error e → Q e) (H : loopXY w h f s = .error e) : Q e :=
  loopBelow_error (fun y _ _ hr => loopBelow_error (fun x u e' he => hf x y u e' he) hr) H

theorem allBelow_iff {n : Nat} {p : Nat → Bool} : allBelow n p = true ↔ ∀ k < n, p k = true := by
  induction n with
  | zero => simp [allBelow]
  | succ n ih =>
    simp only [allBelow, Bool.and_eq_true, ih]
    constructor
    · rintro ⟨h, hn⟩ k hk
      rcases Nat.lt_succ_iff_lt_or_eq.mp hk with h' | rfl
      exacts [h k h', hn]
    · exact fun h => ⟨fun k hk => h k (by omega), h n (by omega)⟩

theorem allXY_iff {w h : Nat} {p : Nat → Nat → Bool} : allXY w h p = true ↔ ∀ x y, x < w → y < h → p x y = true := by
  simp only [allXY, allBelow_iff]
  exact ⟨fun H x y hx hy => H y hy x hx, fun H y hy x hx => H x y hx hy⟩

theorem foldBelow_inv {P : σ → Prop} {f : Nat → σ → σ} :
    ∀ {n : Nat} {s : σ}, P s → (∀ k t, k < n → P t → P (f k t)) → P (foldBelow n f s)
  | 0, _, h0, _ => h0
  | n + 1, s, h0, hs => hs n _ (by omega) (foldBelow_inv (n := n) h0 fun k t hk => hs k t (by omega))

end Sys2Proof.Machine
end

