-- ==== Sys2Proof/Laws/Memory.lean ====
section
/-! SUPPORT. The laws of image memory: a read after a write, and every operation keeps the canonical form. -/

namespace Sys2Proof.Machine

theorem lookupCell_insertCell (a c : Nat) (v : Byte) (l : List Host.Cell) :
    lookupCell (insertCell a v l) c = if a = c then some v else lookupCell l c := by
  induction l with
  | nil => simp [insertCell, lookupCell]
  | cons p t ih =>
    obtain ⟨b, w⟩ := p
    simp only [insertCell]
    split
    · simp [lookupCell]
    · split
      · rename_i hab
        subst hab
        by_cases h : a = c <;> simp [lookupCell, h]
      · simp only [lookupCell, ih]
        by_cases h : b = c
        · have : a ≠ c := by omega
          simp [h, this]
        · simp [h]

theorem lookupCell_eraseCell (a c : Nat) (l : List Host.Cell) :
    lookupCell (eraseCell a l) c = if a = c then none else lookupCell l c := by
  induction l with
  | nil => simp [eraseCell, lookupCell]
  | cons p t ih =>
    obtain ⟨b, w⟩ := p
    simp only [eraseCell, lookupCell]
    by_cases hb : b = a
    · subst hb
      simp only [↓reduceIte, ih]
      by_cases h : b = c <;> simp [h]
    · by_cases hc : b = c
      · subst hc
        rw [if_neg hb, if_neg (Ne.symm hb)]
        simp [lookupCell]
      · simp [hb, hc, lookupCell, ih]

theorem mem_insertCell {a : Nat} {v : Byte} {c : Host.Cell} :
    ∀ {l : List Host.Cell}, c ∈ insertCell a v l → c = (a, v) ∨ c ∈ l
  | [], h => by simpa [insertCell] using h
  | (b, w) :: t, h => by
    simp only [insertCell] at h
    split at h
    · simpa using h
    · split at h
      · rcases List.mem_cons.mp h with h | h
        exacts [.inl h, .inr (List.mem_cons_of_mem _ h)]
      · rcases List.mem_cons.mp h with h | h
        · exact .inr (by simp [h])
        · rcases mem_insertCell h with h | h
          exacts [.inl h, .inr (List.mem_cons_of_mem _ h)]

theorem eraseCell_sublist (a : Nat) : ∀ l : List Host.Cell, (eraseCell a l).Sublist l
  | [] => .slnil
  | (b, w) :: t => by
    simp only [eraseCell]
    split
    · exact (eraseCell_sublist a t).cons _
    · exact (eraseCell_sublist a t).cons_cons _

theorem insertCell_rising {a : Nat} {v : Byte} :
    ∀ {l : List Host.Cell}, (l.map Prod.fst).Pairwise (· < ·) → ((insertCell a v l).map Prod.fst).Pairwise (· < ·)
  | [], _ => by simp [insertCell]
  | (b, w) :: t, h => by
    simp only [List.map_cons, List.pairwise_cons, List.mem_map] at h
    obtain ⟨hb, ht⟩ := h
    simp only [insertCell]
    split
    · rename_i hab
      simp only [List.map_cons, List.pairwise_cons, List.mem_cons, List.mem_map]
      refine ⟨?_, hb, ht⟩
      rintro c (rfl | hc)
      exacts [hab, hab.trans (hb c hc)]
    · split
      · rename_i _ hab
        subst hab
        simp only [List.map_cons, List.pairwise_cons, List.mem_map]
        exact ⟨hb, ht⟩
      · rename_i h1 h2
        simp only [List.map_cons, List.pairwise_cons, List.mem_map]
        refine ⟨?_, insertCell_rising ht⟩
        rintro c ⟨p, hp, rfl⟩
        rcases mem_insertCell hp with rfl | hp
        · simp only
          omega
        · exact hb _ ⟨p, hp, rfl⟩

theorem notMem_eraseCell {a : Nat} {l : List Host.Cell} {c : Host.Cell} (h : c ∈ eraseCell a l) : c.1 ≠ a := by
  induction l with
  | nil => simp [eraseCell] at h
  | cons p t ih =>
    simp only [eraseCell] at h
    split at h
    · exact ih h
    · rcases List.mem_cons.mp h with h | h
      · rw [h]
        assumption
      · exact ih h

@[simp] theorem Memory.unwritten_write (m : Memory) (a : Nat) (v : Byte) : (m.write a v).unwritten = m.unwritten := by
  simp only [Memory.write]
  split <;> rfl

@[simp] theorem Memory.unlisted_write (m : Memory) (a c : Nat) (v : Byte) : (m.write a v).unlisted c = m.unlisted c := by
  simp [Memory.unlisted]

/-- A read after a write (R63, R64). -/
theorem Memory.read_write (m : Memory) (a c : Nat) (v : Byte) :
    (m.write a v).read c = if a = c then v else m.read c := by
  have hu := m.unlisted_write a c v
  simp only [Memory.read, hu]
  by_cases hv : v = m.unlisted a
  · simp only [Memory.write, if_pos hv, lookupCell_eraseCell]
    by_cases h : a = c
    · subst h
      simp [hv]
    · simp [h]
  · simp only [Memory.write, if_neg hv, lookupCell_insertCell]
    by_cases h : a = c <;> simp [h]

@[simp] theorem Memory.read_write_self (m : Memory) (a : Nat) (v : Byte) : (m.write a v).read a = v := by
  simp [Memory.read_write]

theorem Memory.read_write_of_ne {m : Memory} {a c : Nat} {v : Byte} (h : a ≠ c) : (m.write a v).read c = m.read c := by
  simp [Memory.read_write, h]

/-- A write keeps the canonical form. -/
theorem Memory.wf_write {m : Memory} (h : m.wf) (a : Nat) (v : Byte) : (m.write a v).wf := by
  obtain ⟨hr, hd⟩ := h
  refine ⟨?_, fun c hc => ?_⟩
  · simp only [Memory.write]
    split
    · exact hr.sublist ((eraseCell_sublist a m.cells).map Prod.fst)
    · exact insertCell_rising hr
  · rw [Memory.unlisted_write]
    simp only [Memory.write] at hc
    split at hc
    · exact hd c ((eraseCell_sublist a m.cells).subset hc)
    · rcases mem_insertCell hc with rfl | hc
      · assumption
      · exact hd c hc

theorem Memory.inSpace_write {cfg : Cfg} {m : Memory} (h : m.inSpace cfg) {a : Nat} (ha : memValid cfg a = true) (v : Byte) :
    (m.write a v).inSpace cfg := by
  intro c hc
  simp only [Memory.write] at hc
  split at hc
  · exact h c ((eraseCell_sublist a m.cells).subset hc)
  · rcases mem_insertCell hc with rfl | hc
    exacts [ha, h c hc]

/-- In a list with rising addresses a listed cell is the one found. -/
theorem lookupCell_of_mem {l : List Host.Cell} (h : (l.map Prod.fst).Pairwise (· < ·)) {c : Host.Cell} (hc : c ∈ l) :
    lookupCell l c.1 = some c.2 := by
  induction l with
  | nil => cases hc
  | cons p t ih =>
    obtain ⟨b, w⟩ := p
    simp only [List.map_cons, List.pairwise_cons, List.mem_map] at h
    rcases List.mem_cons.mp hc with rfl | hc
    · simp [lookupCell]
    · have : b < c.1 := h.1 _ ⟨c, hc, rfl⟩
      have : b ≠ c.1 := by omega
      simp [lookupCell, this, ih h.2 hc]

/-! ### The access primitives -/

theorem memRead_byte_ok {cfg : Cfg} {m : Memory} {a : Nat} (h : memValid cfg a = true) :
    memRead cfg m a .byte = .ok (m.read a).toNat := by
  simp [memRead, h]

theorem memRead_half_ok {cfg : Cfg} {m : Memory} {a : Nat} (h : memValid cfg a = true) (h' : memValid cfg (a + 1) = true) :
    memRead cfg m a .half = .ok ((m.read a).toNat + 256 * (m.read (a + 1)).toNat) := by
  simp [memRead, h, h']

theorem memWrite_byte_ok {cfg : Cfg} {m : Memory} {a v : Nat} (h : memValid cfg a = true) :
    memWrite cfg m a .byte v = .ok (m.write a (BitVec.ofNat 8 v)) := by
  simp [memWrite, h]

theorem memWrite_half_ok {cfg : Cfg} {m : Memory} {a v : Nat} (h : memValid cfg a = true) (h' : memValid cfg (a + 1) = true) :
    memWrite cfg m a .half v = .ok ((m.write a (BitVec.ofNat 8 v)).write (a + 1) (BitVec.ofNat 8 (v / 256))) := by
  simp [memWrite, h, h']

/-- An engine read fails only with ErrBus (R63). -/
theorem memRead_error {cfg : Cfg} {m : Memory} {a : Nat} {n : AccessSize} {e : CmdError} (h : memRead cfg m a n = .error e) :
    e = .bus := by
  cases n <;> simp only [memRead] at h <;> split at h <;> cases h <;> rfl

/-- An engine write fails only with ErrBus (R64). -/
theorem memWrite_error {cfg : Cfg} {m : Memory} {a v : Nat} {n : AccessSize} {e : CmdError}
    (h : memWrite cfg m a n v = .error e) : e = .bus := by
  cases n <;> simp only [memWrite] at h <;> split at h <;> cases h <;> rfl

/-- Everything a successful engine write does (R64): the bytes of its width become the value's, every other byte stays, and the
canonical form is kept. -/
theorem memWrite_spec {cfg : Cfg} {m m' : Memory} {a v : Nat} {n : AccessSize} (h : memWrite cfg m a n v = .ok m') :
    (∀ c, c ≠ a → (n = .half → c ≠ a + 1) → m'.read c = m.read c) ∧ m'.read a = BitVec.ofNat 8 v ∧
      (n = .half → m'.read (a + 1) = BitVec.ofNat 8 (v / 256)) ∧ (m.wf → m'.wf) ∧ (m.inSpace cfg → m'.inSpace cfg) ∧
      m'.unwritten = m.unwritten := by
  cases n <;> simp only [memWrite] at h <;> split at h <;> cases h
  · rename_i hv
    refine ⟨fun c hc _ => ?_, by simp, by simp, fun h => Memory.wf_write h _ _, fun h => Memory.inSpace_write h hv _, by simp⟩
    exact Memory.read_write_of_ne (fun h => hc h.symm)
  · rename_i hv
    rw [Bool.and_eq_true] at hv
    refine ⟨fun c hc hc' => ?_, ?_, by simp, fun h => Memory.wf_write (Memory.wf_write h _ _) _ _,
      fun h => Memory.inSpace_write (Memory.inSpace_write h hv.1 _) hv.2 _, by simp⟩
    · rw [Memory.read_write_of_ne (fun h => hc' rfl h.symm), Memory.read_write_of_ne (fun h => hc h.symm)]
    · rw [Memory.read_write_of_ne (by omega), Memory.read_write_self]

end Sys2Proof.Machine
end

