-- ==== Sys2Proof/Laws/Convolution.lean ====
section
/-! SUPPORT. The accessors and the gradient of a pixel (spec/41_convolution.md R131 to R135, R142). -/

namespace Sys2Proof.Machine

/-- R132: for a centre with a row above and a column to the left the two accessors compute the same address. -/
theorem fastAddr_eq {src : Source} {x y : Nat} (hx : 1 ≤ x) (hy : 1 ≤ y) (i j : Nat) :
    fastAddr src x y i j = srcAddr src (x - 1 + j) (y - 1 + i) := by
  obtain ⟨x, rfl⟩ := Nat.exists_eq_add_of_le hx
  obtain ⟨y, rfl⟩ := Nat.exists_eq_add_of_le hy
  simp only [fastAddr, srcAddr, Nat.add_sub_cancel_left]
  have : ((src.base : Int) + (((1 + y) * src.s + (1 + x) : Nat) : Int) + ((i : Int) - 1) * (src.s : Int) + ((j : Int) - 1)) =
      ((src.base + (y + i) * src.s + (x + j) : Nat) : Int) := by
    push_cast
    ring
  rw [this, Int.toNat_natCast]

/-- R135: the two strategies read the same byte. -/
theorem pixelTap_eq (c : Conv) (cfg : Cfg) (m : Memory) {src : Source} {x y : Nat} (hx : 1 ≤ x) (hy : 1 ≤ y) :
    pixelTap c cfg m src x y = checkedTap cfg m src x y := by
  funext i j
  cases c
  · rfl
  · simp only [pixelTap, fastTap, checkedTap, fastAddr_eq hx hy]

theorem interior_iff {src : Source} {x y : Nat} :
    interior src x y = true ↔ 1 ≤ x ∧ x ≤ src.w - 2 ∧ 1 ≤ y ∧ y ≤ src.h - 2 := by
  simp [interior, and_assoc]

/-- R133: with nine readable taps the sums are the weighted sums. -/
theorem gradientSums_ok {tap : Nat → Nat → Except CmdError Nat} {p : Nat → Nat → Nat} (k : KernelPair)
    (h : ∀ i j, i < 3 → j < 3 → tap i j = .ok (p i j)) :
    gradientSums tap k = .ok (weightedSum k.kx p, weightedSum k.ky p) := by
  simp only [gradientSums, loopBelow]
  simp only [h 0 0 (by omega) (by omega), h 0 1 (by omega) (by omega), h 0 2 (by omega) (by omega), h 1 0 (by omega) (by omega),
    h 1 1 (by omega) (by omega), h 1 2 (by omega) (by omega), h 2 0 (by omega) (by omega), h 2 1 (by omega) (by omega),
    h 2 2 (by omega) (by omega)]
  simp [tapAt, weightedSum]

theorem gradientOf_ok {tap : Nat → Nat → Except CmdError Nat} {p : Nat → Nat → Nat} (k : KernelPair)
    (h : ∀ i j, i < 3 → j < 3 → tap i j = .ok (p i j)) :
    gradientOf tap k = .ok ((weightedSum k.kx p).natAbs, (weightedSum k.ky p).natAbs) := by
  simp [gradientOf, gradientSums_ok k h]

/-- The gradient fails only by an error of a tap. -/
theorem gradientOf_error {tap : Nat → Nat → Except CmdError Nat} {k : KernelPair} {e : CmdError} {Q : CmdError → Prop}
    (h : ∀ i j e, tap i j = .error e → Q e) (H : gradientOf tap k = .error e) : Q e := by
  simp only [gradientOf] at H
  split at H
  · rename_i hs
    cases H
    refine loopBelow_error (fun i u e he => loopBelow_error (fun j v e' he' => ?_) he) hs
    split at he'
    · rename_i hq
      cases he'
      exact h _ _ _ hq
    · cases he'
  · cases H

/-- R134: a weighted sum of nine bytes is at most 293 760 in absolute value. -/
theorem weightedSum_bound (k : Taps (BitVec 8)) {p : Nat → Nat → Nat} (hp : ∀ i j, p i j ≤ 255) :
    (weightedSum k p).natAbs ≤ 293760 := by
  have term : ∀ (b : BitVec 8) (n : Nat), n ≤ 255 → -32640 ≤ b.toInt * n ∧ b.toInt * n ≤ 32640 := by
    intro b n hn
    have h1 : -128 ≤ b.toInt := by have := BitVec.le_toInt b; norm_num at this; exact this
    have h2 : b.toInt ≤ 127 := by have := BitVec.toInt_lt (x := b); norm_num at this; omega
    constructor <;> nlinarith
  have t0 := term k.k0 _ (hp 0 0)
  have t1 := term k.k1 _ (hp 0 1)
  have t2 := term k.k2 _ (hp 0 2)
  have t3 := term k.k3 _ (hp 1 0)
  have t4 := term k.k4 _ (hp 1 1)
  have t5 := term k.k5 _ (hp 1 2)
  have t6 := term k.k6 _ (hp 2 0)
  have t7 := term k.k7 _ (hp 2 1)
  have t8 := term k.k8 _ (hp 2 2)
  simp only [weightedSum]
  omega

/-- R134: the Sobel sums of bytes are at most 1020. -/
theorem sobel_bound {p : Nat → Nat → Nat} (hp : ∀ i j, p i j ≤ 255) :
    (weightedSum sobelPair.kx p).natAbs ≤ 1020 ∧ (weightedSum sobelPair.ky p).natAbs ≤ 1020 := by
  have e : ∀ q : Nat → Nat → Nat, weightedSum sobelPair.kx q =
      -1 * q 0 0 + 0 * q 0 1 + 1 * q 0 2 + -2 * q 1 0 + 0 * q 1 1 + 2 * q 1 2 + -1 * q 2 0 + 0 * q 2 1 + 1 * q 2 2 := fun _ => rfl
  have e' : ∀ q : Nat → Nat → Nat, weightedSum sobelPair.ky q =
      -1 * q 0 0 + -2 * q 0 1 + -1 * q 0 2 + 0 * q 1 0 + 0 * q 1 1 + 0 * q 1 2 + 1 * q 2 0 + 2 * q 2 1 + 1 * q 2 2 := fun _ => rfl
  rw [e, e']
  have := hp 0 0; have := hp 0 1; have := hp 0 2; have := hp 1 0; have := hp 1 2; have := hp 2 0; have := hp 2 1; have := hp 2 2
  omega

/-- R163: any strategy gives the closed form on gradients of bytes. -/
theorem magnitude_eq (policy : RoundPolicy) (m : Mag) {gx gy : Nat} (hx : gx < 2 ^ 32) (hy : gy < 2 ^ 32) :
    magnitude policy m gx gy = magOf policy (gx * gx + gy * gy) := by
  cases m
  exacts [magnitude_newton_eq policy gx gy, magnitude_bisect_eq policy gx gy, magnitude_float_eq policy hx hy]

/-- R142: the binary64 sums over exact taps are the integer sums. -/
theorem floatSums_eq {tap : Nat → Nat → Except CmdError Nat} {p : Nat → Nat → Nat} (k : KernelPair)
    (h : ∀ i j, i < 3 → j < 3 → tap i j = .ok (p i j)) (hp : ∀ i j, p i j ≤ 255) :
    floatSums tap k = .ok (⟨weightedSum k.kx p, 0⟩, ⟨weightedSum k.ky p, 0⟩) := by
  have bw : ∀ b : BitVec 8, -128 ≤ b.toInt ∧ b.toInt ≤ 127 := fun b => by
    have h1 := BitVec.le_toInt b
    have h2 := BitVec.toInt_lt (x := b)
    norm_num at h1 h2
    omega
  have term : ∀ (b : BitVec 8) (n : Nat), n ≤ 255 → -32640 ≤ b.toInt * n ∧ b.toInt * n ≤ 32640 := by
    intro b n hn
    have := bw b
    constructor <;> nlinarith
  have add : ∀ (a : Int) (b : BitVec 8) (n : Nat), n ≤ 255 → a.natAbs ≤ 1000000 →
      f64Add ⟨a, 0⟩ (f64Mul (f64OfInt b.toInt) (f64OfInt (n : Int))) = ⟨a + b.toInt * n, 0⟩ := by
    intro a b n hn ha
    have hb := bw b
    have ht := term b n hn
    rw [f64OfInt_exact (z := b.toInt) (by norm_num; omega), f64OfInt_exact (z := (n : Int)) (by norm_num; omega),
      f64Mul_exact (by norm_num; omega), f64Add_exact (by norm_num; omega)]
  have sums : ∀ w : Taps (BitVec 8), ∀ q : Nat → Nat → Nat, (∀ i j, q i j ≤ 255) →
      f64Add (f64Add (f64Add (f64Add (f64Add (f64Add (f64Add (f64Add (f64Add ⟨0, 0⟩
        (f64Mul (f64OfInt w.k0.toInt) (f64OfInt (q 0 0 : Int)))) (f64Mul (f64OfInt w.k1.toInt) (f64OfInt (q 0 1 : Int))))
        (f64Mul (f64OfInt w.k2.toInt) (f64OfInt (q 0 2 : Int)))) (f64Mul (f64OfInt w.k3.toInt) (f64OfInt (q 1 0 : Int))))
        (f64Mul (f64OfInt w.k4.toInt) (f64OfInt (q 1 1 : Int)))) (f64Mul (f64OfInt w.k5.toInt) (f64OfInt (q 1 2 : Int))))
        (f64Mul (f64OfInt w.k6.toInt) (f64OfInt (q 2 0 : Int)))) (f64Mul (f64OfInt w.k7.toInt) (f64OfInt (q 2 1 : Int))))
        (f64Mul (f64OfInt w.k8.toInt) (f64OfInt (q 2 2 : Int))) = ⟨weightedSum w q, 0⟩ := by
    intro w q hq
    have t0 := term w.k0 _ (hq 0 0)
    have t1 := term w.k1 _ (hq 0 1)
    have t2 := term w.k2 _ (hq 0 2)
    have t3 := term w.k3 _ (hq 1 0)
    have t4 := term w.k4 _ (hq 1 1)
    have t5 := term w.k5 _ (hq 1 2)
    have t6 := term w.k6 _ (hq 2 0)
    have t7 := term w.k7 _ (hq 2 1)
    rw [add _ _ _ (hq _ _) (by simp), add _ _ _ (hq _ _) (by omega), add _ _ _ (hq _ _) (by omega),
      add _ _ _ (hq _ _) (by omega), add _ _ _ (hq _ _) (by omega), add _ _ _ (hq _ _) (by omega),
      add _ _ _ (hq _ _) (by omega), add _ _ _ (hq _ _) (by omega), add _ _ _ (hq _ _) (by omega)]
    simp only [weightedSum, zero_add]
  simp only [floatSums, loopBelow]
  simp only [h 0 0 (by omega) (by omega), h 0 1 (by omega) (by omega), h 0 2 (by omega) (by omega), h 1 0 (by omega) (by omega),
    h 1 1 (by omega) (by omega), h 1 2 (by omega) (by omega), h 2 0 (by omega) (by omega), h 2 1 (by omega) (by omega),
    h 2 2 (by omega) (by omega)]
  rw [← sums k.kx p hp, ← sums k.ky p hp]
  rfl

end Sys2Proof.Machine
end

