-- ==== Sys2Proof/Laws/Encoding.lean ====
section
/-! SUPPORT. A command word from its fields (spec/30_encoding.md Table E1), and the decoder on a word with a bit of ZERO set. -/

namespace Sys2Proof

/-- A word whose ZERO field is 0 is made of its other four fields. -/
theorem word_eq_packCommand {c : Word} (h : fieldZero c = 0) :
    c = packCommand (fieldOpc c) (fieldVar c) (fieldConv c) (fieldMag c) := by
  have hz : ∀ j, 10 ≤ j → j < 32 → c.getLsbD j = false := by
    intro j h1 h2
    have := congrArg (fun b : BitVec 22 => b.getLsbD (j - 10)) h
    simp only [fieldZero, BitVec.getLsbD_extractLsb', BitVec.ofNat_eq_ofNat, BitVec.getLsbD_zero] at this
    rw [show 10 + (j - 10) = j by omega, show decide (j - 10 < 22) = true by simp; omega] at this
    simpa using this
  simp only [fieldOpc, fieldVar, fieldConv, fieldMag, packCommand]
  apply BitVec.eq_of_getLsbD_eq
  intro i hi
  by_cases h10 : 10 ≤ i
  · rw [hz i h10 hi]
    simp [BitVec.getLsbD_extractLsb']
    omega
  · interval_cases i <;> simp

/-- A claim about the words with ZERO = 0 is a claim about their four fields, 1024 words in all. -/
theorem forall_packCommand {P : Word → Prop} (h : ∀ opc var conv mag, P (packCommand opc var conv mag)) {c : Word}
    (hz : fieldZero c = 0) : P c := word_eq_packCommand hz ▸ h _ _ _ _

/-- R98 (a). -/
theorem decode_of_zero_ne {c : Word} (h : fieldZero c ≠ 0) : decode c = .error .zeroBits := by
  unfold decode
  rw [if_pos h]

end Sys2Proof
end

