-- ==== Sys2Proof/Laws/State.lean ====
section
/-! SUPPORT. One lemma per field per shared update of the state, true by rfl, so that no later proof unfolds an update; and the
same for the functions that read several fields at once. -/

namespace Sys2Proof.Machine

/-! ### `complete` (R120, Done) -/

@[simp] theorem complete_cmd (e k : Bool) (s : State) : (complete e k s).cmd = s.cmd := rfl
@[simp] theorem complete_status (e k : Bool) (s : State) : (complete e k s).status = statusAfterDone e k s.status := rfl
@[simp] theorem complete_srcBase (e k : Bool) (s : State) : (complete e k s).srcBase = s.srcBase := rfl
@[simp] theorem complete_srcW (e k : Bool) (s : State) : (complete e k s).srcW = s.srcW := rfl
@[simp] theorem complete_srcH (e k : Bool) (s : State) : (complete e k s).srcH = s.srcH := rfl
@[simp] theorem complete_srcStride (e k : Bool) (s : State) : (complete e k s).srcStride = s.srcStride := rfl
@[simp] theorem complete_dstBase (e k : Bool) (s : State) : (complete e k s).dstBase = s.dstBase := rfl
@[simp] theorem complete_dstStride (e k : Bool) (s : State) : (complete e k s).dstStride = s.dstStride := rfl
@[simp] theorem complete_dstW (e k : Bool) (s : State) : (complete e k s).dstW = s.dstW := rfl
@[simp] theorem complete_dstH (e k : Bool) (s : State) : (complete e k s).dstH = s.dstH := rfl
@[simp] theorem complete_gxBase (e k : Bool) (s : State) : (complete e k s).gxBase = s.gxBase := rfl
@[simp] theorem complete_gyBase (e k : Bool) (s : State) : (complete e k s).gyBase = s.gyBase := rfl
@[simp] theorem complete_opX (e k : Bool) (s : State) : (complete e k s).opX = s.opX := rfl
@[simp] theorem complete_opY (e k : Bool) (s : State) : (complete e k s).opY = s.opY := rfl
@[simp] theorem complete_opGx (e k : Bool) (s : State) : (complete e k s).opGx = s.opGx := rfl
@[simp] theorem complete_opGy (e k : Bool) (s : State) : (complete e k s).opGy = s.opGy := rfl
@[simp] theorem complete_opN (e k : Bool) (s : State) : (complete e k s).opN = s.opN := rfl
@[simp] theorem complete_resGx (e k : Bool) (s : State) : (complete e k s).resGx = s.resGx := rfl
@[simp] theorem complete_resGy (e k : Bool) (s : State) : (complete e k s).resGy = s.resGy := rfl
@[simp] theorem complete_resMag (e k : Bool) (s : State) : (complete e k s).resMag = s.resMag := rfl
@[simp] theorem complete_resSqrt (e k : Bool) (s : State) : (complete e k s).resSqrt = s.resSqrt := rfl
@[simp] theorem complete_kx (e k : Bool) (s : State) : (complete e k s).kx = s.kx := rfl
@[simp] theorem complete_ky (e k : Bool) (s : State) : (complete e k s).ky = s.ky := rfl
@[simp] theorem complete_mem (e k : Bool) (s : State) : (complete e k s).mem = s.mem := rfl
@[simp] theorem complete_cfg (e k : Bool) (s : State) : (complete e k s).cfg = s.cfg := rfl
@[simp] theorem complete_host (e k : Bool) (s : State) : (complete e k s).host = s.host := rfl
@[simp] theorem complete_hostRead (e k : Bool) (s : State) : (complete e k s).hostRead = s.hostRead := rfl
@[simp] theorem complete_freeCount (e k : Bool) (s : State) : (complete e k s).freeCount = s.freeCount := rfl

/-! ### `raiseError` (R120, Fail) -/

@[simp] theorem raiseError_cmd (e : CmdError) (p : Bool) (s : State) : (raiseError e p s).cmd = s.cmd := rfl
@[simp] theorem raiseError_status (e : CmdError) (p : Bool) (s : State) : (raiseError e p s).status = statusAfterError e s.status := rfl
@[simp] theorem raiseError_srcBase (e : CmdError) (p : Bool) (s : State) : (raiseError e p s).srcBase = s.srcBase := rfl
@[simp] theorem raiseError_srcW (e : CmdError) (p : Bool) (s : State) : (raiseError e p s).srcW = s.srcW := rfl
@[simp] theorem raiseError_srcH (e : CmdError) (p : Bool) (s : State) : (raiseError e p s).srcH = s.srcH := rfl
@[simp] theorem raiseError_srcStride (e : CmdError) (p : Bool) (s : State) : (raiseError e p s).srcStride = s.srcStride := rfl
@[simp] theorem raiseError_dstBase (e : CmdError) (p : Bool) (s : State) : (raiseError e p s).dstBase = s.dstBase := rfl
@[simp] theorem raiseError_dstStride (e : CmdError) (p : Bool) (s : State) : (raiseError e p s).dstStride = s.dstStride := rfl
@[simp] theorem raiseError_dstW (e : CmdError) (p : Bool) (s : State) : (raiseError e p s).dstW = if p then 0 else s.dstW := rfl
@[simp] theorem raiseError_dstH (e : CmdError) (p : Bool) (s : State) : (raiseError e p s).dstH = if p then 0 else s.dstH := rfl
@[simp] theorem raiseError_gxBase (e : CmdError) (p : Bool) (s : State) : (raiseError e p s).gxBase = s.gxBase := rfl
@[simp] theorem raiseError_gyBase (e : CmdError) (p : Bool) (s : State) : (raiseError e p s).gyBase = s.gyBase := rfl
@[simp] theorem raiseError_opX (e : CmdError) (p : Bool) (s : State) : (raiseError e p s).opX = s.opX := rfl
@[simp] theorem raiseError_opY (e : CmdError) (p : Bool) (s : State) : (raiseError e p s).opY = s.opY := rfl
@[simp] theorem raiseError_opGx (e : CmdError) (p : Bool) (s : State) : (raiseError e p s).opGx = s.opGx := rfl
@[simp] theorem raiseError_opGy (e : CmdError) (p : Bool) (s : State) : (raiseError e p s).opGy = s.opGy := rfl
@[simp] theorem raiseError_opN (e : CmdError) (p : Bool) (s : State) : (raiseError e p s).opN = s.opN := rfl
@[simp] theorem raiseError_resGx (e : CmdError) (p : Bool) (s : State) : (raiseError e p s).resGx = s.resGx := rfl
@[simp] theorem raiseError_resGy (e : CmdError) (p : Bool) (s : State) : (raiseError e p s).resGy = s.resGy := rfl
@[simp] theorem raiseError_resMag (e : CmdError) (p : Bool) (s : State) : (raiseError e p s).resMag = s.resMag := rfl
@[simp] theorem raiseError_resSqrt (e : CmdError) (p : Bool) (s : State) : (raiseError e p s).resSqrt = s.resSqrt := rfl
@[simp] theorem raiseError_kx (e : CmdError) (p : Bool) (s : State) : (raiseError e p s).kx = s.kx := rfl
@[simp] theorem raiseError_ky (e : CmdError) (p : Bool) (s : State) : (raiseError e p s).ky = s.ky := rfl
@[simp] theorem raiseError_mem (e : CmdError) (p : Bool) (s : State) : (raiseError e p s).mem = s.mem := rfl
@[simp] theorem raiseError_cfg (e : CmdError) (p : Bool) (s : State) : (raiseError e p s).cfg = s.cfg := rfl
@[simp] theorem raiseError_host (e : CmdError) (p : Bool) (s : State) : (raiseError e p s).host = s.host := rfl
@[simp] theorem raiseError_hostRead (e : CmdError) (p : Bool) (s : State) : (raiseError e p s).hostRead = s.hostRead := rfl
@[simp] theorem raiseError_freeCount (e : CmdError) (p : Bool) (s : State) : (raiseError e p s).freeCount = s.freeCount := rfl

/-! ### `publish` (R33) -/

@[simp] theorem publish_cmd (w h : Nat) (s : State) : (publish w h s).cmd = s.cmd := rfl
@[simp] theorem publish_status (w h : Nat) (s : State) : (publish w h s).status = s.status := rfl
@[simp] theorem publish_srcBase (w h : Nat) (s : State) : (publish w h s).srcBase = s.srcBase := rfl
@[simp] theorem publish_srcW (w h : Nat) (s : State) : (publish w h s).srcW = s.srcW := rfl
@[simp] theorem publish_srcH (w h : Nat) (s : State) : (publish w h s).srcH = s.srcH := rfl
@[simp] theorem publish_srcStride (w h : Nat) (s : State) : (publish w h s).srcStride = s.srcStride := rfl
@[simp] theorem publish_dstBase (w h : Nat) (s : State) : (publish w h s).dstBase = s.dstBase := rfl
@[simp] theorem publish_dstStride (w h : Nat) (s : State) : (publish w h s).dstStride = s.dstStride := rfl
@[simp] theorem publish_dstW (w h : Nat) (s : State) : (publish w h s).dstW = BitVec.ofNat 16 w := rfl
@[simp] theorem publish_dstH (w h : Nat) (s : State) : (publish w h s).dstH = BitVec.ofNat 16 h := rfl
@[simp] theorem publish_gxBase (w h : Nat) (s : State) : (publish w h s).gxBase = s.gxBase := rfl
@[simp] theorem publish_gyBase (w h : Nat) (s : State) : (publish w h s).gyBase = s.gyBase := rfl
@[simp] theorem publish_opX (w h : Nat) (s : State) : (publish w h s).opX = s.opX := rfl
@[simp] theorem publish_opY (w h : Nat) (s : State) : (publish w h s).opY = s.opY := rfl
@[simp] theorem publish_opGx (w h : Nat) (s : State) : (publish w h s).opGx = s.opGx := rfl
@[simp] theorem publish_opGy (w h : Nat) (s : State) : (publish w h s).opGy = s.opGy := rfl
@[simp] theorem publish_opN (w h : Nat) (s : State) : (publish w h s).opN = s.opN := rfl
@[simp] theorem publish_resGx (w h : Nat) (s : State) : (publish w h s).resGx = s.resGx := rfl
@[simp] theorem publish_resGy (w h : Nat) (s : State) : (publish w h s).resGy = s.resGy := rfl
@[simp] theorem publish_resMag (w h : Nat) (s : State) : (publish w h s).resMag = s.resMag := rfl
@[simp] theorem publish_resSqrt (w h : Nat) (s : State) : (publish w h s).resSqrt = s.resSqrt := rfl
@[simp] theorem publish_kx (w h : Nat) (s : State) : (publish w h s).kx = s.kx := rfl
@[simp] theorem publish_ky (w h : Nat) (s : State) : (publish w h s).ky = s.ky := rfl
@[simp] theorem publish_mem (w h : Nat) (s : State) : (publish w h s).mem = s.mem := rfl
@[simp] theorem publish_cfg (w h : Nat) (s : State) : (publish w h s).cfg = s.cfg := rfl
@[simp] theorem publish_host (w h : Nat) (s : State) : (publish w h s).host = s.host := rfl
@[simp] theorem publish_hostRead (w h : Nat) (s : State) : (publish w h s).hostRead = s.hostRead := rfl
@[simp] theorem publish_freeCount (w h : Nat) (s : State) : (publish w h s).freeCount = s.freeCount := rfl

/-! ### `clearAnyErr` (R24) -/

@[simp] theorem clearAnyErr_cmd (w : Word) (s : State) : (clearAnyErr w s).cmd = s.cmd := rfl
@[simp] theorem clearAnyErr_status (w : Word) (s : State) : (clearAnyErr w s).status = statusAfterWrite w s.status := rfl
@[simp] theorem clearAnyErr_srcBase (w : Word) (s : State) : (clearAnyErr w s).srcBase = s.srcBase := rfl
@[simp] theorem clearAnyErr_srcW (w : Word) (s : State) : (clearAnyErr w s).srcW = s.srcW := rfl
@[simp] theorem clearAnyErr_srcH (w : Word) (s : State) : (clearAnyErr w s).srcH = s.srcH := rfl
@[simp] theorem clearAnyErr_srcStride (w : Word) (s : State) : (clearAnyErr w s).srcStride = s.srcStride := rfl
@[simp] theorem clearAnyErr_dstBase (w : Word) (s : State) : (clearAnyErr w s).dstBase = s.dstBase := rfl
@[simp] theorem clearAnyErr_dstStride (w : Word) (s : State) : (clearAnyErr w s).dstStride = s.dstStride := rfl
@[simp] theorem clearAnyErr_dstW (w : Word) (s : State) : (clearAnyErr w s).dstW = s.dstW := rfl
@[simp] theorem clearAnyErr_dstH (w : Word) (s : State) : (clearAnyErr w s).dstH = s.dstH := rfl
@[simp] theorem clearAnyErr_gxBase (w : Word) (s : State) : (clearAnyErr w s).gxBase = s.gxBase := rfl
@[simp] theorem clearAnyErr_gyBase (w : Word) (s : State) : (clearAnyErr w s).gyBase = s.gyBase := rfl
@[simp] theorem clearAnyErr_opX (w : Word) (s : State) : (clearAnyErr w s).opX = s.opX := rfl
@[simp] theorem clearAnyErr_opY (w : Word) (s : State) : (clearAnyErr w s).opY = s.opY := rfl
@[simp] theorem clearAnyErr_opGx (w : Word) (s : State) : (clearAnyErr w s).opGx = s.opGx := rfl
@[simp] theorem clearAnyErr_opGy (w : Word) (s : State) : (clearAnyErr w s).opGy = s.opGy := rfl
@[simp] theorem clearAnyErr_opN (w : Word) (s : State) : (clearAnyErr w s).opN = s.opN := rfl
@[simp] theorem clearAnyErr_resGx (w : Word) (s : State) : (clearAnyErr w s).resGx = s.resGx := rfl
@[simp] theorem clearAnyErr_resGy (w : Word) (s : State) : (clearAnyErr w s).resGy = s.resGy := rfl
@[simp] theorem clearAnyErr_resMag (w : Word) (s : State) : (clearAnyErr w s).resMag = s.resMag := rfl
@[simp] theorem clearAnyErr_resSqrt (w : Word) (s : State) : (clearAnyErr w s).resSqrt = s.resSqrt := rfl
@[simp] theorem clearAnyErr_kx (w : Word) (s : State) : (clearAnyErr w s).kx = s.kx := rfl
@[simp] theorem clearAnyErr_ky (w : Word) (s : State) : (clearAnyErr w s).ky = s.ky := rfl
@[simp] theorem clearAnyErr_mem (w : Word) (s : State) : (clearAnyErr w s).mem = s.mem := rfl
@[simp] theorem clearAnyErr_cfg (w : Word) (s : State) : (clearAnyErr w s).cfg = s.cfg := rfl
@[simp] theorem clearAnyErr_host (w : Word) (s : State) : (clearAnyErr w s).host = s.host := rfl
@[simp] theorem clearAnyErr_hostRead (w : Word) (s : State) : (clearAnyErr w s).hostRead = s.hostRead := rfl
@[simp] theorem clearAnyErr_freeCount (w : Word) (s : State) : (clearAnyErr w s).freeCount = s.freeCount := rfl

/-! ### `leaveResidue` (R220, U3) -/

@[simp] theorem leaveResidue_cmd (l : List Rect) (s : State) : (leaveResidue l s).cmd = s.cmd := rfl
@[simp] theorem leaveResidue_status (l : List Rect) (s : State) : (leaveResidue l s).status = s.status := rfl
@[simp] theorem leaveResidue_srcBase (l : List Rect) (s : State) : (leaveResidue l s).srcBase = s.srcBase := rfl
@[simp] theorem leaveResidue_srcW (l : List Rect) (s : State) : (leaveResidue l s).srcW = s.srcW := rfl
@[simp] theorem leaveResidue_srcH (l : List Rect) (s : State) : (leaveResidue l s).srcH = s.srcH := rfl
@[simp] theorem leaveResidue_srcStride (l : List Rect) (s : State) : (leaveResidue l s).srcStride = s.srcStride := rfl
@[simp] theorem leaveResidue_dstBase (l : List Rect) (s : State) : (leaveResidue l s).dstBase = s.dstBase := rfl
@[simp] theorem leaveResidue_dstStride (l : List Rect) (s : State) : (leaveResidue l s).dstStride = s.dstStride := rfl
@[simp] theorem leaveResidue_dstW (l : List Rect) (s : State) : (leaveResidue l s).dstW = s.dstW := rfl
@[simp] theorem leaveResidue_dstH (l : List Rect) (s : State) : (leaveResidue l s).dstH = s.dstH := rfl
@[simp] theorem leaveResidue_gxBase (l : List Rect) (s : State) : (leaveResidue l s).gxBase = s.gxBase := rfl
@[simp] theorem leaveResidue_gyBase (l : List Rect) (s : State) : (leaveResidue l s).gyBase = s.gyBase := rfl
@[simp] theorem leaveResidue_opX (l : List Rect) (s : State) : (leaveResidue l s).opX = s.opX := rfl
@[simp] theorem leaveResidue_opY (l : List Rect) (s : State) : (leaveResidue l s).opY = s.opY := rfl
@[simp] theorem leaveResidue_opGx (l : List Rect) (s : State) : (leaveResidue l s).opGx = s.opGx := rfl
@[simp] theorem leaveResidue_opGy (l : List Rect) (s : State) : (leaveResidue l s).opGy = s.opGy := rfl
@[simp] theorem leaveResidue_opN (l : List Rect) (s : State) : (leaveResidue l s).opN = s.opN := rfl
@[simp] theorem leaveResidue_resGx (l : List Rect) (s : State) : (leaveResidue l s).resGx = s.resGx := rfl
@[simp] theorem leaveResidue_resGy (l : List Rect) (s : State) : (leaveResidue l s).resGy = s.resGy := rfl
@[simp] theorem leaveResidue_resMag (l : List Rect) (s : State) : (leaveResidue l s).resMag = s.resMag := rfl
@[simp] theorem leaveResidue_resSqrt (l : List Rect) (s : State) : (leaveResidue l s).resSqrt = s.resSqrt := rfl
@[simp] theorem leaveResidue_kx (l : List Rect) (s : State) : (leaveResidue l s).kx = s.kx := rfl
@[simp] theorem leaveResidue_ky (l : List Rect) (s : State) : (leaveResidue l s).ky = s.ky := rfl
@[simp] theorem leaveResidue_mem (l : List Rect) (s : State) : (leaveResidue l s).mem = l.foldl (fun m r => scatterResidue s.cfg s.freeCount r m) s.mem := rfl
@[simp] theorem leaveResidue_cfg (l : List Rect) (s : State) : (leaveResidue l s).cfg = s.cfg := rfl
@[simp] theorem leaveResidue_host (l : List Rect) (s : State) : (leaveResidue l s).host = s.host := rfl
@[simp] theorem leaveResidue_hostRead (l : List Rect) (s : State) : (leaveResidue l s).hostRead = s.hostRead := rfl
@[simp] theorem leaveResidue_freeCount (l : List Rect) (s : State) : (leaveResidue l s).freeCount = s.freeCount + 1 := rfl

/-! ### `resetRegisters` (R240) -/

@[simp] theorem resetRegisters_cmd (s : State) : (resetRegisters s).cmd = 0 := rfl
@[simp] theorem resetRegisters_status (s : State) : (resetRegisters s).status = 0 := rfl
@[simp] theorem resetRegisters_srcBase (s : State) : (resetRegisters s).srcBase = 0 := rfl
@[simp] theorem resetRegisters_srcW (s : State) : (resetRegisters s).srcW = 0 := rfl
@[simp] theorem resetRegisters_srcH (s : State) : (resetRegisters s).srcH = 0 := rfl
@[simp] theorem resetRegisters_srcStride (s : State) : (resetRegisters s).srcStride = 0 := rfl
@[simp] theorem resetRegisters_dstBase (s : State) : (resetRegisters s).dstBase = 0 := rfl
@[simp] theorem resetRegisters_dstStride (s : State) : (resetRegisters s).dstStride = 0 := rfl
@[simp] theorem resetRegisters_dstW (s : State) : (resetRegisters s).dstW = 0 := rfl
@[simp] theorem resetRegisters_dstH (s : State) : (resetRegisters s).dstH = 0 := rfl
@[simp] theorem resetRegisters_gxBase (s : State) : (resetRegisters s).gxBase = 0 := rfl
@[simp] theorem resetRegisters_gyBase (s : State) : (resetRegisters s).gyBase = 0 := rfl
@[simp] theorem resetRegisters_opX (s : State) : (resetRegisters s).opX = 0 := rfl
@[simp] theorem resetRegisters_opY (s : State) : (resetRegisters s).opY = 0 := rfl
@[simp] theorem resetRegisters_opGx (s : State) : (resetRegisters s).opGx = 0 := rfl
@[simp] theorem resetRegisters_opGy (s : State) : (resetRegisters s).opGy = 0 := rfl
@[simp] theorem resetRegisters_opN (s : State) : (resetRegisters s).opN = 0 := rfl
@[simp] theorem resetRegisters_resGx (s : State) : (resetRegisters s).resGx = 0 := rfl
@[simp] theorem resetRegisters_resGy (s : State) : (resetRegisters s).resGy = 0 := rfl
@[simp] theorem resetRegisters_resMag (s : State) : (resetRegisters s).resMag = 0 := rfl
@[simp] theorem resetRegisters_resSqrt (s : State) : (resetRegisters s).resSqrt = 0 := rfl
@[simp] theorem resetRegisters_kx (s : State) : (resetRegisters s).kx = zeroTaps := rfl
@[simp] theorem resetRegisters_ky (s : State) : (resetRegisters s).ky = zeroTaps := rfl
@[simp] theorem resetRegisters_mem (s : State) : (resetRegisters s).mem = s.mem := rfl
@[simp] theorem resetRegisters_cfg (s : State) : (resetRegisters s).cfg = s.cfg := rfl
@[simp] theorem resetRegisters_host (s : State) : (resetRegisters s).host = s.host := rfl
@[simp] theorem resetRegisters_hostRead (s : State) : (resetRegisters s).hostRead = s.hostRead := rfl
@[simp] theorem resetRegisters_freeCount (s : State) : (resetRegisters s).freeCount = s.freeCount := rfl

/-! ### `pushCommand` -/

@[simp] theorem pushCommand_cmd (c : Word) (s : State) : (pushCommand c s).cmd = s.cmd := rfl
@[simp] theorem pushCommand_status (c : Word) (s : State) : (pushCommand c s).status = s.status := rfl
@[simp] theorem pushCommand_srcBase (c : Word) (s : State) : (pushCommand c s).srcBase = s.srcBase := rfl
@[simp] theorem pushCommand_srcW (c : Word) (s : State) : (pushCommand c s).srcW = s.srcW := rfl
@[simp] theorem pushCommand_srcH (c : Word) (s : State) : (pushCommand c s).srcH = s.srcH := rfl
@[simp] theorem pushCommand_srcStride (c : Word) (s : State) : (pushCommand c s).srcStride = s.srcStride := rfl
@[simp] theorem pushCommand_dstBase (c : Word) (s : State) : (pushCommand c s).dstBase = s.dstBase := rfl
@[simp] theorem pushCommand_dstStride (c : Word) (s : State) : (pushCommand c s).dstStride = s.dstStride := rfl
@[simp] theorem pushCommand_dstW (c : Word) (s : State) : (pushCommand c s).dstW = s.dstW := rfl
@[simp] theorem pushCommand_dstH (c : Word) (s : State) : (pushCommand c s).dstH = s.dstH := rfl
@[simp] theorem pushCommand_gxBase (c : Word) (s : State) : (pushCommand c s).gxBase = s.gxBase := rfl
@[simp] theorem pushCommand_gyBase (c : Word) (s : State) : (pushCommand c s).gyBase = s.gyBase := rfl
@[simp] theorem pushCommand_opX (c : Word) (s : State) : (pushCommand c s).opX = s.opX := rfl
@[simp] theorem pushCommand_opY (c : Word) (s : State) : (pushCommand c s).opY = s.opY := rfl
@[simp] theorem pushCommand_opGx (c : Word) (s : State) : (pushCommand c s).opGx = s.opGx := rfl
@[simp] theorem pushCommand_opGy (c : Word) (s : State) : (pushCommand c s).opGy = s.opGy := rfl
@[simp] theorem pushCommand_opN (c : Word) (s : State) : (pushCommand c s).opN = s.opN := rfl
@[simp] theorem pushCommand_resGx (c : Word) (s : State) : (pushCommand c s).resGx = s.resGx := rfl
@[simp] theorem pushCommand_resGy (c : Word) (s : State) : (pushCommand c s).resGy = s.resGy := rfl
@[simp] theorem pushCommand_resMag (c : Word) (s : State) : (pushCommand c s).resMag = s.resMag := rfl
@[simp] theorem pushCommand_resSqrt (c : Word) (s : State) : (pushCommand c s).resSqrt = s.resSqrt := rfl
@[simp] theorem pushCommand_kx (c : Word) (s : State) : (pushCommand c s).kx = s.kx := rfl
@[simp] theorem pushCommand_ky (c : Word) (s : State) : (pushCommand c s).ky = s.ky := rfl
@[simp] theorem pushCommand_mem (c : Word) (s : State) : (pushCommand c s).mem = s.mem := rfl
@[simp] theorem pushCommand_cfg (c : Word) (s : State) : (pushCommand c s).cfg = s.cfg := rfl
@[simp] theorem pushCommand_host (c : Word) (s : State) : (pushCommand c s).host = .regWrite 0 4 c :: s.host := rfl
@[simp] theorem pushCommand_hostRead (c : Word) (s : State) : (pushCommand c s).hostRead = s.hostRead := rfl
@[simp] theorem pushCommand_freeCount (c : Word) (s : State) : (pushCommand c s).freeCount = s.freeCount := rfl

/-! ### Reads of several fields -/

@[simp] theorem sourceOf_complete (e k : Bool) (s : State) : sourceOf (complete e k s) = sourceOf s := rfl
@[simp] theorem sourceOf_publish (w h : Nat) (s : State) : sourceOf (publish w h s) = sourceOf s := rfl
@[simp] theorem sourceOf_raiseError (e : CmdError) (p : Bool) (s : State) : sourceOf (raiseError e p s) = sourceOf s := rfl
@[simp] theorem sourceOf_leaveResidue (l : List Rect) (s : State) : sourceOf (leaveResidue l s) = sourceOf s := rfl
@[simp] theorem dstStrideOf_leaveResidue (l : List Rect) (s : State) (w : Nat) :
    dstStrideOf (leaveResidue l s) w = dstStrideOf s w := rfl

end Sys2Proof.Machine
end

