-- ==== Sys2Proof/Laws/Image.lean ====
section
/-! SUPPORT. The checks of the image-producing commands as the conditions of spec/60_exceptions.md (R212 to R216, R219), the ways
such a command ends, the geometry of footprints (R66 to R68, R79), and what the store loops leave in memory. -/

namespace Sys2Proof.Machine

/-! ### The checks -/

theorem hullsMeet_eq_false {r q : Rect} : hullsMeet r q = false ↔ HullsDisjoint r q := by
  simp only [hullsMeet, HullsDisjoint, Bool.not_eq_false', Bool.or_eq_true, decide_eq_true_eq]

/-- R79: no two hulls meet exactly when they are pairwise disjoint. -/
theorem someHullsMeet_eq_false {l : List Rect} : someHullsMeet l = false ↔ l.Pairwise HullsDisjoint := by
  induction l with
  | nil => simp [someHullsMeet]
  | cons r t ih => simp [someHullsMeet, ih, hullsMeet_eq_false]

theorem rectValid_iff {cfg : Cfg} {r : Rect} : rectValid cfg r = true ↔ RectExists cfg r := allXY_iff

/-- R139, R219: the outcome of the checks is the first of the conditions, in ascending order of code, that holds. -/
theorem imageChecks_cases (s : State) (d p : Bool) (ow oh : Nat) :
    (ConfigBad s d p ow oh ∧ imageChecks s d p ow oh = .error .config) ∨
    (¬ ConfigBad s d p ow oh ∧ AlignBad s p ∧ imageChecks s d p ow oh = .error .align) ∨
    (¬ ConfigBad s d p ow oh ∧ ¬ AlignBad s p ∧ OverlapBad s d p ow oh ∧ imageChecks s d p ow oh = .error .overlap) ∨
    (¬ ConfigBad s d p ow oh ∧ ¬ AlignBad s p ∧ ¬ OverlapBad s d p ow oh ∧ BusBad s d p ow oh ∧
      imageChecks s d p ow oh = .error .bus) ∨
    (ChecksPass s d p ow oh ∧ imageChecks s d p ow oh = .ok ()) := by
  unfold imageChecks
  by_cases h1 : (sourceOf s).s < (sourceOf s).w
  · exact .inl ⟨.inl h1, by simp [h1]⟩
  by_cases h2 : d = true ∧ dstStrideOf s ow < ow
  · exact .inl ⟨.inr (.inl h2), by simp [h1, h2]⟩
  by_cases h3 : ∃ r ∈ srcRect (sourceOf s) :: writeFoot s d p ow oh, 2 ^ 32 ≤ hullEnd r
  · refine .inl ⟨.inr (.inr h3), ?_⟩
    have : (srcRect (sourceOf s) :: writeFoot s d p ow oh).any (fun r => decide (Config.addrLimit ≤ hullEnd r)) = true := by
      obtain ⟨r, hr, hh⟩ := h3
      exact List.any_eq_true.mpr ⟨r, hr, decide_eq_true (show Config.addrLimit ≤ hullEnd r from hh)⟩
    have h2' : (d && decide (dstStrideOf s ow < ow)) = false := by simpa using h2
    simp only [h1, if_false, h2', Bool.false_eq_true, this, if_true]
  have hc : ¬ ConfigBad s d p ow oh := by rintro (h | h | h) <;> contradiction
  have e2 : (d && decide (dstStrideOf s ow < ow)) = false := by simpa using h2
  have e3 : (srcRect (sourceOf s) :: writeFoot s d p ow oh).any (fun r => decide (Config.addrLimit ≤ hullEnd r)) = false := by
    rw [List.any_eq_false]
    exact fun r hr hh => h3 ⟨r, hr, of_decide_eq_true hh⟩
  simp only [h1, if_false, e2, e3, Bool.false_eq_true]
  by_cases h4 : AlignBad s p
  · refine .inr (.inl ⟨hc, h4, ?_⟩)
    have : (p && (decide (s.gxBase.toNat % 2 = 1) || decide (s.gyBase.toNat % 2 = 1))) = true := by simpa [AlignBad] using h4
    simp only [this, if_true]
  have e4 : (p && (decide (s.gxBase.toNat % 2 = 1) || decide (s.gyBase.toNat % 2 = 1))) = false := by
    rw [Bool.eq_false_iff]
    exact fun h => h4 (by simpa [AlignBad] using h)
  simp only [e4, Bool.false_eq_true, if_false]
  by_cases h5 : someHullsMeet (srcRect (sourceOf s) :: writeFoot s d p ow oh) = true
  · refine .inr (.inr (.inl ⟨hc, h4, ?_, by simp only [h5, if_true]⟩))
    rw [OverlapBad, ← someHullsMeet_eq_false]
    simp [h5]
  have e5 := Bool.eq_false_iff.mpr h5
  have ho : ¬ OverlapBad s d p ow oh := fun h => h (someHullsMeet_eq_false.mp e5)
  simp only [e5, Bool.false_eq_true, if_false]
  by_cases h6 : (srcRect (sourceOf s) :: writeFoot s d p ow oh).all (rectValid s.cfg) = true
  · refine .inr (.inr (.inr (.inr ⟨⟨hc, h4, ho, ?_⟩, by simp only [h6, if_true]⟩)))
    rintro ⟨r, hr, hn⟩
    exact hn (rectValid_iff.mp (List.all_eq_true.mp h6 r hr))
  · refine .inr (.inr (.inr (.inl ⟨hc, h4, ho, ?_, by simp only [Bool.eq_false_iff.mpr h6, Bool.false_eq_true, if_false]⟩)))
    rw [Bool.not_eq_true, List.all_eq_false] at h6
    obtain ⟨r, hr, hn⟩ := h6
    exact ⟨r, hr, fun h => hn (rectValid_iff.mpr h)⟩

theorem imageChecks_ok {s : State} {d p : Bool} {ow oh : Nat} (h : ChecksPass s d p ow oh) :
    imageChecks s d p ow oh = .ok () := by
  obtain ⟨h1, h2, h3, h4⟩ := h
  rcases imageChecks_cases s d p ow oh with h | h | h | h | h
  exacts [absurd h.1 h1, absurd h.2.1 h2, absurd h.2.2.1 h3, absurd h.2.2.2.1 h4, h.2]

theorem checksPass_of_ok {s : State} {d p : Bool} {ow oh : Nat} (h : imageChecks s d p ow oh = .ok ()) :
    ChecksPass s d p ow oh := by
  rcases imageChecks_cases s d p ow oh with h' | h' | h' | h' | h'
  · rw [h'.2] at h; cases h
  · rw [h'.2.2] at h; cases h
  · rw [h'.2.2.2] at h; cases h
  · rw [h'.2.2.2.2] at h; cases h
  · exact h'.1

/-- A command that passes its checks has its whole source image (R66, R216). -/
theorem ChecksPass.source {s : State} {d p : Bool} {ow oh : Nat} (h : ChecksPass s d p ow oh) :
    RectExists s.cfg (srcRect (sourceOf s)) := by
  by_contra hn
  exact h.2.2.2 ⟨_, List.mem_cons_self, hn⟩

/-- The checks fail only with these four errors. -/
theorem imageChecks_error {s : State} {d p : Bool} {ow oh : Nat} {e : CmdError} (h : imageChecks s d p ow oh = .error e) :
    e = .config ∨ e = .align ∨ e = .overlap ∨ e = .bus := by
  rcases imageChecks_cases s d p ow oh with h' | h' | h' | h' | h'
  · rw [h'.2] at h; cases h; simp
  · rw [h'.2.2] at h; cases h; simp
  · rw [h'.2.2.2] at h; cases h; simp
  · rw [h'.2.2.2.2] at h; cases h; simp
  · rw [h'.2] at h; cases h

/-! ### The ends of an image-producing command -/

/-- Everything `imageCommand` can do. -/
theorem imageCommand_cases (d p : Bool) (ow oh : Nat) (knil : Bool) (body : Memory → Except CmdError Memory) (s : State) :
    (undersized (sourceOf s) = true ∧ imageCommand d p ow oh knil body s = complete true knil (publish 0 0 s)) ∨
    (undersized (sourceOf s) = false ∧ ∃ e, imageChecks s d p ow oh = .error e ∧
      imageCommand d p ow oh knil body s = imageError e (writeFoot s d p ow oh) s) ∨
    (undersized (sourceOf s) = false ∧ ∃ e, imageChecks s d p ow oh = .ok () ∧ body s.mem = .error e ∧
      imageCommand d p ow oh knil body s = imageError e (writeFoot s d p ow oh) s) ∨
    (undersized (sourceOf s) = false ∧ ∃ m, imageChecks s d p ow oh = .ok () ∧ body s.mem = .ok m ∧
      imageCommand d p ow oh knil body s = complete false knil (publish ow oh { s with mem := m })) := by
  unfold imageCommand
  cases hu : undersized (sourceOf s)
  · cases hc : imageChecks s d p ow oh with
    | error e => exact .inr (.inl ⟨rfl, e, rfl, by simp⟩)
    | ok u =>
      cases u
      cases hb : body s.mem with
      | error e => exact .inr (.inr (.inl ⟨rfl, e, rfl, rfl, by simp⟩))
      | ok m => exact .inr (.inr (.inr ⟨rfl, m, rfl, rfl, by simp⟩))
  · exact .inl ⟨rfl, by simp⟩

theorem undersized_eq_false {src : Source} : undersized src = false ↔ 3 ≤ src.w ∧ 3 ≤ src.h := by
  simp [undersized]

theorem undersized_iff {src : Source} : undersized src = true ↔ src.w < 3 ∨ src.h < 3 := by simp [undersized]

/-! ### The geometry of footprints -/

/-- A byte of a footprint lies in its hull. -/
theorem InRect.bounds {r : Rect} {a : Nat} (h : InRect r a) : r.base ≤ a ∧ a ≤ hullEnd r := by
  obtain ⟨x, y, hx, hy, rfl⟩ := h
  have : y * r.pitch ≤ (r.height - 1) * r.pitch := Nat.mul_le_mul_right _ (by omega)
  simp only [rectAddr, hullEnd]
  omega

theorem inRect_rectAddr {r : Rect} {x y : Nat} (hx : x < r.width) (hy : y < r.height) : InRect r (rectAddr r x y) :=
  ⟨x, y, hx, hy, rfl⟩

/-- Footprints with disjoint hulls share no byte. -/
theorem HullsDisjoint.not_both {r q : Rect} (h : HullsDisjoint r q) {a : Nat} (hr : InRect r a) (hq : InRect q a) : False := by
  have h1 := hr.bounds
  have h2 := hq.bounds
  rcases h with h | h <;> omega

theorem HullsDisjoint.symm {r q : Rect} (h : HullsDisjoint r q) : HullsDisjoint q r := Or.symm h

/-- Rows that do not reach into the next one have distinct bytes. -/
theorem rectAddr_inj {r : Rect} (hp : r.width ≤ r.pitch) {x y x' y' : Nat} (hx : x < r.width) (hx' : x' < r.width)
    (h : rectAddr r x y = rectAddr r x' y') : x = x' ∧ y = y' := by
  simp only [rectAddr] at h
  have key : ∀ a b : Nat, a < b → a * r.pitch + r.pitch ≤ b * r.pitch := fun a b hab => by
    have := Nat.mul_le_mul_right r.pitch (show a + 1 ≤ b from hab)
    rwa [Nat.add_mul, Nat.one_mul] at this
  rcases Nat.lt_trichotomy y y' with hy | rfl | hy
  · have := key y y' hy
    omega
  · exact ⟨by omega, rfl⟩
  · have := key y' y hy
    omega

/-! ### What ErrBus leaves in the write footprints (R220, U3) -/

theorem scatterResidue_inv {cfg : Cfg} {n : Nat} {r : Rect} {m : Memory} {P : Memory → Prop} (h0 : P m)
    (hs : ∀ t a, InRect r a → memValid cfg a = true → P t → P (t.write a (Config.busResidue n a))) :
    P (scatterResidue cfg n r m) := by
  unfold scatterResidue
  refine foldBelow_inv h0 fun y t hy ht => foldBelow_inv ht fun x u hx hu => ?_
  split
  · rename_i hv
    exact hs u _ (inRect_rectAddr hx hy) hv hu
  · exact hu

theorem scatterResidue_read {cfg : Cfg} {n : Nat} {r : Rect} {m : Memory} {a : Nat} (h : ¬ InRect r a) :
    (scatterResidue cfg n r m).read a = m.read a :=
  scatterResidue_inv (P := fun t => t.read a = m.read a) rfl fun _ _ hb _ hP =>
    (Memory.read_write_of_ne fun e : _ = a => h (e ▸ hb)).trans hP

theorem foldl_inv {α β : Type} {P : β → Prop} {f : β → α → β} :
    ∀ {l : List α} {b : β}, P b → (∀ b a, a ∈ l → P b → P (f b a)) → P (l.foldl f b)
  | [], _, h0, _ => h0
  | a :: l, b, h0, hs => foldl_inv (l := l) (hs b a (by simp) h0) fun b' a' ha => hs b' a' (by simp [ha])

/-- A byte that does not exist, and one outside the footprints, keeps its value. -/
theorem leaveResidue_read {l : List Rect} {s : State} {a : Nat} (h : ∀ r ∈ l, InRect r a → memValid s.cfg a = false) :
    (leaveResidue l s).mem.read a = s.mem.read a := by
  rw [leaveResidue_mem]
  refine foldl_inv (P := fun m : Memory => m.read a = s.mem.read a) rfl fun m r hr hm => ?_
  refine scatterResidue_inv (P := fun t => t.read a = s.mem.read a) hm fun t b hb hv hP => ?_
  refine (Memory.read_write_of_ne fun e => ?_).trans hP
  subst e
  rw [h r hr hb] at hv
  cases hv

theorem leaveResidue_wf {l : List Rect} {s : State} (h : s.mem.wf) : (leaveResidue l s).mem.wf := by
  rw [leaveResidue_mem]
  exact foldl_inv (P := Memory.wf) h fun m r _ hm => scatterResidue_inv hm fun t _ _ _ ht => Memory.wf_write ht _ _

theorem leaveResidue_inSpace {l : List Rect} {s : State} (h : s.mem.inSpace s.cfg) :
    (leaveResidue l s).mem.inSpace s.cfg := by
  rw [leaveResidue_mem]
  exact foldl_inv (P := Memory.inSpace s.cfg) h fun m r _ hm =>
    scatterResidue_inv hm fun t _ _ hv ht => Memory.inSpace_write ht hv _

theorem leaveResidue_unwritten {l : List Rect} {s : State} : (leaveResidue l s).mem.unwritten = s.mem.unwritten := by
  rw [leaveResidue_mem]
  refine foldl_inv (P := fun m : Memory => m.unwritten = s.mem.unwritten) rfl fun m r _ hm => ?_
  exact scatterResidue_inv (P := fun t => t.unwritten = s.mem.unwritten) hm fun t _ _ _ ht => by simp [ht]

/-! ### Loops that store -/

/-- Store the cells of a list, in its order. -/
def writeCells (m : Memory) (l : List Host.Cell) : Memory := l.foldl (fun t c => t.write c.1 c.2) m

theorem writeCells_read_of_notMem {l : List Host.Cell} {m : Memory} {a : Nat} (h : ∀ c ∈ l, c.1 ≠ a) :
    (writeCells m l).read a = m.read a :=
  foldl_inv (P := fun t : Memory => t.read a = m.read a) rfl fun _ c hc hP => (Memory.read_write_of_ne (h c hc)).trans hP

/-- A cell of a list whose addresses each carry one value. -/
theorem writeCells_read {l : List Host.Cell} : ∀ {m : Memory}, (∀ c ∈ l, ∀ c' ∈ l, c.1 = c'.1 → c = c') →
    ∀ c ∈ l, (writeCells m l).read c.1 = c.2 := by
  induction l with
  | nil => simp
  | cons d t ih =>
    intro m hu c hc
    show (writeCells (m.write d.1 d.2) t).read c.1 = c.2
    by_cases h : c ∈ t
    · exact ih (fun a ha b hb => hu a (by simp [ha]) b (by simp [hb])) c h
    · have : c = d := by simpa [h] using hc
      subst this
      rw [writeCells_read_of_notMem, Memory.read_write_self]
      intro b hb e
      exact h ((hu b (by simp [hb]) c (by simp) e) ▸ hb)

/-- The row-major scan whose position `(x, y)` stores the cells of `cells x y`, each address in one position and with one value:
it ends without error, every cell holds its value and every other byte its old one. -/
theorem loopXY_writes {w h : Nat} {cells : Nat → Nat → List Host.Cell} {f : Nat → Nat → Memory → Except CmdError Memory}
    {m : Memory}
    (hd : ∀ x y x' y', x < w → y < h → x' < w → y' < h → ∀ c ∈ cells x y, ∀ c' ∈ cells x' y', c.1 = c'.1 →
      x = x' ∧ y = y' ∧ c = c')
    (hf : ∀ x y t, x < w → y < h → (∀ a, (∀ x y, x < w → y < h → ∀ c ∈ cells x y, c.1 ≠ a) → t.read a = m.read a) →
      f x y t = .ok (writeCells t (cells x y))) :
    ∃ t, loopXY w h f m = .ok t ∧ (∀ x y, x < w → y < h → ∀ c ∈ cells x y, t.read c.1 = c.2) ∧
      ∀ a, (∀ x y, x < w → y < h → ∀ c ∈ cells x y, c.1 ≠ a) → t.read a = m.read a := by
  let P : Nat → Nat → Memory → Prop := fun x y t =>
    (∀ a b, Visited w x y a b → b < h → ∀ c ∈ cells a b, t.read c.1 = c.2) ∧
      ∀ a, (∀ x y, x < w → y < h → ∀ c ∈ cells x y, c.1 ≠ a) → t.read a = m.read a
  have hP0 : P 0 0 m := ⟨fun a b hv => by omega, fun _ _ => rfl⟩
  have hrow : ∀ y t, y < h → P w y t → P 0 (y + 1) t := fun y t _ hP => ⟨fun a b hv hb => hP.1 a b (by omega) hb, hP.2⟩
  have hstep : ∀ x y t, x < w → y < h → P x y t → ∃ t', f x y t = .ok t' ∧ P (x + 1) y t' := by
    intro x y t hx hy hP
    refine ⟨_, hf x y t hx hy hP.2, fun a b hv hb c hc => ?_, fun a ha => ?_⟩
    · by_cases e : a = x ∧ b = y
      · obtain ⟨rfl, rfl⟩ := e
        exact writeCells_read (fun c hc c' hc' e => (hd _ _ _ _ hx hy hx hy c hc c' hc' e).2.2) c hc
      · rw [writeCells_read_of_notMem]
        · exact hP.1 a b (by omega) hb c hc
        · intro c' hc' e'
          have := hd x y a b hx hy hv.1 hb c' hc' c hc e'
          omega
    · rw [writeCells_read_of_notMem (ha x y hx hy)]
      exact hP.2 a ha
  obtain ⟨t, ht, hP⟩ := loopXY_ok (P := P) hP0 hrow hstep
  exact ⟨t, ht, fun x y hx hy => hP.1 x y ⟨hx, .inl hy⟩ hy, hP.2⟩

end Sys2Proof.Machine
end

