-- ==== Sys2Proof/Laws/Pixels.lean ====
section
/-! SUPPORT. The pixel values of the image-producing commands over a memory that still holds the source image (spec/41 R133, R140,
R142; spec/43 R192), what their loops leave in memory, and what the loops keep and how they fail. -/

namespace Sys2Proof.Machine

/-- The memory holds the source image of `s` as `s` does. -/
def SourceKept (s : State) (t : Memory) : Prop := ∀ a, InRect (srcRect (sourceOf s)) a → t.read a = s.mem.read a

theorem interior_bounds {src : Source} {x y : Nat} (h : interior src x y = true) :
    1 ≤ x ∧ x + 2 ≤ src.w ∧ 1 ≤ y ∧ y + 2 ≤ src.h := by
  have := interior_iff.mp h
  omega

theorem inRect_src {src : Source} {x y : Nat} (hx : x < src.w) (hy : y < src.h) : InRect (srcRect src) (srcAddr src x y) :=
  ⟨x, y, hx, hy, rfl⟩

theorem byte_le (b : Byte) : b.toNat ≤ 255 := by have := b.isLt; omega

/-- R131: at an interior centre the nine taps are the nine pixels around it. -/
theorem checkedTap_ok {s : State} {t : Memory} (hv : RectExists s.cfg (srcRect (sourceOf s))) (hk : SourceKept s t) {x y : Nat}
    (h : interior (sourceOf s) x y = true) (i j : Nat) (hi : i < 3) (hj : j < 3) :
    checkedTap s.cfg t (sourceOf s) x y i j = .ok (window s x y i j) := by
  obtain ⟨h1, h2, h3, h4⟩ := interior_bounds h
  have hx : x - 1 + j < (sourceOf s).w := by omega
  have hy : y - 1 + i < (sourceOf s).h := by omega
  simp only [checkedTap, window, sourcePixel]
  rw [memRead_byte_ok (show memValid s.cfg (srcAddr (sourceOf s) (x - 1 + j) (y - 1 + i)) = true from hv _ _ hx hy),
    hk _ (inRect_src hx hy)]

theorem window_le (s : State) (x y i j : Nat) : window s x y i j ≤ 255 := byte_le _

/-- R133 over a memory that holds the source image. -/
theorem gradient_ok {s : State} {t : Memory} (hv : RectExists s.cfg (srcRect (sourceOf s))) (hk : SourceKept s t) {x y : Nat}
    (h : interior (sourceOf s) x y = true) (v : Variant) (c : Conv) :
    gradientOf (pixelTap c s.cfg t (sourceOf s) x y) (kernelPairFor s.cfg v) = .ok (gradX s v x y, gradY s v x y) := by
  obtain ⟨h1, -, h3, -⟩ := interior_bounds h
  rw [pixelTap_eq c s.cfg t h1 h3]
  exact gradientOf_ok _ (checkedTap_ok hv hk h)

theorem gradX_le (s : State) (v : Variant) (x y : Nat) : gradX s v x y ≤ 293760 := weightedSum_bound _ (window_le s x y)

theorem gradY_le (s : State) (v : Variant) (x y : Nat) : gradY s v x y ≤ 293760 := weightedSum_bound _ (window_le s x y)

/-- R140: the pixel value of FILTER. -/
theorem filterPixel_ok {s : State} {t : Memory} (hv : RectExists s.cfg (srcRect (sourceOf s))) (hk : SourceKept s t) {x y : Nat}
    (h : interior (sourceOf s) x y = true) (v : Variant) (c : Conv) (m : Mag) :
    filterPixel s.cfg.roundPolicy m (pixelTap c s.cfg t (sourceOf s) x y) (kernelPairFor s.cfg v) = .ok (sampleAt s v x y) := by
  have hx := gradX_le s v x y
  have hy := gradY_le s v x y
  simp only [filterPixel, gradient_ok hv hk h]
  rw [magnitude_eq _ _ (by omega) (by omega)]
  rfl

/-- R142: the pixel value of FILTER_MATH is that of FILTER with the Sobel pair. -/
theorem floatPixel_ok {s : State} {t : Memory} (hv : RectExists s.cfg (srcRect (sourceOf s))) (hk : SourceKept s t) {x y : Nat}
    (h : interior (sourceOf s) x y = true) :
    floatPixel s.cfg.roundPolicy (checkedTap s.cfg t (sourceOf s) x y) (kernelPairFor s.cfg .sobel) =
      .ok (sampleAt s .sobel x y) := by
  have hx := gradX_le s .sobel x y
  have hy := gradY_le s .sobel x y
  simp only [floatPixel, floatSums_eq _ (checkedTap_ok hv hk h) (window_le s x y)]
  change Except.ok (magFromSumFloat _ (f64Add (f64Mul ⟨(gradX s .sobel x y : Nat), 0⟩ ⟨(gradX s .sobel x y : Nat), 0⟩)
    (f64Mul ⟨(gradY s .sobel x y : Nat), 0⟩ ⟨(gradY s .sobel x y : Nat), 0⟩))) = _
  have bx : gradX s .sobel x y * gradX s .sobel x y ≤ 293760 * 293760 := Nat.mul_le_mul hx hx
  have by' : gradY s .sobel x y * gradY s .sobel x y ≤ 293760 * 293760 := Nat.mul_le_mul hy hy
  rw [f64Mul_exact (by rw [← Nat.cast_mul, Int.natAbs_natCast]; norm_num; omega),
    f64Mul_exact (by rw [← Nat.cast_mul, Int.natAbs_natCast]; norm_num; omega),
    f64Add_exact (by rw [← Nat.cast_mul, ← Nat.cast_mul, ← Nat.cast_add, Int.natAbs_natCast]; norm_num; omega)]
  rw [← Nat.cast_mul, ← Nat.cast_mul, ← Nat.cast_add, magFromSumFloat_eq]
  rfl

/-- R192, R134: a plane sample is at most 1020. -/
theorem planeX_le (s : State) (x y : Nat) : planeX s x y ≤ 1020 := by
  unfold planeX
  split
  · exact (sobel_bound (window_le s x y)).1
  · omega

theorem planeY_le (s : State) (x y : Nat) : planeY s x y ≤ 1020 := by
  unfold planeY
  split
  · exact (sobel_bound (window_le s x y)).2
  · omega

/-- R192. -/
theorem planeSample_ok {s : State} {t : Memory} (hv : RectExists s.cfg (srcRect (sourceOf s))) (hk : SourceKept s t) (x y : Nat) :
    planeSample s.cfg t (sourceOf s) x y = .ok (planeX s x y, planeY s x y) := by
  have hx := planeX_le s x y
  have hy := planeY_le s x y
  unfold planeSample
  by_cases h : interior (sourceOf s) x y = true
  · have hg : gradientOf (checkedTap s.cfg t (sourceOf s) x y) (kernelPairFor s.cfg .sobel) = _ :=
      gradient_ok hv hk h .sobel .checked
    rw [planeX, if_pos h] at hx
    rw [planeY, if_pos h] at hy
    rw [if_pos h, hg, planeX, planeY, if_pos h, if_pos h]
    simp only [Nat.min_eq_left (show gradX s .sobel x y ≤ 65535 by omega),
      Nat.min_eq_left (show gradY s .sobel x y ≤ 65535 by omega)]
  · rw [if_neg h, planeX, planeY, if_neg h, if_neg h]
    rfl

/-! ### The loops -/

/-- R140: what the driving loop leaves, for a pixel value that is a function of the source image. -/
theorem trimmedLoop_ok {s : State} {ow oh : Nat} (how : ow = (sourceOf s).w - 2) (hoh : oh = (sourceOf s).h - 2)
    (hp : ChecksPass s true false ow oh) {pixel : Memory → Nat → Nat → Except CmdError Nat} {val : Nat → Nat → Nat}
    (hpix : ∀ t x y, SourceKept s t → interior (sourceOf s) x y = true → pixel t x y = .ok (val x y)) :
    ∃ m, trimmedLoop s.cfg (sourceOf s) s.dstBase.toNat (dstStrideOf s ow) pixel s.mem = .ok m ∧
      (∀ x y, x < ow → y < oh →
        m.read (dstAddr s.dstBase.toNat (dstStrideOf s ow) x y) = BitVec.ofNat 8 (val (x + 1) (y + 1))) ∧
      ∀ a, ¬ InRect (dstRect s ow oh) a → m.read a = s.mem.read a := by
  subst how hoh
  obtain ⟨hc, -, ho, hb⟩ := hp
  have hds : (dstRect s ((sourceOf s).w - 2) ((sourceOf s).h - 2)).width ≤
      (dstRect s ((sourceOf s).w - 2) ((sourceOf s).h - 2)).pitch := by
    by_contra h
    exact hc (.inr (.inl ⟨rfl, Nat.lt_of_not_le h⟩))
  have hdis : HullsDisjoint (srcRect (sourceOf s)) (dstRect s ((sourceOf s).w - 2) ((sourceOf s).h - 2)) := by
    have := not_not.mp ho
    simp only [writeFoot, if_true, Bool.false_eq_true, if_false, List.append_nil, List.pairwise_cons] at this
    exact this.1 _ (by simp)
  have hval : RectExists s.cfg (dstRect s ((sourceOf s).w - 2) ((sourceOf s).h - 2)) := by
    by_contra h
    exact hb ⟨_, by simp [writeFoot], h⟩
  obtain ⟨m, hm, hw, hf⟩ := loopXY_writes (m := s.mem) (w := (sourceOf s).w - 2) (h := (sourceOf s).h - 2)
    (cells := fun x y => [(dstAddr s.dstBase.toNat (dstStrideOf s ((sourceOf s).w - 2)) x y,
      BitVec.ofNat 8 (val (x + 1) (y + 1)))])
    (f := fun x y t =>
      match pixel t (x + 1) (y + 1) with
      | .error e => .error e
      | .ok v => memWrite s.cfg t (dstAddr s.dstBase.toNat (dstStrideOf s ((sourceOf s).w - 2)) x y) .byte v)
    (fun x y x' y' hx hy hx' hy' c hcm c' hcm' he => by
      simp only [List.mem_singleton] at hcm hcm'
      subst hcm hcm'
      obtain ⟨rfl, rfl⟩ := rectAddr_inj hds hx hx' he
      exact ⟨rfl, rfl, rfl⟩)
    (fun x y t hx hy ht => by
      have hk : SourceKept s t := fun a ha => ht a fun x y hx hy c hc e => by
        simp only [List.mem_singleton] at hc
        subst hc
        exact hdis.not_both ha (e ▸ inRect_rectAddr hx hy)
      simp only [hpix t (x + 1) (y + 1) hk (interior_iff.mpr (by omega))]
      exact memWrite_byte_ok (hval x y hx hy))
  refine ⟨m, hm, fun x y hx hy => hw x y hx hy _ (List.mem_singleton.mpr rfl), fun a ha => hf a fun x y hx hy c hc e => ha ?_⟩
  simp only [List.mem_singleton] at hc
  subst hc
  exact ⟨x, y, hx, hy, e⟩

/-- The address of a plane sample is even with its base (R69), and its two bytes are bytes `2x`, `2x+1` of run `y`. -/
theorem planeAddr_eq (base : Nat) (src : Source) (x y : Nat) : planeAddr base src x y = rectAddr (planeRect base src) (2 * x) y := by
  simp only [planeAddr, rectAddr, planeRect]
  ring

theorem planeAddr_succ (base : Nat) (src : Source) (x y : Nat) :
    planeAddr base src x y + 1 = rectAddr (planeRect base src) (2 * x + 1) y := by
  simp only [planeAddr, rectAddr, planeRect]
  ring

/-- The two bytes of a 16-bit sample, low byte first. -/
def halfCells (a v : Nat) : List Host.Cell := [(a, BitVec.ofNat 8 v), (a + 1, BitVec.ofNat 8 (v / 256))]

theorem mem_halfCells {a v : Nat} {c : Host.Cell} :
    c ∈ halfCells a v ↔ c = (a, BitVec.ofNat 8 v) ∨ c = (a + 1, BitVec.ofNat 8 (v / 256)) := by
  simp [halfCells]

/-- The bytes of a sample belong to the plane. -/
theorem inRect_halfCells {base : Nat} {src : Source} {x y v : Nat} (hx : x < src.w) (hy : y < src.h) {c : Host.Cell}
    (hc : c ∈ halfCells (planeAddr base src x y) v) : InRect (planeRect base src) c.1 := by
  rcases mem_halfCells.mp hc with rfl | rfl
  · rw [planeAddr_eq]
    exact inRect_rectAddr (show 2 * x < 2 * src.w by omega) hy
  · rw [planeAddr_succ]
    exact inRect_rectAddr (show 2 * x + 1 < 2 * src.w by omega) hy

/-- Within a plane an address belongs to one byte of one sample. -/
theorem halfCells_inj {base : Nat} {src : Source} (hs : src.w ≤ src.s) {x y x' y' v v' : Nat} (hx : x < src.w) (hx' : x' < src.w)
    {c c' : Host.Cell} (hc : c ∈ halfCells (planeAddr base src x y) v) (hc' : c' ∈ halfCells (planeAddr base src x' y') v')
    (he : c.1 = c'.1) : x = x' ∧ y = y' ∧ (v = v' → c = c') := by
  have hp : (planeRect base src).width ≤ (planeRect base src).pitch := show 2 * src.w ≤ 2 * src.s by omega
  have key : ∀ b b', b < 2 → b' < 2 → rectAddr (planeRect base src) (2 * x + b) y = rectAddr (planeRect base src) (2 * x' + b') y' →
      x = x' ∧ y = y' ∧ b = b' := by
    intro b b' hb hb' h
    obtain ⟨h1, h2⟩ := rectAddr_inj hp (show 2 * x + b < 2 * src.w by omega) (show 2 * x' + b' < 2 * src.w by omega) h
    omega
  have k00 := key 0 0
  have k01 := key 0 1
  have k10 := key 1 0
  have k11 := key 1 1
  rcases mem_halfCells.mp hc with rfl | rfl <;> rcases mem_halfCells.mp hc' with rfl | rfl <;>
    simp only at he
  · rw [planeAddr_eq, planeAddr_eq] at he
    obtain ⟨rfl, rfl, -⟩ := k00 (by omega) (by omega) he
    exact ⟨rfl, rfl, fun h => by rw [h]⟩
  · rw [planeAddr_eq, planeAddr_succ] at he
    have := (k01 (by omega) (by omega) he).2.2
    omega
  · rw [planeAddr_succ, planeAddr_eq] at he
    have := (k10 (by omega) (by omega) he).2.2
    omega
  · rw [planeAddr_succ, planeAddr_succ] at he
    obtain ⟨rfl, rfl, -⟩ := k11 (by omega) (by omega) he
    exact ⟨rfl, rfl, fun h => by rw [h]⟩

/-- What the gradient primitive needs of the checks (R139): distinct bytes in a plane, disjoint source and planes, and every byte
of the planes in existence. -/
structure PlanesReady (s : State) : Prop where
  stride : (sourceOf s).w ≤ (sourceOf s).s
  source : RectExists s.cfg (srcRect (sourceOf s))
  existsX : RectExists s.cfg (planeRect s.gxBase.toNat (sourceOf s))
  existsY : RectExists s.cfg (planeRect s.gyBase.toNat (sourceOf s))
  apart : HullsDisjoint (planeRect s.gxBase.toNat (sourceOf s)) (planeRect s.gyBase.toNat (sourceOf s))
  apartX : HullsDisjoint (srcRect (sourceOf s)) (planeRect s.gxBase.toNat (sourceOf s))
  apartY : HullsDisjoint (srcRect (sourceOf s)) (planeRect s.gyBase.toNat (sourceOf s))

theorem ChecksPass.planesReady {s : State} {d : Bool} {ow oh : Nat} (h : ChecksPass s d true ow oh) : PlanesReady s := by
  obtain ⟨hc, -, ho, hb⟩ := h
  have hpw := not_not.mp ho
  have mem : ∀ r, r = srcRect (sourceOf s) ∨ r = planeRect s.gxBase.toNat (sourceOf s) ∨
      r = planeRect s.gyBase.toNat (sourceOf s) → RectExists s.cfg r := by
    intro r hr
    by_contra hn
    refine hb ⟨r, ?_, hn⟩
    rcases hr with rfl | rfl | rfl <;> simp [writeFoot]
  refine ⟨Nat.le_of_not_lt fun h => hc (.inl h), mem _ (by simp), mem _ (by simp), mem _ (by simp), ?_, ?_, ?_⟩
  · cases d <;> simp [writeFoot] at hpw
    exacts [hpw.2, hpw.2.2]
  · exact (List.pairwise_cons.mp hpw).1 _ (by simp [writeFoot])
  · exact (List.pairwise_cons.mp hpw).1 _ (by simp [writeFoot])

/-- What the reduction needs of the checks beside `PlanesReady`. -/
theorem simd_ready {s : State} (h : ChecksPass s true true (sourceOf s).w (sourceOf s).h) :
    (sourceOf s).w ≤ dstStrideOf s (sourceOf s).w ∧ RectExists s.cfg (dstRect s (sourceOf s).w (sourceOf s).h) ∧
      HullsDisjoint (planeRect s.gxBase.toNat (sourceOf s)) (dstRect s (sourceOf s).w (sourceOf s).h) ∧
      HullsDisjoint (planeRect s.gyBase.toNat (sourceOf s)) (dstRect s (sourceOf s).w (sourceOf s).h) := by
  obtain ⟨hc, -, ho, hb⟩ := h
  have hpw := not_not.mp ho
  simp only [writeFoot, if_true, List.cons_append, List.nil_append, List.pairwise_cons] at hpw
  obtain ⟨-, hd, -⟩ := hpw
  refine ⟨Nat.le_of_not_lt fun h => hc (.inr (.inl ⟨rfl, h⟩)), ?_, (hd _ (by simp)).symm, (hd _ (by simp)).symm⟩
  by_contra hn
  exact hb ⟨_, by simp [writeFoot], hn⟩

theorem halfCells_write {cfg : Cfg} {t : Memory} {base : Nat} {src : Source} {x y v : Nat}
    (hv : RectExists cfg (planeRect base src)) (hx : x < src.w) (hy : y < src.h) :
    memWrite cfg t (planeAddr base src x y) .half v = .ok (writeCells t (halfCells (planeAddr base src x y) v)) := by
  refine memWrite_half_ok ?_ ?_
  · rw [planeAddr_eq]
    exact hv _ _ (show 2 * x < 2 * src.w by omega) hy
  · rw [planeAddr_succ]
    exact hv _ _ (show 2 * x + 1 < 2 * src.w by omega) hy

theorem halfCells_value {m : Memory} {a v : Nat} (hv : v < 65536) (h : ∀ c ∈ halfCells a v, m.read c.1 = c.2) :
    readHalf m a = v := by
  have h0 := h (a, BitVec.ofNat 8 v) (by simp [halfCells])
  have h1 := h (a + 1, BitVec.ofNat 8 (v / 256)) (by simp [halfCells])
  simp only at h0 h1
  simp only [readHalf, h0, h1, BitVec.toNat_ofNat]
  omega

/-- R191, R192: what the gradient primitive leaves. -/
theorem planesLoop_ok {s : State} (hp : PlanesReady s) :
    ∃ m, planesLoop s.cfg (sourceOf s) s.gxBase.toNat s.gyBase.toNat s.mem = .ok m ∧
      (∀ x y, x < (sourceOf s).w → y < (sourceOf s).h →
        readHalf m (planeAddr s.gxBase.toNat (sourceOf s) x y) = planeX s x y ∧
        readHalf m (planeAddr s.gyBase.toNat (sourceOf s) x y) = planeY s x y) ∧
      ∀ a, ¬ InRect (planeRect s.gxBase.toNat (sourceOf s)) a → ¬ InRect (planeRect s.gyBase.toNat (sourceOf s)) a →
        m.read a = s.mem.read a := by
  obtain ⟨m, hm, hw, hf⟩ := loopXY_writes (m := s.mem) (w := (sourceOf s).w) (h := (sourceOf s).h)
    (cells := fun x y => halfCells (planeAddr s.gxBase.toNat (sourceOf s) x y) (planeX s x y) ++
      halfCells (planeAddr s.gyBase.toNat (sourceOf s) x y) (planeY s x y))
    (f := fun x y t =>
      match planeSample s.cfg t (sourceOf s) x y with
      | .error e => .error e
      | .ok (sx, sy) =>
        match memWrite s.cfg t (planeAddr s.gxBase.toNat (sourceOf s) x y) .half sx with
        | .error e => .error e
        | .ok t' => memWrite s.cfg t' (planeAddr s.gyBase.toNat (sourceOf s) x y) .half sy)
    (fun x y x' y' hx hy hx' hy' c hc c' hc' he => by
      rcases List.mem_append.mp hc with hc | hc <;> rcases List.mem_append.mp hc' with hc' | hc'
      · obtain ⟨rfl, rfl, h⟩ := halfCells_inj hp.stride hx hx' hc hc' he
        exact ⟨rfl, rfl, h rfl⟩
      · exact (hp.apart.not_both (inRect_halfCells hx hy hc) (he ▸ inRect_halfCells hx' hy' hc')).elim
      · exact (hp.apart.not_both (inRect_halfCells hx' hy' hc') (he ▸ inRect_halfCells hx hy hc)).elim
      · obtain ⟨rfl, rfl, h⟩ := halfCells_inj hp.stride hx hx' hc hc' he
        exact ⟨rfl, rfl, h rfl⟩)
    (fun x y t hx hy ht => by
      have hk : SourceKept s t := fun a ha => ht a fun x y hx hy c hc e => by
        subst e
        rcases List.mem_append.mp hc with hc | hc
        · exact hp.apartX.not_both ha (inRect_halfCells hx hy hc)
        · exact hp.apartY.not_both ha (inRect_halfCells hx hy hc)
      simp only [planeSample_ok hp.source hk, halfCells_write hp.existsX hx hy, halfCells_write hp.existsY hx hy]
      rw [writeCells, writeCells, writeCells, List.foldl_append])
  refine ⟨m, hm, fun x y hx hy => ⟨?_, ?_⟩, fun a hax hay => hf a fun x y hx hy c hc e => ?_⟩
  · have := planeX_le s x y
    exact halfCells_value (by omega) fun c hc => hw x y hx hy c (List.mem_append_left _ hc)
  · have := planeY_le s x y
    exact halfCells_value (by omega) fun c hc => hw x y hx hy c (List.mem_append_right _ hc)
  · subst e
    rcases List.mem_append.mp hc with hc | hc
    exacts [hax (inRect_halfCells hx hy hc), hay (inRect_halfCells hx hy hc)]

/-- Stage 2 of R193: what the reduction leaves, over a memory whose planes hold given samples. -/
theorem reduceLoop_ok {s : State} {m0 : Memory} {gx gy : Nat → Nat → Nat} (hp : PlanesReady s)
    (hds : (sourceOf s).w ≤ dstStrideOf s (sourceOf s).w)
    (hd : RectExists s.cfg (dstRect s (sourceOf s).w (sourceOf s).h))
    (hax : HullsDisjoint (planeRect s.gxBase.toNat (sourceOf s)) (dstRect s (sourceOf s).w (sourceOf s).h))
    (hay : HullsDisjoint (planeRect s.gyBase.toNat (sourceOf s)) (dstRect s (sourceOf s).w (sourceOf s).h))
    (hm : ∀ x y, x < (sourceOf s).w → y < (sourceOf s).h →
      readHalf m0 (planeAddr s.gxBase.toNat (sourceOf s) x y) = gx x y ∧
      readHalf m0 (planeAddr s.gyBase.toNat (sourceOf s) x y) = gy x y) :
    ∃ m, reduceLoop s.cfg (sourceOf s) s.gxBase.toNat s.gyBase.toNat s.dstBase.toNat (dstStrideOf s (sourceOf s).w) m0 = .ok m ∧
      (∀ x y, x < (sourceOf s).w → y < (sourceOf s).h →
        m.read (dstAddr s.dstBase.toNat (dstStrideOf s (sourceOf s).w) x y) =
          BitVec.ofNat 8 (magnitude s.cfg.roundPolicy .float (gx x y) (gy x y))) ∧
      ∀ a, ¬ InRect (dstRect s (sourceOf s).w (sourceOf s).h) a → m.read a = m0.read a := by
  have read : ∀ (base : Nat) (t : Memory) (x y : Nat), RectExists s.cfg (planeRect base (sourceOf s)) →
      HullsDisjoint (planeRect base (sourceOf s)) (dstRect s (sourceOf s).w (sourceOf s).h) →
      (∀ a, (¬ InRect (dstRect s (sourceOf s).w (sourceOf s).h) a) → t.read a = m0.read a) →
      x < (sourceOf s).w → y < (sourceOf s).h →
      memRead s.cfg t (planeAddr base (sourceOf s) x y) .half = .ok (readHalf m0 (planeAddr base (sourceOf s) x y)) := by
    intro base t x y he ha ht hx hy
    have i0 : InRect (planeRect base (sourceOf s)) (planeAddr base (sourceOf s) x y) := by
      rw [planeAddr_eq]
      exact inRect_rectAddr (show 2 * x < 2 * (sourceOf s).w by omega) hy
    have i1 : InRect (planeRect base (sourceOf s)) (planeAddr base (sourceOf s) x y + 1) := by
      rw [planeAddr_succ]
      exact inRect_rectAddr (show 2 * x + 1 < 2 * (sourceOf s).w by omega) hy
    have v : ∀ a, InRect (planeRect base (sourceOf s)) a → memValid s.cfg a = true := by
      rintro _ ⟨x, y, hx, hy, rfl⟩
      exact he x y hx hy
    rw [memRead_half_ok (v _ i0) (v _ i1), ht _ (fun h => ha.not_both i0 h), ht _ (fun h => ha.not_both i1 h)]
    rfl
  obtain ⟨m, hm', hw, hf⟩ := loopXY_writes (m := m0) (w := (sourceOf s).w) (h := (sourceOf s).h)
    (cells := fun x y => [(dstAddr s.dstBase.toNat (dstStrideOf s (sourceOf s).w) x y,
      BitVec.ofNat 8 (magnitude s.cfg.roundPolicy .float (gx x y) (gy x y)))])
    (f := fun x y t =>
      match memRead s.cfg t (planeAddr s.gxBase.toNat (sourceOf s) x y) .half,
        memRead s.cfg t (planeAddr s.gyBase.toNat (sourceOf s) x y) .half with
      | .ok gx, .ok gy => memWrite s.cfg t (dstAddr s.dstBase.toNat (dstStrideOf s (sourceOf s).w) x y) .byte
          (magnitude s.cfg.roundPolicy .float gx gy)
      | .error e, _ => .error e
      | _, .error e => .error e)
    (fun x y x' y' hx hy hx' hy' c hcm c' hcm' he => by
      simp only [List.mem_singleton] at hcm hcm'
      subst hcm hcm'
      obtain ⟨rfl, rfl⟩ := rectAddr_inj (r := dstRect s (sourceOf s).w (sourceOf s).h) hds hx hx' he
      exact ⟨rfl, rfl, rfl⟩)
    (fun x y t hx hy ht => by
      have ht' : ∀ a, (¬ InRect (dstRect s (sourceOf s).w (sourceOf s).h) a) → t.read a = m0.read a := fun a ha =>
        ht a fun x y hx hy c hc e => by
          simp only [List.mem_singleton] at hc
          subst hc
          exact ha ⟨x, y, hx, hy, e⟩
      simp only [read _ t x y hp.existsX hax ht' hx hy, read _ t x y hp.existsY hay ht' hx hy, (hm x y hx hy).1,
        (hm x y hx hy).2]
      exact memWrite_byte_ok (hd x y hx hy))
  refine ⟨m, hm', fun x y hx hy => hw x y hx hy _ (List.mem_singleton.mpr rfl), fun a ha => hf a fun x y hx hy c hc e => ha ?_⟩
  simp only [List.mem_singleton] at hc
  subst hc
  exact ⟨x, y, hx, hy, e⟩

/-- A row-major scan that succeeds keeps what every engine write keeps. -/
theorem trimmedLoop_keeps {cfg : Cfg} {src : Source} {base ds : Nat} {pixel : Memory → Nat → Nat → Except CmdError Nat}
    {m m' : Memory} {P : Memory → Prop} (h0 : P m)
    (hs : ∀ t t' a n v, P t → memWrite cfg t a n v = .ok t' → P t') (h : trimmedLoop cfg src base ds pixel m = .ok m') : P m' := by
  refine loopXY_inv (P := P) h0 (fun x y u u' _ _ hu hf => ?_) h
  split at hf
  · cases hf
  · exact hs _ _ _ _ _ hu hf

theorem planesLoop_keeps {cfg : Cfg} {src : Source} {gx gy : Nat} {m m' : Memory} {P : Memory → Prop} (h0 : P m)
    (hs : ∀ t t' a n v, P t → memWrite cfg t a n v = .ok t' → P t') (h : planesLoop cfg src gx gy m = .ok m') : P m' := by
  refine loopXY_inv (P := P) h0 (fun x y u u' _ _ hu hf => ?_) h
  split at hf
  · cases hf
  · split at hf
    · cases hf
    · rename_i h1
      exact hs _ _ _ _ _ (hs _ _ _ _ _ hu h1) hf

theorem reduceLoop_keeps {cfg : Cfg} {src : Source} {gx gy base ds : Nat} {m m' : Memory} {P : Memory → Prop} (h0 : P m)
    (hs : ∀ t t' a n v, P t → memWrite cfg t a n v = .ok t' → P t') (h : reduceLoop cfg src gx gy base ds m = .ok m') : P m' := by
  refine loopXY_inv (P := P) h0 (fun x y u u' _ _ hu hf => ?_) h
  split at hf
  · exact hs _ _ _ _ _ hu hf
  · cases hf
  · cases hf

/-- The loops fail only with ErrBus, given that the pixel function does. -/
theorem trimmedLoop_error {cfg : Cfg} {src : Source} {base ds : Nat} {pixel : Memory → Nat → Nat → Except CmdError Nat}
    {m : Memory} {e : CmdError} (hp : ∀ t x y e, pixel t x y = .error e → e = .bus)
    (h : trimmedLoop cfg src base ds pixel m = .error e) : e = .bus := by
  refine loopXY_error (Q := fun e => e = .bus) (fun x y u e hf => ?_) h
  split at hf
  · rename_i hq
    cases hf
    exact hp _ _ _ _ hq
  · exact memWrite_error hf

theorem pixelTap_error {c : Conv} {cfg : Cfg} {t : Memory} {src : Source} {x y i j : Nat} {e : CmdError}
    (h : pixelTap c cfg t src x y i j = .error e) : e = .bus := by
  cases c
  · exact memRead_error (show memRead cfg t (srcAddr src (x - 1 + j) (y - 1 + i)) .byte = .error e from h)
  · exact memRead_error (show memRead cfg t (fastAddr src x y i j) .byte = .error e from h)

theorem filterPixel_error {policy : RoundPolicy} {m : Mag} {c : Conv} {cfg : Cfg} {t : Memory} {src : Source} {x y : Nat}
    {k : KernelPair} {e : CmdError} (h : filterPixel policy m (pixelTap c cfg t src x y) k = .error e) : e = .bus := by
  unfold filterPixel at h
  split at h
  · rename_i hg
    cases h
    exact gradientOf_error (Q := fun e => e = .bus) (fun i j e he => pixelTap_error he) hg
  · cases h

theorem floatPixel_error {policy : RoundPolicy} {cfg : Cfg} {t : Memory} {src : Source} {x y : Nat}
    {k : KernelPair} {e : CmdError} (h : floatPixel policy (checkedTap cfg t src x y) k = .error e) : e = .bus := by
  unfold floatPixel at h
  split at h
  · rename_i hs
    cases h
    refine loopBelow_error (Q := fun e => e = .bus)
      (fun i u e he => loopBelow_error (Q := fun e => e = .bus) (fun j v e' he' => ?_) he) hs
    split at he'
    · rename_i hq
      cases he'
      exact memRead_error hq
    · cases he'
  · cases h

theorem planesLoop_error {cfg : Cfg} {src : Source} {gx gy : Nat} {m : Memory} {e : CmdError}
    (h : planesLoop cfg src gx gy m = .error e) : e = .bus := by
  refine loopXY_error (Q := fun e => e = .bus) (fun x y u e hf => ?_) h
  split at hf
  · rename_i hq
    cases hf
    unfold planeSample at hq
    split at hq
    · split at hq
      · rename_i hg
        cases hq
        exact gradientOf_error (Q := fun e => e = .bus) (fun i j e he => memRead_error he) hg
      · cases hq
    · cases hq
  · split at hf
    · rename_i hq
      cases hf
      exact memWrite_error hq
    · exact memWrite_error hf

theorem reduceLoop_error {cfg : Cfg} {src : Source} {gx gy base ds : Nat} {m : Memory} {e : CmdError}
    (h : reduceLoop cfg src gx gy base ds m = .error e) : e = .bus := by
  refine loopXY_error (Q := fun e => e = .bus) (fun x y u e hf => ?_) h
  split at hf
  · exact memWrite_error hf
  · rename_i hq
    cases hf
    exact memRead_error hq
  · rename_i hq _
    cases hf
    exact memRead_error hq

end Sys2Proof.Machine
end

