-- ==== Sys2Proof/Laws/Status.lean ====
section
/-! SUPPORT. The fields of STATUS after each of its three updates (spec/10_state.md R26, spec/40 R120, spec/60 R220). -/

namespace Sys2Proof.Machine

/-- The places of the reserved bits lie above every other field of STATUS. -/
theorem upper_bits {i : Nat} (hi : i < 23) : 9 + i < 32 ∧ i < 32 ∧ 9 + i - 8 ≠ 0 ∧ 9 + i - 3 ≠ 0 ∧ 9 + i - 2 ≠ 0 := by omega

section pack
variable (rsv : BitVec 23) (any : Bool) (code : BitVec 4) (knil empty err done : Bool)

@[simp] theorem statusDone_pack : statusDone (packStatus rsv any code knil empty err done) = done := by
  simp [statusDone, packStatus]
@[simp] theorem statusErr_pack : statusErr (packStatus rsv any code knil empty err done) = err := by
  simp [statusErr, packStatus]
@[simp] theorem statusEmpty_pack : statusEmpty (packStatus rsv any code knil empty err done) = empty := by
  simp [statusEmpty, packStatus]
@[simp] theorem statusKnil_pack : statusKnil (packStatus rsv any code knil empty err done) = knil := by
  simp [statusKnil, packStatus]
@[simp] theorem statusAnyErr_pack : statusAnyErr (packStatus rsv any code knil empty err done) = any := by
  simp [statusAnyErr, packStatus]

@[simp] theorem statusErrCode_pack : statusErrCode (packStatus rsv any code knil empty err done) = code := by
  apply BitVec.eq_of_getLsbD_eq
  intro i hi
  have : i = 0 ∨ i = 1 ∨ i = 2 ∨ i = 3 := by omega
  rcases this with rfl | rfl | rfl | rfl <;> simp [statusErrCode, packStatus]

@[simp] theorem statusReserved_pack : statusReserved (packStatus rsv any code knil empty err done) = rsv := by
  apply BitVec.eq_of_getLsbD_eq
  intro i hi
  simp [statusReserved, packStatus, upper_bits hi, BitVec.getLsbD_of_ge code (9 + i - 4) (by omega), hi]

end pack

/-- STATUS is its fields. -/
theorem packStatus_eta (w : Word) : packStatus (statusReserved w) (statusAnyErr w) (statusErrCode w) (statusKnil w)
    (statusEmpty w) (statusErr w) (statusDone w) = w := by
  apply BitVec.eq_of_getLsbD_eq
  intro i hi
  rcases Nat.lt_or_ge i 9 with h | h
  · have : i = 0 ∨ i = 1 ∨ i = 2 ∨ i = 3 ∨ i = 4 ∨ i = 5 ∨ i = 6 ∨ i = 7 ∨ i = 8 := by omega
    rcases this with rfl | rfl | rfl | rfl | rfl | rfl | rfl | rfl | rfl <;>
      simp [packStatus, statusReserved, statusAnyErr, statusErrCode, statusKnil, statusEmpty, statusErr, statusDone]
  · obtain ⟨j, rfl⟩ := Nat.exists_eq_add_of_le h
    have hj : j < 23 := by omega
    have := congrArg (·.getLsbD j) (statusReserved_pack (statusReserved w) (statusAnyErr w) (statusErrCode w) (statusKnil w)
      (statusEmpty w) (statusErr w) (statusDone w))
    simpa [statusReserved, hj] using this

/-! ### `Done(empty, knil)` -/

section done
variable (empty knil : Bool) (old : Word)

@[simp] theorem statusDone_afterDone : statusDone (statusAfterDone empty knil old) = true := by simp [statusAfterDone]
@[simp] theorem statusErr_afterDone : statusErr (statusAfterDone empty knil old) = false := by simp [statusAfterDone]
@[simp] theorem statusEmpty_afterDone : statusEmpty (statusAfterDone empty knil old) = empty := by simp [statusAfterDone]
@[simp] theorem statusKnil_afterDone : statusKnil (statusAfterDone empty knil old) = knil := by simp [statusAfterDone]
@[simp] theorem statusErrCode_afterDone : statusErrCode (statusAfterDone empty knil old) = 0 := by simp [statusAfterDone]
@[simp] theorem statusAnyErr_afterDone : statusAnyErr (statusAfterDone empty knil old) = statusAnyErr old := by
  simp [statusAfterDone]
@[simp] theorem statusReserved_afterDone : statusReserved (statusAfterDone empty knil old) = statusReserved old := by
  simp [statusAfterDone]

end done

/-! ### `Fail(E)` -/

section error
variable (e : CmdError) (old : Word)

@[simp] theorem statusDone_afterError : statusDone (statusAfterError e old) = false := by simp [statusAfterError]
@[simp] theorem statusErr_afterError : statusErr (statusAfterError e old) = true := by simp [statusAfterError]
@[simp] theorem statusEmpty_afterError : statusEmpty (statusAfterError e old) = false := by simp [statusAfterError]
@[simp] theorem statusKnil_afterError : statusKnil (statusAfterError e old) = false := by simp [statusAfterError]
@[simp] theorem statusErrCode_afterError : statusErrCode (statusAfterError e old) = errorCode e := by simp [statusAfterError]
@[simp] theorem statusAnyErr_afterError : statusAnyErr (statusAfterError e old) = true := by simp [statusAfterError]
@[simp] theorem statusReserved_afterError : statusReserved (statusAfterError e old) = statusReserved old := by
  simp [statusAfterError]

end error

/-! ### The host's write -/

section write
variable (w old : Word)

@[simp] theorem statusDone_afterWrite : statusDone (statusAfterWrite w old) = statusDone old := by simp [statusAfterWrite]
@[simp] theorem statusErr_afterWrite : statusErr (statusAfterWrite w old) = statusErr old := by simp [statusAfterWrite]
@[simp] theorem statusEmpty_afterWrite : statusEmpty (statusAfterWrite w old) = statusEmpty old := by simp [statusAfterWrite]
@[simp] theorem statusKnil_afterWrite : statusKnil (statusAfterWrite w old) = statusKnil old := by simp [statusAfterWrite]
@[simp] theorem statusErrCode_afterWrite : statusErrCode (statusAfterWrite w old) = statusErrCode old := by
  simp [statusAfterWrite]
@[simp] theorem statusAnyErr_afterWrite :
    statusAnyErr (statusAfterWrite w old) = (statusAnyErr old && !statusAnyErr w) := by simp [statusAfterWrite]
@[simp] theorem statusReserved_afterWrite : statusReserved (statusAfterWrite w old) = statusReserved old := by
  simp [statusAfterWrite]

end write

end Sys2Proof.Machine
end

