-- ==== Sys2Proof/Laws/Exec.lean ====
section
/-! SUPPORT. What a command can do, said once (`exec_image`, `exec_gradient`), the words STATUS ends with, and the step over the
host's queue. -/

namespace Sys2Proof.Machine

/-! ### STATUS words -/

/-- A STATUS word is fixed by its fields. -/
theorem status_ext {a b : Word} (h0 : statusDone a = statusDone b) (h1 : statusErr a = statusErr b)
    (h2 : statusEmpty a = statusEmpty b) (h3 : statusKnil a = statusKnil b) (h4 : statusErrCode a = statusErrCode b)
    (h8 : statusAnyErr a = statusAnyErr b) (h9 : statusReserved a = statusReserved b) : a = b := by
  rw [← packStatus_eta a, ← packStatus_eta b, h0, h1, h2, h3, h4, h8, h9]

/-- R120. -/
theorem statusAfterDone_eq (e k : Bool) (old : Word) : statusAfterDone e k old = doneWord e k old := by
  apply status_ext <;> cases e <;> cases k <;> simp only [statusDone_afterDone, statusErr_afterDone, statusEmpty_afterDone,
    statusKnil_afterDone, statusErrCode_afterDone, statusAnyErr_afterDone, statusReserved_afterDone] <;>
    simp only [statusDone, statusErr, statusEmpty, statusKnil, statusErrCode, statusAnyErr, statusReserved, doneWord] <;>
    first
      | (apply BitVec.eq_of_getLsbD_eq; intro i hi; interval_cases i <;> simp)
      | simp

/-- R220. -/
theorem statusAfterError_eq (e : CmdError) (old : Word) : statusAfterError e old = failWord (errorCode e).toNat old := by
  apply status_ext <;> cases e <;> simp only [statusDone_afterError, statusErr_afterError, statusEmpty_afterError,
    statusKnil_afterError, statusErrCode_afterError, statusAnyErr_afterError, statusReserved_afterError] <;>
    simp only [statusDone, statusErr, statusEmpty, statusKnil, statusErrCode, statusAnyErr, statusReserved, failWord, errorCode] <;>
    first
      | (apply BitVec.eq_of_getLsbD_eq; intro i hi; interval_cases i <;> simp)
      | simp

/-- R24. -/
theorem statusAfterWrite_eq (w old : Word) :
    statusAfterWrite w old = if w.getLsbD 8 then old &&& 0xFFFFFEFF#32 else old := by
  by_cases h : w.getLsbD 8 = true
  · rw [if_pos h]
    apply status_ext <;> simp only [statusDone_afterWrite, statusErr_afterWrite, statusEmpty_afterWrite, statusKnil_afterWrite,
      statusErrCode_afterWrite, statusAnyErr_afterWrite, statusReserved_afterWrite] <;>
      simp only [statusDone, statusErr, statusEmpty, statusKnil, statusErrCode, statusAnyErr, statusReserved] <;>
      first
        | (apply BitVec.eq_of_getLsbD_eq; intro i hi; interval_cases i <;> simp)
        | simp [h]
  · rw [if_neg h]
    apply status_ext <;> simp
    intro _
    simpa [statusAnyErr] using h

/-! ### Commands -/

/-- Everything an image-producing command can do: the shared frame around a loop that fails only with ErrBus and keeps what every
engine write keeps. -/
theorem exec_image {s : State} {i : Instr} {d p : Bool} {ow oh : Nat} (h : imageForm s i = some (d, p, ow, oh)) :
    ∃ body : Memory → Except CmdError Memory, exec i s = .next (imageCommand d p ow oh (nilForm i) body s) ∧
      (∀ m e, body m = .error e → e = .bus) ∧
      (∀ (P : Memory → Prop), (∀ t t' a n v, P t → memWrite s.cfg t a n v = .ok t' → P t') →
        ∀ m m', P m → body m = .ok m' → P m') ∧
      (3 ≤ (sourceOf s).w → 3 ≤ (sourceOf s).h → ChecksPass s d p ow oh → ∃ m, body s.mem = .ok m ∧
        ∀ a, (∀ r ∈ writeFoot s d p ow oh, ¬ InRect r a) → m.read a = s.mem.read a) := by
  cases i <;> simp only [imageForm, Option.some.injEq, Prod.mk.injEq, reduceCtorEq] at h
  case filter v k m =>
    obtain ⟨rfl, rfl, rfl, rfl⟩ := h
    refine ⟨_, rfl, fun _ _ he => trimmedLoop_error (fun _ _ _ _ => filterPixel_error) he,
      fun P hs m m' h0 hm => trimmedLoop_keeps h0 hs hm, fun _ _ hp => ?_⟩
    obtain ⟨M, hM, -, hf⟩ := trimmedLoop_ok rfl rfl hp (fun t x y ht hi => filterPixel_ok hp.source ht hi v (effectiveConv v k) m)
    exact ⟨M, hM, fun a ha => hf a (ha _ (by simp [writeFoot]))⟩
  case filterMath =>
    obtain ⟨rfl, rfl, rfl, rfl⟩ := h
    refine ⟨_, rfl, fun _ _ he => trimmedLoop_error (fun _ _ _ _ => floatPixel_error) he,
      fun P hs m m' h0 hm => trimmedLoop_keeps h0 hs hm, fun _ _ hp => ?_⟩
    obtain ⟨M, hM, -, hf⟩ := trimmedLoop_ok rfl rfl hp (val := sampleAt s .sobel) (fun t x y ht hi => floatPixel_ok hp.source ht hi)
    exact ⟨M, hM, fun a ha => hf a (ha _ (by simp [writeFoot]))⟩
  case gradPlanes =>
    obtain ⟨rfl, rfl, rfl, rfl⟩ := h
    refine ⟨_, rfl, fun _ _ he => planesLoop_error he, fun P hs m m' h0 hm => planesLoop_keeps h0 hs hm, fun _ _ hp => ?_⟩
    obtain ⟨M, hM, -, hf⟩ := planesLoop_ok hp.planesReady
    exact ⟨M, hM, fun a ha => hf a (ha _ (by simp [writeFoot])) (ha _ (by simp [writeFoot]))⟩
  case filterSimd =>
    obtain ⟨rfl, rfl, rfl, rfl⟩ := h
    refine ⟨_, rfl, fun m e he => ?_, fun P hs m m' h0 hm => ?_, fun _ _ hp => ?_⟩
    · split at he
      · rename_i h1
        cases he
        exact planesLoop_error h1
      · exact reduceLoop_error he
    · split at hm
      · cases hm
      · rename_i h1
        exact reduceLoop_keeps (planesLoop_keeps h0 hs h1) hs hm
    · obtain ⟨M, hM, hv, hf⟩ := planesLoop_ok hp.planesReady
      obtain ⟨hds, hd, hax, hay⟩ := simd_ready hp
      obtain ⟨M', hM', -, hf'⟩ := reduceLoop_ok hp.planesReady hds hd hax hay hv
      refine ⟨M', by simp only [hM, hM'], fun a ha => ?_⟩
      rw [hf' a (ha _ (by simp [writeFoot])), hf a (ha _ (by simp [writeFoot])) (ha _ (by simp [writeFoot]))]

theorem hullEnd_srcRect (src : Source) : hullEnd (srcRect src) = src.base + (src.h - 1) * src.s + src.w - 1 := rfl

theorem interior_eq (s : State) (x y : Nat) : interior (sourceOf s) x y = true ↔ Interior s x y := by
  rw [interior_iff, Interior]
  omega

theorem effectiveConv_eq_fast {v : Variant} {c : Conv} : effectiveConv v c = .fast ↔ c = .fast ∨ v = .sobelFast := by
  unfold effectiveConv
  split <;> simp_all

theorem effectiveConv_eq_checked {v : Variant} {c : Conv} : effectiveConv v c = .checked ↔ ¬ (c = .fast ∨ v = .sobelFast) := by
  unfold effectiveConv
  split <;> simp_all

/-- An absent byte among the nine fails the sums. -/
theorem gradientSums_error {tap : Nat → Nat → Except CmdError Nat} (k : KernelPair)
    (h : ∃ i j, i < 3 ∧ j < 3 ∧ ∃ e, tap i j = .error e) : ∃ e, gradientSums tap k = .error e := by
  by_contra hn
  have hn := not_exists.mp hn
  obtain ⟨i, j, hi, hj, e, he⟩ := h
  cases hg : gradientSums tap k with
  | error e => exact hn e hg
  | ok r =>
    have inner : ∀ (n i : Nat) (a b : Int × Int), loopBelow n (fun j acc =>
        match tap i j with
        | .error e => .error e
        | .ok p => .ok (acc.1 + (tapAt k.kx (3 * i + j)).toInt * (p : Int), acc.2 + (tapAt k.ky (3 * i + j)).toInt * (p : Int))) a =
          Except.ok b → ∀ j < n, ∀ e, tap i j ≠ .error e := by
      intro n i a b
      induction n generalizing b with
      | zero => intro _ j hj; omega
      | succ n ih =>
        intro hb j hj e he
        simp only [loopBelow] at hb
        split at hb
        · cases hb
        · rename_i u hu
          rcases Nat.lt_succ_iff_lt_or_eq.mp hj with h | rfl
          · exact ih _ hu j h e he
          · simp only [he] at hb
            cases hb
    have outer : ∀ (n : Nat) (b : Int × Int), loopBelow n (fun i => loopBelow 3 (fun j acc =>
        match tap i j with
        | .error e => .error e
        | .ok p => .ok (acc.1 + (tapAt k.kx (3 * i + j)).toInt * (p : Int), acc.2 + (tapAt k.ky (3 * i + j)).toInt * (p : Int)))) (0, 0) =
          Except.ok b → ∀ i < n, ∀ j < 3, ∀ e, tap i j ≠ .error e := by
      intro n b
      induction n generalizing b with
      | zero => intro _ i hi; omega
      | succ n ih =>
        intro hb i hi j hj e
        simp only [loopBelow] at hb
        split at hb
        · cases hb
        · rename_i u hu
          rcases Nat.lt_succ_iff_lt_or_eq.mp hi with h | rfl
          · exact ih _ hu i h j hj e
          · exact inner 3 i u b (by simpa only [loopBelow] using hb) j hj e
    exact outer 3 r hg i hi j hj e he

/-- Everything GRADIENT can do (R136, R137). -/
theorem exec_gradient (s : State) (v : Variant) (c : Conv) :
    (GradientConfigBad s ∧ exec (.gradient v c) s = .next (raiseError .config false s)) ∨
    (¬ GradientConfigBad s ∧ ¬ Interior s s.opX.toNat s.opY.toNat ∧ effectiveConv v c = .checked ∧
      exec (.gradient v c) s = .next (raiseError .range false s)) ∨
    (¬ GradientConfigBad s ∧ ¬ Interior s s.opX.toNat s.opY.toNat ∧ effectiveConv v c = .fast ∧
      exec (.gradient v c) s = .fault .fastGradientOutOfRange) ∨
    (¬ GradientConfigBad s ∧ Interior s s.opX.toNat s.opY.toNat ∧ ¬ NineExist s s.opX.toNat s.opY.toNat ∧
      exec (.gradient v c) s = .next (raiseError .bus false s)) ∨
    (¬ GradientConfigBad s ∧ Interior s s.opX.toNat s.opY.toNat ∧ NineExist s s.opX.toNat s.opY.toNat ∧
      exec (.gradient v c) s = .next (complete false (resolvesToNil v) { s with
        resGx := BitVec.ofNat 32 (gradX s v s.opX.toNat s.opY.toNat)
        resGy := BitVec.ofNat 32 (gradY s v s.opX.toNat s.opY.toNat) })) := by
  simp only [exec, execGradient]
  by_cases h1 : (sourceOf s).s < (sourceOf s).w
  · exact .inl ⟨.inl h1, by rw [if_pos h1]⟩
  by_cases h2 : 3 ≤ (sourceOf s).w ∧ 3 ≤ (sourceOf s).h ∧ Config.addrLimit ≤ hullEnd (srcRect (sourceOf s))
  · exact .inl ⟨.inr h2, by rw [if_neg h1, if_pos h2]⟩
  have hc : ¬ GradientConfigBad s := by
    rintro (h | h)
    exacts [h1 h, h2 h]
  rw [if_neg h1, if_neg h2]
  by_cases h3 : Interior s s.opX.toNat s.opY.toNat
  swap
  · have h3' : ¬ interior (sourceOf s) s.opX.toNat s.opY.toNat = true := fun h => h3 ((interior_eq _ _ _).mp h)
    rw [if_neg h3']
    cases he : effectiveConv v c
    · exact .inr (.inl ⟨hc, h3, rfl, rfl⟩)
    · exact .inr (.inr (.inl ⟨hc, h3, rfl, rfl⟩))
  have h3' := (interior_eq _ _ _).mpr h3
  rw [if_pos h3', pixelTap_eq _ _ _ h3.1 h3.2.2.1]
  by_cases h4 : NineExist s s.opX.toNat s.opY.toNat
  · have := gradientOf_ok (kernelPairFor s.cfg v) (tap := checkedTap s.cfg s.mem (sourceOf s) s.opX.toNat s.opY.toNat)
      (p := window s s.opX.toNat s.opY.toNat) (fun i j hi hj => memRead_byte_ok (h4 i j hi hj))
    exact .inr (.inr (.inr (.inr ⟨hc, h3, h4, by simp only [this]; rfl⟩)))
  · refine .inr (.inr (.inr (.inl ⟨hc, h3, h4, ?_⟩)))
    have ⟨e, he⟩ := gradientSums_error (kernelPairFor s.cfg v)
      (tap := checkedTap s.cfg s.mem (sourceOf s) s.opX.toNat s.opY.toNat) (by
        simp only [NineExist, not_forall] at h4
        obtain ⟨i, j, hi, hj, hn⟩ := h4
        exact ⟨i, j, hi, hj, .bus, by simp [checkedTap, memRead, hn]⟩)
    have hg : gradientOf (checkedTap s.cfg s.mem (sourceOf s) s.opX.toNat s.opY.toNat) (kernelPairFor s.cfg v) = .error e := by
      simp [gradientOf, he]
    have : e = .bus := gradientOf_error (Q := fun e => e = .bus) (fun i j e he => memRead_error he) hg
    subst this
    simp only [hg]

/-! ### The step -/

/-- A step takes the next host action, and performs it on the state without it. -/
theorem step_cons {s : State} {a : HostAction} {rest : List HostAction} (h : s.host = a :: rest) :
    step s = hostAct exec a { s with host := rest } := by
  simp [step, runHost, h]

/-- An action that is no CMD write and no reset changes registers only as `writeReg` does. -/
theorem hostAct_regWrite {s : State} {r : Reg} {w : Word} (h : r ≠ .cmd) :
    hostAct exec (.regWrite (BitVec.ofNat 8 (regOffset r)) 4 w) s = .next (writeReg r w s) := by
  cases r with
  | cmd => exact absurd rfl h
  | kx k => fin_cases k <;> rfl
  | ky k => fin_cases k <;> rfl
  | _ => rfl

end Sys2Proof.Machine
end

