-- ==== Sys2Proof/Laws/Outcome.lean ====
section
/-! SUPPORT. Every way a command ends, as a record update (`exec_image_cases`, `exec_plain_cases`), and the fields of the STATUS
words it ends with. -/

namespace Sys2Proof.Machine

theorem raiseError_plain_eq (e : CmdError) (s : State) :
    raiseError e false s = { s with status := failWord (errorCode e).toNat s.status } := by
  simp [raiseError, statusAfterError_eq]

theorem complete_eq (e k : Bool) (s : State) : complete e k s = { s with status := doneWord e k s.status } := by
  simp [complete, statusAfterDone_eq]

theorem imageError_eq {e : CmdError} {foot : List Rect} {s : State} (h : e ≠ .bus) :
    imageError e foot s = { s with dstW := 0, dstH := 0, status := failWord (errorCode e).toNat s.status } := by
  simp [imageError, h, raiseError, statusAfterError_eq]

theorem imageError_bus_eq {foot : List Rect} {s : State} :
    imageError .bus foot s = { s with
      mem := (leaveResidue foot s).mem, dstW := 0, dstH := 0, status := failWord 6 s.status, freeCount := s.freeCount + 1 } := by
  simp only [imageError, raiseError, statusAfterError_eq, errorCode]
  rfl

/-- The fields of the word `Done` leaves. -/
theorem doneWord_fields (e k : Bool) (o : Word) :
    statusDone (doneWord e k o) = true ∧ statusErr (doneWord e k o) = false ∧ statusEmpty (doneWord e k o) = e ∧
    statusKnil (doneWord e k o) = k ∧ statusErrCode (doneWord e k o) = 0 ∧ statusAnyErr (doneWord e k o) = statusAnyErr o ∧
    statusReserved (doneWord e k o) = statusReserved o := by
  rw [← statusAfterDone_eq]; simp

/-- The fields of the word `Fail` leaves. -/
theorem failWord_fields (e : CmdError) (o : Word) :
    statusDone (failWord (errorCode e).toNat o) = false ∧ statusErr (failWord (errorCode e).toNat o) = true ∧
    statusEmpty (failWord (errorCode e).toNat o) = false ∧ statusKnil (failWord (errorCode e).toNat o) = false ∧
    statusErrCode (failWord (errorCode e).toNat o) = errorCode e ∧ statusAnyErr (failWord (errorCode e).toNat o) = true ∧
    statusReserved (failWord (errorCode e).toNat o) = statusReserved o := by
  rw [← statusAfterError_eq]; simp

/-- The dimensions an image-producing command publishes fit 16 bits. -/
theorem imageForm_bound {s : State} {i : Instr} {d p : Bool} {ow oh : Nat} (hf : imageForm s i = some (d, p, ow, oh)) :
    ow < 65536 ∧ oh < 65536 := by
  have h1 := s.srcW.isLt
  have h2 := s.srcH.isLt
  cases i <;> simp only [imageForm, sourceOf, Option.some.injEq, Prod.mk.injEq, reduceCtorEq] at hf <;> omega

/-- An image-producing command ends empty, with an error of its checks, with ErrBus, or with its image. -/
theorem exec_image_cases {s t : State} {i : Instr} {d p : Bool} {ow oh : Nat} (hf : imageForm s i = some (d, p, ow, oh))
    (h : exec i s = .next t) :
    (undersized (sourceOf s) = true ∧ t = { s with dstW := 0, dstH := 0, status := doneWord true (nilForm i) s.status }) ∨
    (undersized (sourceOf s) = false ∧ ∃ e, e ≠ .bus ∧ e ≠ .illegal ∧ e ≠ .range ∧ imageChecks s d p ow oh = .error e ∧
      t = { s with dstW := 0, dstH := 0, status := failWord (errorCode e).toNat s.status }) ∨
    (undersized (sourceOf s) = false ∧ imageChecks s d p ow oh = .error .bus ∧ t = { s with
      mem := (leaveResidue (writeFoot s d p ow oh) s).mem
      dstW := 0
      dstH := 0
      status := failWord 6 s.status
      freeCount := s.freeCount + 1 }) ∨
    (undersized (sourceOf s) = false ∧ ChecksPass s d p ow oh ∧ ∃ m, t = { s with
      mem := m
      dstW := BitVec.ofNat 16 ow
      dstH := BitVec.ofNat 16 oh
      status := doneWord false (nilForm i) s.status } ∧
      ∀ a, (∀ r ∈ writeFoot s d p ow oh, ¬ InRect r a) → m.read a = s.mem.read a) := by
  obtain ⟨body, he, -, -, hok⟩ := exec_image hf
  rw [he] at h
  cases h
  rcases imageCommand_cases d p ow oh (nilForm i) body s with ⟨hu, h⟩ | ⟨hu, e, hc, h⟩ | ⟨hu, e, hc, hbd, h⟩ | ⟨hu, m, hc, hbd, h⟩
  · exact .inl ⟨hu, by rw [h, complete_eq]; rfl⟩
  · by_cases hbus : e = .bus
    · subst hbus
      exact .inr (.inr (.inl ⟨hu, hc, by rw [h, imageError_bus_eq]⟩))
    · refine .inr (.inl ⟨hu, e, hbus, ?_, ?_, hc, by rw [h, imageError_eq hbus]⟩) <;>
        rcases imageChecks_error hc with rfl | rfl | rfl | rfl <;> decide
  · obtain ⟨hw, hh⟩ := undersized_eq_false.mp hu
    obtain ⟨m, hm, -⟩ := hok hw hh (checksPass_of_ok hc)
    rw [hm] at hbd
    cases hbd
  · obtain ⟨hw, hh⟩ := undersized_eq_false.mp hu
    obtain ⟨m', hm, hfr⟩ := hok hw hh (checksPass_of_ok hc)
    rw [hm] at hbd
    cases hbd
    exact .inr (.inr (.inr ⟨hu, checksPass_of_ok hc, m, by rw [h, complete_eq]; rfl, hfr⟩))

/-- Any other command ends without error, or is a GRADIENT that ends with ErrConfig, ErrRange or ErrBus. -/
theorem exec_plain_cases {s t : State} {i : Instr} (hf : imageForm s i = none) (h : exec i s = .next t) :
    (∃ u : State, t = { u with status := doneWord false (nilForm i) s.status } ∧ u.status = s.status) ∨
    ∃ v k e, i = .gradient v k ∧ e ≠ .illegal ∧ e ≠ .align ∧ e ≠ .overlap ∧ (e = .range → k = .checked ∧ v ≠ .sobelFast) ∧
      t = { s with status := failWord (errorCode e).toNat s.status } := by
  cases i <;> simp only [imageForm, reduceCtorEq] at hf
  case gradient v c =>
    rcases exec_gradient s v c with ⟨-, h'⟩ | ⟨-, -, hc, h'⟩ | ⟨-, -, -, h'⟩ | ⟨-, -, -, h'⟩ | ⟨-, -, -, h'⟩ <;>
      rw [h'] at h <;> cases h
    · exact .inr ⟨v, c, .config, rfl, by decide, by decide, by decide, by simp, raiseError_plain_eq _ _⟩
    · refine .inr ⟨v, c, .range, rfl, by decide, by decide, by decide, fun _ => ?_, raiseError_plain_eq _ _⟩
      rw [effectiveConv_eq_checked] at hc
      push Not at hc
      cases c
      · exact ⟨rfl, hc.2⟩
      · exact absurd rfl hc.1
    · exact .inr ⟨v, c, .bus, rfl, by decide, by decide, by decide, by simp, raiseError_plain_eq _ _⟩
    · exact .inl ⟨_, complete_eq _ _ _, rfl⟩
  all_goals
    cases h
    exact .inl ⟨_, complete_eq _ _ _, rfl⟩

end Sys2Proof.Machine
end

