-- ==== Sys2Proof/Laws/PerInstr.lean ====
section
/-! SUPPORT. Statements made for every constructor of `Instr`, one lemma each. -/

namespace Sys2Proof.Laws.EncodeShape

open Sys2Proof

/-- Table E2, column OPC. -/
def opcode : Instr → BitVec 4
  | .nop => 0
  | .gradient _ _ => 1
  | .magnitude _ => 2
  | .filter _ _ _ => 3
  | .filterMath => 4
  | .gradPlanes => 5
  | .filterSimd => 6
  | .isqrtNewton => 7
  | .isqrtBisect => 8
  | .klookup _ => 9

/-- Table E1: the word of a command has ZERO = 0 and the OPC of its row (R91, R92, R93). -/
def Statement (i : Instr) : Prop := fieldZero (encode i) = 0 ∧ fieldOpc (encode i) = opcode i

/-- The fields of a packed word. -/
theorem packed (opc : BitVec 4) : ∀ (var : BitVec 3) (conv : BitVec 1) (mag : BitVec 2),
    fieldZero (packCommand opc var conv mag) = 0 ∧ fieldOpc (packCommand opc var conv mag) = opc := by
  revert opc
  decide +kernel

theorem nop : Statement .nop := packed 0 0 0 0
theorem gradient (v : Variant) (c : Conv) : Statement (.gradient v c) := packed 1 (variantCode v) (convCode c) 0
theorem magnitude (m : Mag) : Statement (.magnitude m) := packed 2 0 0 (magCode m)
theorem filter (v : Variant) (c : Conv) (m : Mag) : Statement (.filter v c m) :=
  packed 3 (variantCode v) (convCode c) (magCode m)
theorem filterMath : Statement .filterMath := packed 4 0 0 0
theorem gradPlanes : Statement .gradPlanes := packed 5 0 0 0
theorem filterSimd : Statement .filterSimd := packed 6 0 0 0
theorem isqrtNewton : Statement .isqrtNewton := packed 7 0 0 0
theorem isqrtBisect : Statement .isqrtBisect := packed 8 0 0 0
theorem klookup (v : Variant) : Statement (.klookup v) := packed 9 (variantCode v) 0 0

end Sys2Proof.Laws.EncodeShape
end

