-- ==== Sys2Proof/Tests/Slice0.lean ====
section
/-! SUPPORT. Tests. Expected results are the vectors of spec/95_test_vectors.md (named V<n> in the docstrings) or come from the
rule named. The theorems `test_meets_<Name>` show concrete states and operands that meet the hypotheses of Obligations.<Name>. -/

namespace Sys2Proof.Tests

-- Elaborated one after another: many kernel evaluations at a time need more threads than the memory limit allows.
set_option Elab.async false

open Sys2Proof Sys2Proof.Machine

/-! ### States and views -/

/-- The bytes 0x1000 to 0x3FFF exist; the OPEN kernel pairs are taken to be the Sobel pair. -/
def testCfg (policy : RoundPolicy) : Cfg := ⟨0, [⟨0x1000, 0x3FFF⟩], sobelPair, sobelPair, policy⟩

/-- Bytes from an address on, in the canonical form over zeros. -/
def cellsAt (a : Nat) (l : List Nat) : List Host.Cell :=
  (l.zipIdx.map fun p => (a + p.2, BitVec.ofNat 8 p.1)).filter fun c => c.2 ≠ 0

/-- A machine after reset with a source image at 0x1000, output at 0x1100, planes at 0x2000 and 0x2100. -/
def withImage (w h stride : Nat) (pixels : List Nat) : State :=
  { State.reset with
    cfg := testCfg .ceil
    srcBase := 0x1000
    srcW := BitVec.ofNat 16 w
    srcH := BitVec.ofNat 16 h
    srcStride := BitVec.ofNat 16 stride
    dstBase := 0x1100
    gxBase := 0x2000
    gyBase := 0x2100
    mem := ⟨some 0, cellsAt 0x1000 pixels⟩ }

/-- Image T. -/
def imageT : State := withImage 3 3 3 [0, 0, 0, 0, 0, 0, 255, 255, 255]

/-- Image B, its padding bytes 0xAA. -/
def imageB : State := withImage 5 4 8
  ([10, 10, 10, 10, 10, 0xAA, 0xAA, 0xAA] ++ [10, 12, 15, 20, 20, 0xAA, 0xAA, 0xAA] ++
    [10, 14, 22, 30, 30, 0xAA, 0xAA, 0xAA] ++ [10, 10, 10, 10, 40])

/-- Image U. -/
def imageU : State := withImage 3 3 3 [77, 77, 77, 77, 77, 77, 77, 77, 77]

/-- The same state under another round policy. -/
def underPlusOne (s : State) : State := { s with cfg := testCfg .plusOne }

/-- The pixel GRADIENT is asked for. -/
def atPixel (s : State) (x y : Nat) : State := { s with opX := BitVec.ofNat 16 x, opY := BitVec.ofNat 16 y }

/-- The host's actions to come. -/
def hostDoes (s : State) (l : List HostAction) : State := { s with host := l }

/-- The next state, if there is one. -/
def after (o : Host.Outcome State Fault Refusal) : Option State :=
  match o with
  | .next t => some t
  | .fault _ => none
  | .refused _ => none

/-- The name of a stop, if there is one. -/
def stopOf (o : Host.Outcome State Fault Refusal) : Option (Fault ⊕ Refusal) :=
  match o with
  | .next _ => none
  | .fault f => some (.inl f)
  | .refused r => some (.inr r)

/-- `n` bytes from an address on. -/
def bytesAt (s : State) (a n : Nat) : List Nat := (List.range n).map fun k => (s.mem.read (a + k)).toNat

/-- `n` 16-bit samples from an address on. -/
def halvesAt (s : State) (a n : Nat) : List Nat := (List.range n).map fun k => readHalf s.mem (a + 2 * k)

theorem next_of_after {o : Host.Outcome State Fault Refusal} {p : State → Bool} (h : (after o).any p = true) :
    ∃ t, o = .next t ∧ p t = true := by
  cases o with
  | next t => exact ⟨t, rfl, h⟩
  | fault f => cases h
  | refused r => cases h

theorem fault_of_stop {o : Host.Outcome State Fault Refusal} {f : Fault} (h : stopOf o = some (.inl f)) : o = .fault f := by
  cases o with
  | next t => cases h
  | fault g => cases h; rfl
  | refused r => cases h

/-! ### Well-formedness -/

/-- R95: values 0 to 4 have names, so `unrecognised` does not stand for them. -/
theorem test_wf_gradient : (Instr.gradient (.unrecognised 0) .checked).wf = false := by decide
theorem test_wf_filter : (Instr.filter (.unrecognised 4) .fast .float).wf = false := by decide
theorem test_wf_klookup : (Instr.klookup (.unrecognised 2)).wf = false := by decide
theorem test_wf_boundary : (Instr.klookup (.unrecognised 5)).wf = true ∧ (Instr.klookup (.unrecognised 7)).wf = true := by decide

/-! ### Decoding: words written out from Table E1 as ZERO, MAG, CONV, VAR, OPC -/

theorem test_decode_nop : decode 0b0000000000000000000000_00_0_000_0000#32 = .ok .nop := by decide
theorem test_decode_gradient : decode 0b0000000000000000000000_00_1_011_0001#32 = .ok (.gradient .scharr .fast) := by decide
theorem test_decode_magnitude : decode 0b0000000000000000000000_10_0_000_0010#32 = .ok (.magnitude .float) := by decide
theorem test_decode_filter :
    decode 0b0000000000000000000000_01_1_010_0011#32 = .ok (.filter .laplacian .fast .bisect) := by decide
theorem test_decode_filterMath : decode 0b0000000000000000000000_00_0_000_0100#32 = .ok .filterMath := by decide
theorem test_decode_gradPlanes : decode 0b0000000000000000000000_00_0_000_0101#32 = .ok .gradPlanes := by decide
theorem test_decode_filterSimd : decode 0b0000000000000000000000_00_0_000_0110#32 = .ok .filterSimd := by decide
theorem test_decode_isqrtNewton : decode 0b0000000000000000000000_00_0_000_0111#32 = .ok .isqrtNewton := by decide
theorem test_decode_isqrtBisect : decode 0b0000000000000000000000_00_0_000_1000#32 = .ok .isqrtBisect := by decide
theorem test_decode_klookup : decode 0b0000000000000000000000_00_0_001_1001#32 = .ok (.klookup .sobelFast) := by decide

/-- V6 to V13c: the clause of R98 each word breaks. -/
theorem test_decode_illegal :
    [0x0000000A#32, 0x0000000F#32, 0x00000303#32, 0x00000302#32, 0x00000010#32, 0x00000014#32, 0x00000084#32, 0x00000104#32,
      0x00000101#32].map decode =
      [.error .reservedOpcode, .error .reservedOpcode, .error .reservedMag, .error .reservedMag, .error .unusedVar,
        .error .unusedVar, .error .unusedConv, .error .unusedMag, .error .unusedMag] ∧
    [0x00000082#32, 0x00000012#32, 0x00000089#32, 0x00000109#32, 0x00000403#32, 0x80000000#32, 0x00000015#32,
      0x00000018#32].map decode =
      [.error .unusedConv, .error .unusedVar, .error .unusedConv, .error .unusedMag, .error .zeroBits, .error .zeroBits,
        .error .unusedVar, .error .unusedVar] := by decide

/-- R101: the examples of the textual form. -/
theorem test_assemble :
    assemble "FILTER" [("var", "SCHARR"), ("conv", "FAST"), ("mag", "BISECT")] = some 0x000001B3#32 ∧
    assemble "GRADIENT" [("var", "SOBEL")] = some 0x00000001#32 ∧
    assemble "KLOOKUP" [("var", "7")] = some 0x00000079#32 ∧ assemble "MAGNITUDE" [("var", "SOBEL")] = none := by decide +kernel

/-! ### Commands -/

/-- V19: NOP after a KLOOKUP that set KNIL. -/
theorem test_nop : (after (exec .nop { imageT with status := 0x109 })).map (·.status) = some 0x101 := by decide +kernel

/-- V15. -/
theorem test_klookup_sobel :
    (after (exec (.klookup .sobel) imageT)).map (fun t => (t.kx.k3, t.kx.k5, t.ky.k1, t.ky.k3, t.status)) =
      some (0xFFFFFFFE, 2, 0xFFFFFFFE, 0, 1) := by decide +kernel

/-- V14: KNIL. -/
theorem test_klookup_nil :
    (after (exec (.klookup (.unrecognised 5)) { imageT with kx := readout scharrPair.kx })).map (fun t => (t.kx, t.status)) =
      some (zeroTaps, 9) := by decide +kernel

/-- V22: both components are absolute values; `sy` is −22. -/
theorem test_gradient :
    (after (exec (.gradient .sobel .checked) (atPixel imageB 2 2))).map (fun t => (t.resGx, t.resGy, t.status)) =
      some (40, 22, 1) := by decide +kernel

/-- V27 and V31: ErrRange at `x = W − 1`; ErrConfig first. -/
theorem test_gradient_errors :
    (after (exec (.gradient .sobel .checked) (atPixel imageB 4 1))).map (·.status) = some 0x152 ∧
    (after (exec (.gradient .sobel .checked) { atPixel imageB 4 1 with srcStride := 4 })).map (·.status) = some 0x122 := by
  decide +kernel

/-- V52: (3, 4) by each strategy, under each policy. -/
theorem test_magnitude :
    [Mag.newton, .bisect, .float].map (fun m =>
      ((after (exec (.magnitude m) { imageT with opGx := 3, opGy := 4 })).map (·.resMag),
        (after (exec (.magnitude m) (underPlusOne { imageT with opGx := 3, opGy := 4 }))).map (·.resMag))) =
      [(some 5, some 6), (some 5, some 6), (some 5, some 6)] := by decide +kernel

/-- V54, V55: the clamp's threshold. -/
theorem test_magnitude_clamp :
    [Mag.newton, .bisect, .float].map (fun m =>
      ((after (exec (.magnitude m) { imageT with opGx := 0, opGy := 254 })).map (·.resMag),
        (after (exec (.magnitude m) { imageT with opGx := 254, opGy := 1 })).map (·.resMag))) =
      [(some 254, some 255), (some 254, some 255), (some 254, some 255)] := by decide +kernel

/-- V43: the output stride is 4; the byte between the rows is not written. -/
theorem test_filter :
    (after (exec (.filter .sobel .checked .newton) { imageB with dstStride := 4 })).map
      (fun t => (t.dstW, t.dstH, bytesAt t 0x1100 8, t.status)) = some (3, 2, [30, 58, 75, 0, 31, 46, 52, 0], 1) := by
  decide +kernel

/-- V44: Scharr, FAST, FLOAT. -/
theorem test_filter_scharr :
    (after (exec (.filter .scharr .fast .float) imageB)).map (bytesAt · 0x1100 6) = some [115, 231, 255, 140, 204, 194] := by
  decide +kernel

/-- V44a. -/
theorem test_filterMath : (after (exec .filterMath imageB)).map (bytesAt · 0x1100 6) = some [30, 58, 75, 31, 46, 52] := by
  decide +kernel

/-- V104: the hulls meet although no byte is shared. -/
theorem test_filterMath_overlap :
    (after (exec .filterMath { imageB with dstBase := 0x1005, dstStride := 8 })).map (fun t => (t.status, t.dstW, t.mem)) =
      some (0x142, 0, imageB.mem) := by decide +kernel

/-- V82: rows 1 of the planes of image B; the padding sample after the row's border is not written. -/
theorem test_gradPlanes :
    (after (exec .gradPlanes { imageB with mem := (imageB.mem.write 0x200A 0xEE).write 0x2010 0xEE })).map
      (fun t => (halvesAt t 0x2010 5, halvesAt t 0x2110 5, bytesAt t 0x200A 1, t.dstW)) =
      some ([0, 22, 32, 18, 0], [0, 20, 48, 72, 0], [0xEE], 5) := by decide +kernel

/-- V85: ErrAlign before ErrOverlap. -/
theorem test_gradPlanes_align :
    (after (exec .gradPlanes { imageB with gxBase := 0x2001, gyBase := 0x2001 })).map (·.status) = some 0x132 := by
  decide +kernel

/-- V92. -/
theorem test_filterSimd :
    (after (exec .filterSimd { imageB with dstBase := 0x3000 })).map (fun t => (t.dstW, t.dstH, bytesAt t 0x3000 20)) =
      some (5, 4, [0, 0, 0, 0, 0, 0, 30, 58, 75, 0] ++ [0, 31, 46, 52, 0, 0, 0, 0, 0, 0]) := by decide +kernel

/-- V90 under PLUS_ONE: the border is 1. -/
theorem test_filterSimd_plusOne :
    (after (exec .filterSimd (underPlusOne { imageT with dstBase := 0x3000 }))).map (bytesAt · 0x3000 9) =
      some [1, 1, 1, 1, 255, 1, 1, 1, 1] := by decide +kernel

/-- V62, V66, V69. -/
theorem test_isqrtNewton :
    [3, 4356789, 0xFFFFFFFF].map (fun n => (after (exec .isqrtNewton { imageT with opN := n })).map (·.resSqrt)) =
      [some 1, some 2087, some 65535] := by decide +kernel

/-- V74a, V76, V78. -/
theorem test_isqrtBisect :
    [16, 4356789, 0xFFFFFFFF].map (fun n => (after (exec .isqrtBisect { imageT with opN := n })).map (·.resSqrt)) =
      [some 4, some 2087, some 65535] := by decide +kernel

/-! ### The host's side -/

/-- V123: GRADIENT as the first command after reset. -/
theorem test_step_after_reset : (after (step (State.reset.withFetchWord 32 0x00000001))).map (·.status) = some 0x152 := by
  decide +kernel

/-- V131, V112: an illegal word is stored in CMD. -/
theorem test_step_illegal :
    (after (step (State.reset.withFetchWord 32 0x00000303))).map (fun t => (t.cmd, t.status)) = some (0x303, 0x112) := by
  decide +kernel

/-- V124, V126: a 16-bit field, and a register the host cannot write. -/
theorem test_host_writes :
    (after (step (hostDoes imageT [.regWrite 0x0C 4 0x00012345]))).map (·.srcW) = some 0x2345 ∧
    (after (step (hostDoes imageT [.regWrite 0x4C 4 9]))).map (·.resMag) = some 0 := by decide +kernel

/-- V128, V129: only bit 8 of a word written to STATUS matters. -/
theorem test_host_status :
    (after (step (hostDoes { imageT with status := 0x112 } [.regWrite 4 4 0x000000FF]))).map (·.status) = some 0x112 ∧
    (after (step (hostDoes { imageT with status := 0x112 } [.regWrite 4 4 0x00000100]))).map (·.status) = some 0x012 := by
  decide +kernel

/-- V127: an offset that is not listed reads 0. -/
theorem test_host_unlisted :
    [0x54#8, 0x5C#8, 0xA8#8, 0xFC#8].map (fun off => (after (step (hostDoes imageT [.regRead off 4]))).map (·.hostRead)) =
      [some (some 0), some (some 0), some (some 0), some (some 0)] := by decide +kernel

/-! ### States that meet the hypotheses of the statements -/

theorem checks_config {s : State} {d p : Bool} {ow oh : Nat} (h : imageChecks s d p ow oh = .error .config) :
    ConfigBad s d p ow oh := by
  rcases imageChecks_cases s d p ow oh with h' | h' | h' | h' | h'
  · exact h'.1
  · rw [h'.2.2] at h; cases h
  · rw [h'.2.2.2] at h; cases h
  · rw [h'.2.2.2.2] at h; cases h
  · rw [h'.2] at h; cases h

theorem checks_align {s : State} {d p : Bool} {ow oh : Nat} (h : imageChecks s d p ow oh = .error .align) :
    ¬ ConfigBad s d p ow oh ∧ AlignBad s p := by
  rcases imageChecks_cases s d p ow oh with h' | h' | h' | h' | h'
  · rw [h'.2] at h; cases h
  · exact ⟨h'.1, h'.2.1⟩
  · rw [h'.2.2.2] at h; cases h
  · rw [h'.2.2.2.2] at h; cases h
  · rw [h'.2] at h; cases h

theorem checks_overlap {s : State} {d p : Bool} {ow oh : Nat} (h : imageChecks s d p ow oh = .error .overlap) :
    ¬ ConfigBad s d p ow oh ∧ ¬ AlignBad s p ∧ OverlapBad s d p ow oh := by
  rcases imageChecks_cases s d p ow oh with h' | h' | h' | h' | h'
  · rw [h'.2] at h; cases h
  · rw [h'.2.2] at h; cases h
  · exact ⟨h'.1, h'.2.1, h'.2.2.1⟩
  · rw [h'.2.2.2.2] at h; cases h
  · rw [h'.2] at h; cases h

theorem checks_bus {s : State} {d p : Bool} {ow oh : Nat} (h : imageChecks s d p ow oh = .error .bus) :
    ¬ ConfigBad s d p ow oh ∧ ¬ AlignBad s p ∧ ¬ OverlapBad s d p ow oh ∧ BusBad s d p ow oh := by
  rcases imageChecks_cases s d p ow oh with h' | h' | h' | h' | h'
  · rw [h'.2] at h; cases h
  · rw [h'.2.2] at h; cases h
  · rw [h'.2.2.2] at h; cases h
  · exact ⟨h'.1, h'.2.1, h'.2.2.1, h'.2.2.2.1⟩
  · rw [h'.2] at h; cases h

/-- Image B passes the checks of FILTER, of GRAD_PLANES and of FILTER_SIMD. -/
theorem passes_filter : ChecksPass imageB true false 3 2 := checksPass_of_ok (by decide +kernel)
theorem passes_planes : ChecksPass imageB false true 5 4 := checksPass_of_ok (by decide +kernel)
theorem passes_simd : ChecksPass { imageB with dstBase := 0x3000 } true true 5 4 := checksPass_of_ok (by decide +kernel)

theorem interior_of {s : State} {x y : Nat} (h : interior (sourceOf s) x y = true) : Interior s x y :=
  (interior_eq s x y).mp h

theorem not_interior_of {s : State} {x y : Nat} (h : interior (sourceOf s) x y = false) : ¬ Interior s x y :=
  fun hi => by rw [(interior_eq s x y).mpr hi] at h; cases h

/-- Image B is no ErrConfig of GRADIENT, and has its nine bytes at the corner (3, 2) of its interior. -/
theorem sound_source : ¬ GradientConfigBad (atPixel imageB 3 2) := by unfold GradientConfigBad; decide +kernel
theorem nine_exist : NineExist (atPixel imageB 3 2) 3 2 := by
  intro i j hi hj
  interval_cases i <;> interval_cases j <;> decide +kernel

theorem test_meets_EncodeThenDecode :
    (Instr.filter (.unrecognised 7) .fast .float).wf = true ∧ (Instr.klookup .sobel).wf = true := by decide

theorem test_meets_DecodeThenEncode : decode 0x000002F3#32 = .ok (.filter (.unrecognised 7) .fast .float) := by decide

/-- One word for each clause of R98, at the ends of its range. -/
theorem test_meets_IllegalWordsTakeErrIllegal :
    (∀ c ∈ [0x00000400#32, 0x80000000#32, 0x0000000A#32, 0x0000000F#32, 0x00000101#32, 0x00000303#32, 0x00000089#32,
      0x00000012#32], IllegalWord c) ∧
    (∀ c ∈ [0x00000000#32, 0x000000F1#32, 0x000002F3#32, 0x00000079#32], ¬ IllegalWord c) ∧
    (hostDoes imageT [.regWrite 0 4 0xA]).host = .regWrite 0 4 0xA :: [] := by
  refine ⟨fun c hc => ?_, fun c hc => ?_, rfl⟩
  · simp only [List.mem_cons, List.not_mem_nil, or_false] at hc
    rcases hc with rfl | rfl | rfl | rfl | rfl | rfl | rfl | rfl <;> simp [IllegalWord]
  · simp only [List.mem_cons, List.not_mem_nil, or_false] at hc
    rcases hc with rfl | rfl | rfl | rfl <;> simp [IllegalWord]

theorem test_meets_CmdWriteRunsTheDecodedCommand :
    (hostDoes imageT [.regWrite 0 4 0x0000000A]).host = .regWrite 0 4 0x0000000A :: [] ∧ decode 0x00000003#32 =
      .ok (.filter .sobel .checked .newton) ∧
    (∃ t, step (hostDoes imageT [.regWrite 0 4 0x0000000A]) = .next t) ∧
    (hostDoes imageT [.regRead 0 4]).host = .regRead 0 4 :: [] :=
  ⟨rfl, by decide, ⟨_, rfl⟩, rfl⟩

theorem test_meets_TableWordRunsNext :
    decodeTableWord 32 0x000002F3 = some (.filter (.unrecognised 7) .fast .float) ∧ decodeTableWord 8 0x09 =
      some (.klookup .sobel) := by decide

theorem test_meets_IdleKeepsEverything : State.reset.host = [] := rfl

theorem test_meets_RunTakesOneLinePerStep :
    stepsTo 2 (hostDoes imageT [.regRead 4 4, .memRead 0x1006]) { imageT with hostRead := some 255 } :=
  ⟨{ hostDoes imageT [.memRead 0x1006] with hostRead := some 0 }, by rfl, { imageT with hostRead := some 255 }, by rfl, rfl⟩

/-- Each way of stopping, and a step that goes on. -/
theorem test_meets_StopsOnlyWhereNamed :
    (after (step State.reset)).isSome = true ∧
    stopOf (step (imageT.withFetchWord 32 0x81)) = some (.inl .fastGradientOutOfRange) ∧
    stopOf (step (hostDoes imageT [.memRead 0x4000])) = some (.inl .hostByteAbsent) ∧
    stopOf (step (hostDoes imageT [.memWrite 0x0FFF 1])) = some (.inl .hostByteAbsent) ∧
    stopOf (step (hostDoes imageT [.regRead 2 4])) = some (.inr .registerAccessNotAlignedWord) := by decide +kernel

theorem test_meets_RegisterMapIsTableS1 :
    regAt 0x00 = some .cmd ∧ regAt 0x50 = some .resSqrt ∧ regAt 0x54 = none ∧ regAt 0x60 = some (.kx 0) ∧
    regAt 0xA4 = some (.ky 8) ∧ regAt 0xA8 = none ∧ regAt 0x5C = none ∧ regAt 0xFC = none ∧ 0xFC % 4 = 0 := by decide

/-- A write to a register of each kind, an offset that is not listed, and an action that cannot change an RO register. -/
theorem test_meets_RegisterAccessKinds :
    (∀ r ∈ [Reg.srcW, .status, .resMag, .kx 8], r ≠ .cmd ∧
      (hostDoes imageT [.regWrite (BitVec.ofNat 8 (regOffset r)) 4 0x12345]).host =
        .regWrite (BitVec.ofNat 8 (regOffset r)) 4 0x12345 :: []) ∧
    accessOf .srcW = .rw ∧ accessOf .status = .w1c ∧ accessOf .resMag = .ro ∧ accessOf (.kx 8) = .ro ∧
    (0xFC#8).toNat % 4 = 0 ∧ (∀ r, regOffset r ≠ (0xFC#8).toNat) ∧
    (∃ u, step (hostDoes imageT [.regWrite 0 4 0]) = .next u) ∧
    (∃ u, step (hostDoes imageT [.memRead 0x1000]) = .next u) := by
  refine ⟨by decide +kernel, rfl, rfl, rfl, rfl, rfl, ?_, ⟨_, rfl⟩, ⟨_, rfl⟩⟩
  intro r
  cases r with
  | kx k => have := k.isLt; simp only [regOffset]; change 0x60 + 4 * k.val ≠ 252; omega
  | ky k => have := k.isLt; simp only [regOffset]; change 0x84 + 4 * k.val ≠ 252; omega
  | _ => decide

theorem test_meets_OtherRegisterAccessIsRefused :
    ((2 : Nat) ≠ 4 ∨ (0x08#8).toNat % 4 ≠ 0) ∧ ((4 : Nat) ≠ 4 ∨ (0x0A#8).toNat % 4 ≠ 0) ∧
    (hostDoes imageT [.regWrite 0x0A 4 7]).host = .regWrite 0x0A 4 7 :: [] ∧
    (hostDoes imageT [.regRead 0x08 2]).host = .regRead 0x08 2 :: [] ∧
    (255 < regBase ⟨1, [], sobelPair, sobelPair, .ceil⟩) := by decide +kernel

theorem test_meets_ResetClearsEveryRegister : (hostDoes imageB [.reset]).host = .reset :: [] := rfl

theorem reset_reads_zero (s : State) (r : Reg) : readReg r (resetRegisters s) = 0 := by
  cases r with
  | kx k => simp only [readReg, resetRegisters, State.reset, zeroTaps, tapAt]; split <;> rfl
  | ky k => simp only [readReg, resetRegisters, State.reset, zeroTaps, tapAt]; split <;> rfl
  | _ => rfl

theorem test_meets_EveryCommandAfterReset :
    (∀ r, readReg r (resetRegisters imageB) = 0) ∧
    imageForm (resetRegisters imageB) .filterSimd = some (true, true, 0, 0) ∧ Variant.scharr ≠ .sobelFast :=
  ⟨reset_reads_zero imageB, rfl, by decide⟩

/-- The last byte that exists, and a byte of the destination of an image. -/
theorem test_meets_MemoryAsState :
    memValid imageB.cfg 0x3FFF = true ∧ (hostDoes imageB [.memWrite 0x3FFF 1]).host = .memWrite 0x3FFF 1 :: [] ∧
    (hostDoes imageB [.memRead 0x1000]).host = .memRead 0x1000 :: [] ∧
    (∃ t, exec .filterMath imageB = .next t) ∧ InRect (srcRect (sourceOf imageB)) 0x101C ∧
    ¬ InRect (dstRect imageB 3 2) 0x1106 := by
  refine ⟨by decide +kernel, rfl, rfl, ⟨_, rfl⟩, ⟨4, 3, by decide, by decide, by decide⟩, ?_⟩
  rintro ⟨x, y, hx, hy, h⟩
  have hx' : x < 3 := hx
  have hy' : y < 2 := hy
  have h' : 0x1100 + y * 3 + x = 0x1106 := h
  omega

theorem test_meets_AbsentByteStopsTheHost :
    memValid imageB.cfg 0x4000 = false ∧ memValid imageB.cfg 0x0FFF = false ∧
    (hostDoes imageB [.memWrite 0x4000 1]).host = .memWrite 0x4000 1 :: [] ∧
    (hostDoes imageB [.memRead 0x0FFF]).host = .memRead 0x0FFF :: [] := by decide +kernel

theorem test_meets_AccessPrimitives :
    memValid imageB.cfg 0x3FFE = true ∧ memValid imageB.cfg (0x3FFE + 1) = true ∧ memValid imageB.cfg (0x3FFF + 1) = false := by
  decide +kernel

theorem test_meets_NopCommand : (0x00000010#32).extractLsb' 0 4 = 0 ∧ (0x00000010#32) ≠ 0 := by decide

theorem test_meets_NilPairGivesZeroGradient :
    ¬ GradientConfigBad (atPixel imageB 3 2) ∧
    Interior (atPixel imageB 3 2) (atPixel imageB 3 2).opX.toNat (atPixel imageB 3 2).opY.toNat ∧
    NineExist (atPixel imageB 3 2) 3 2 ∧ 3 ≤ (sourceOf imageB).w ∧ 3 ≤ (sourceOf imageB).h ∧
    ChecksPass imageB true false ((sourceOf imageB).w - 2) ((sourceOf imageB).h - 2) :=
  ⟨sound_source, interior_of (by decide +kernel), nine_exist, by decide +kernel, by decide +kernel, passes_filter⟩

theorem test_meets_KernelBankIsConstant :
    (∃ t, step (hostDoes imageB [.reset]) = .next t) ∧ ∃ t, exec (.klookup .scharr) imageB = .next t := ⟨⟨_, rfl⟩, ⟨_, rfl⟩⟩

theorem test_meets_MagnitudeCommand :
    imageT.cfg.roundPolicy = .ceil ∧ (underPlusOne imageT).cfg.roundPolicy = .plusOne := ⟨rfl, rfl⟩

/-- Operands on both sides of each threshold. -/
theorem test_meets_ClampThreshold :
    0 * 0 + 254 * 254 = 64516 ∧ 64516 < 254 * 254 + 1 * 1 ∧ 65025 ≤ 0 * 0 + 255 * 255 ∧ 4294967295 < 2 ^ 32 := by decide

theorem test_meets_StrategiesAgree : (4294967295 : Nat) < 2 ^ 32 ∧ (0 : Nat) < 2 ^ 32 := by decide

/-- One state for each clause: ErrConfig by the stride and by the hull's end, ErrRange, the undefined case, ErrBus (V34), the
result. -/
theorem test_meets_GradientCommand :
    GradientConfigBad { imageB with srcStride := 4 } ∧ GradientConfigBad { imageB with srcBase := 0xFFFFFFF0 } ∧
    (¬ GradientConfigBad (atPixel imageB 4 1) ∧ ¬ Interior (atPixel imageB 4 1) 4 1) ∧
    (¬ GradientConfigBad (atPixel imageB 0 1) ∧ ¬ Interior (atPixel imageB 0 1) 0 1) ∧
    (¬ GradientConfigBad { atPixel imageB 1 1 with srcBase := 0x0FFF } ∧
      Interior { atPixel imageB 1 1 with srcBase := 0x0FFF } 1 1 ∧
      ¬ NineExist { atPixel imageB 1 1 with srcBase := 0x0FFF } 1 1) ∧
    ¬ GradientConfigBad (atPixel imageB 3 2) ∧ Interior (atPixel imageB 3 2) 3 2 ∧ NineExist (atPixel imageB 3 2) 3 2 := by
  refine ⟨?_, ?_, ⟨?_, not_interior_of (by decide +kernel)⟩, ⟨?_, not_interior_of (by decide +kernel)⟩,
    ⟨?_, interior_of (by decide +kernel), ?_⟩, sound_source, interior_of (by decide +kernel), nine_exist⟩
  · unfold GradientConfigBad; decide +kernel
  · unfold GradientConfigBad; decide +kernel
  · unfold GradientConfigBad; decide +kernel
  · unfold GradientConfigBad; decide +kernel
  · unfold GradientConfigBad; decide +kernel
  · intro h
    exact absurd (h 0 0 (by decide) (by decide)) (by decide +kernel)

/-- FAST by its selector and FAST by its variant (V30). -/
theorem test_meets_FastGradientOutsideStops :
    exec (.gradient .scharr .fast) (atPixel imageB 0 1) = .fault .fastGradientOutOfRange ∧
    exec (.gradient .sobelFast .checked) (atPixel imageB 4 1) = .fault .fastGradientOutOfRange ∧
    ¬ GradientConfigBad (atPixel imageB 4 1) ∧ ¬ Interior (atPixel imageB 4 1) 4 1 :=
  ⟨fault_of_stop (by decide +kernel), fault_of_stop (by decide +kernel), by unfold GradientConfigBad; decide +kernel,
    not_interior_of (by decide +kernel)⟩

theorem test_meets_GradientWidths :
    ∃ t, exec (.gradient .scharr .fast) (atPixel imageB 3 2) = .next t ∧ statusDone t.status = true :=
  next_of_after (p := fun t => statusDone t.status) (by decide +kernel)

theorem test_meets_IndexingStrategiesAgree :
    Interior (atPixel imageB 3 2) (atPixel imageB 3 2).opX.toNat (atPixel imageB 3 2).opY.toNat ∧
    Variant.sobel ≠ .sobelFast ∧ ¬ GradientConfigBad (atPixel imageB 4 1) ∧ ¬ Interior (atPixel imageB 4 1) 4 1 :=
  ⟨interior_of (by decide +kernel), by decide, by unfold GradientConfigBad; decide +kernel,
    not_interior_of (by decide +kernel)⟩

/-- V100, V83, V104, V107, and a command that passes: one state for each clause. -/
theorem test_meets_ImageChecksInOrder :
    imageForm imageB (.filter .sobel .checked .newton) = some (true, false, 3, 2) ∧
    imageForm imageB .gradPlanes = some (false, true, 5, 4) ∧ 3 ≤ (sourceOf imageB).w ∧ 3 ≤ (sourceOf imageB).h ∧
    ConfigBad { imageB with srcStride := 4 } true false 3 2 ∧
    (¬ ConfigBad { imageB with gxBase := 0x2001 } false true 5 4 ∧ AlignBad { imageB with gxBase := 0x2001 } true) ∧
    (¬ ConfigBad { imageB with dstBase := 0x101C } true false 3 2 ∧ ¬ AlignBad { imageB with dstBase := 0x101C } false ∧
      OverlapBad { imageB with dstBase := 0x101C } true false 3 2) ∧
    (¬ ConfigBad { imageB with dstBase := 0x3FFC } true false 3 2 ∧ ¬ AlignBad { imageB with dstBase := 0x3FFC } false ∧
      ¬ OverlapBad { imageB with dstBase := 0x3FFC } true false 3 2 ∧ BusBad { imageB with dstBase := 0x3FFC } true false 3 2) ∧
    ChecksPass { imageB with dstBase := 0x101D } true false 3 2 :=
  ⟨rfl, rfl, by decide +kernel, by decide +kernel, checks_config (by decide +kernel), checks_align (by decide +kernel),
    checks_overlap (by decide +kernel), checks_bus (by decide +kernel), checksPass_of_ok (by decide +kernel)⟩

theorem test_meets_UndersizedGivesEmptyOutput :
    imageForm { imageB with srcW := 2, srcStride := 1 } .gradPlanes = some (false, true, 2, 4) ∧
    (sourceOf { imageB with srcW := 2, srcStride := 1 }).w < 3 ∧ (sourceOf { imageB with srcH := 0 }).h < 3 ∧
    3 ≤ (sourceOf imageT).w ∧ 3 ≤ (sourceOf imageT).h ∧ ∃ t, exec .filterMath imageT = .next t ∧ statusDone t.status = true :=
  ⟨rfl, by decide +kernel, by decide +kernel, by decide +kernel, by decide +kernel,
    next_of_after (p := fun t => statusDone t.status) (by decide +kernel)⟩

theorem test_meets_PublishedDimensions :
    imageForm imageB .nop = none ∧ imageForm imageB .filterSimd = some (true, true, 5, 4) ∧
    (∃ t, exec .filterSimd { imageB with dstStride := 3 } = .next t ∧ statusErr t.status = true) ∧
    (∃ t, exec .filterSimd { imageB with srcH := 2 } = .next t ∧ statusErr t.status = false) ∧
    (∃ t, exec .filterSimd imageB = .next t ∧ (!statusErr t.status) = true) ∧
    (hostDoes imageB [.regWrite 0 4 0x303]).host = .regWrite 0 4 0x303 :: [] ∧ decode 0x303#32 = .error .reservedMag ∧
    (∃ t, step (hostDoes imageB [.regWrite 0 4 0x303]) = .next t) ∧
    (hostDoes imageB [.regWrite 0x24 4 7]).host = .regWrite 0x24 4 7 :: [] := by
  refine ⟨rfl, rfl, next_of_after (p := fun t => statusErr t.status) (by decide +kernel), ?_,
    next_of_after (p := fun t => !statusErr t.status) (by decide +kernel), rfl, by decide, ⟨_, rfl⟩, rfl⟩
  exact ⟨_, rfl, by decide +kernel⟩

theorem test_meets_FilterWritesEverySample :
    3 ≤ (sourceOf imageB).w ∧ 3 ≤ (sourceOf imageB).h ∧
    ChecksPass imageB true false ((sourceOf imageB).w - 2) ((sourceOf imageB).h - 2) ∧ Interior imageB 1 1 ∧
    Interior imageB 3 2 :=
  ⟨by decide +kernel, by decide +kernel, passes_filter, interior_of (by decide +kernel), interior_of (by decide +kernel)⟩

/-- The smallest image. -/
theorem test_meets_FilterMathWritesEverySample :
    3 ≤ (sourceOf imageT).w ∧ 3 ≤ (sourceOf imageT).h ∧
    ChecksPass imageT true false ((sourceOf imageT).w - 2) ((sourceOf imageT).h - 2) ∧ Interior imageT 1 1 :=
  ⟨by decide +kernel, by decide +kernel, checksPass_of_ok (by decide +kernel), interior_of (by decide +kernel)⟩

theorem test_meets_GradPlanesWritesBothPlanes :
    3 ≤ (sourceOf imageB).w ∧ 3 ≤ (sourceOf imageB).h ∧ ChecksPass imageB false true (sourceOf imageB).w (sourceOf imageB).h ∧
    Interior imageB 3 2 ∧ ¬ Interior imageB 4 3 :=
  ⟨by decide +kernel, by decide +kernel, passes_planes, interior_of (by decide +kernel), not_interior_of (by decide +kernel)⟩

theorem test_meets_FilterSimdWritesEverySample :
    3 ≤ (sourceOf { imageB with dstBase := 0x3000 }).w ∧ 3 ≤ (sourceOf { imageB with dstBase := 0x3000 }).h ∧
    ChecksPass { imageB with dstBase := 0x3000 } true true 5 4 :=
  ⟨by decide +kernel, by decide +kernel, passes_simd⟩

theorem test_meets_SimdInteriorIsFilter :
    SameSource { imageB with dstBase := 0x3000 } imageB ∧ Interior { imageB with dstBase := 0x3000 } 3 2 ∧
    (∃ t, exec .filterSimd { imageB with dstBase := 0x3000 } = .next t ∧ statusDone t.status = true) ∧
    ∃ t, exec (.filter .sobel .fast .bisect) imageB = .next t ∧ statusDone t.status = true :=
  ⟨⟨rfl, fun _ _ => rfl⟩, interior_of (by decide +kernel),
    next_of_after (p := fun t => statusDone t.status) (by decide +kernel),
    next_of_after (p := fun t => statusDone t.status) (by decide +kernel)⟩

theorem test_meets_UniformImageGivesZero :
    ConstantImage imageU 77 ∧ Interior imageU 1 1 ∧ (∃ t, exec .filterMath imageU = .next t ∧ statusDone t.status = true) ∧
    ∃ t, exec (.filter .scharr .fast .newton) imageU = .next t ∧ statusDone t.status = true := by
  refine ⟨?_, interior_of (by decide +kernel), next_of_after (p := fun t => statusDone t.status) (by decide +kernel),
    next_of_after (p := fun t => statusDone t.status) (by decide +kernel)⟩
  intro x y hx hy
  have hx' : x < 3 := hx
  have hy' : y < 3 := hy
  interval_cases x <;> interval_cases y <;> decide +kernel

theorem test_meets_KnownVector :
    ∀ x < 3, sourcePixel imageT x 0 = 0 ∧ sourcePixel imageT x 1 = 0 ∧ sourcePixel imageT x 2 = 255 := by decide +kernel

/-- An image-producing command and another that end with an error; an error of code 2 and one of code 6. -/
theorem test_meets_ErrorEntry :
    (∃ t, exec .filterSimd { imageB with dstStride := 3 } = .next t ∧ statusErr t.status = true) ∧
    (∃ t, exec (.gradient .sobel .checked) (atPixel imageB 0 1) = .next t ∧ statusErr t.status = true) ∧
    (∃ t, exec .filterMath { imageB with dstBase := 0x3FFC } = .next t ∧ decide (statusErrCode t.status = 6) = true) ∧
    imageForm imageB .filterSimd = some (true, true, 5, 4) ∧ imageForm imageB (.gradient .sobel .checked) = none ∧
    (hostDoes imageB [.regWrite 0 4 0x303]).host = .regWrite 0 4 0x303 :: [] ∧ decode 0x303#32 = .error .reservedMag :=
  ⟨next_of_after (p := fun t => statusErr t.status) (by decide +kernel),
    next_of_after (p := fun t => statusErr t.status) (by decide +kernel), ⟨_, rfl, by decide +kernel⟩, rfl, rfl, rfl, by decide⟩

theorem test_meets_ErrorCodesByCommand :
    (∃ t, exec .gradPlanes { imageB with gxBase := 0x2001 } = .next t ∧ decide (statusErrCode t.status = 3) = true) ∧
    (∃ t, exec .filterMath { imageB with dstBase := 0x101C } = .next t ∧ decide (statusErrCode t.status = 4) = true) ∧
    (∃ t, exec (.gradient .sobel .checked) (atPixel imageB 0 1) = .next t ∧ decide (statusErrCode t.status = 5) = true) ∧
    ∃ t, exec .isqrtNewton imageB = .next t :=
  ⟨⟨_, rfl, by decide +kernel⟩, ⟨_, rfl, by decide +kernel⟩,
    next_of_after (p := fun t => decide (statusErrCode t.status = 5)) (by decide +kernel), ⟨_, rfl⟩⟩

theorem test_meets_StatusReportsTheLastCommand :
    (∃ t, exec (.filter (.unrecognised 5) .checked .newton) { imageB with srcH := 2 } = .next t ∧
      (statusEmpty t.status && statusKnil t.status) = true) ∧
    (hostDoes imageB [.regWrite 0 4 0x303]).host = .regWrite 0 4 0x303 :: [] ∧ decode 0x303#32 = .error .reservedMag ∧
    (∃ t, step (hostDoes imageB [.regWrite 0 4 0x303]) = .next t) ∧ (hostDoes imageB [.reset]).host = .reset :: [] ∧
    (hostDoes imageB [.regWrite 4 4 0x100]).host = .regWrite 4 4 0x100 :: [] ∧
    (∃ t, step (hostDoes imageB [.regWrite 8 4 5]) = .next t) ∧ (∀ w, HostAction.regWrite 8 4 5 ≠ .regWrite 4 4 w) ∧
    (∀ c, HostAction.regWrite 8 4 5 ≠ .regWrite 0 4 c) ∧ HostAction.regWrite 8 4 5 ≠ .reset :=
  ⟨⟨_, rfl, by decide +kernel⟩, rfl, by decide, ⟨_, rfl⟩, rfl, rfl, ⟨_, rfl⟩, fun _ h => by simp at h, fun _ h => by simp at h,
    fun h => by cases h⟩

theorem test_meets_FlagsAreNeverRead :
    (∃ t, exec (.filter (.unrecognised 5) .checked .newton) { imageB with srcH := 2 } = .next t ∧
      (statusEmpty t.status && statusKnil t.status) = true) ∧
    ∃ t, exec .filterMath { imageB with status := 0x1AB } = .next t := ⟨⟨_, rfl, by decide +kernel⟩, ⟨_, rfl⟩⟩

theorem test_meets_RegisterFrame :
    (∃ t, exec .isqrtBisect imageB = .next t) ∧ Reg.resMag ∉ writesOf .isqrtBisect ∧ imageForm imageB .isqrtBisect = none :=
  ⟨⟨_, rfl⟩, by decide, rfl⟩

/-- Two states that agree on what GRADIENT reads and differ elsewhere. -/
theorem test_meets_OutcomeDependsOnOperandsOnly :
    (∀ r ∈ readsOf (.gradient .sobel .checked),
      readReg r { atPixel imageB 3 2 with kx := readout scharrPair.kx, opN := 5 } = readReg r (atPixel imageB 3 2)) ∧
    (∃ t, exec (.gradient .sobel .checked) (atPixel imageB 3 2) = .next t ∧ statusDone t.status = true) :=
  ⟨by decide +kernel, next_of_after (p := fun t => statusDone t.status) (by decide +kernel)⟩

/-- A state that meets the invariant, with an image in memory, and has a next state. -/
theorem test_meets_EveryStepKeepsInv :
    Inv (imageB.withFetchWord 32 0x00000006) ∧ ∃ t, step (imageB.withFetchWord 32 0x00000006) = .next t := by
  refine ⟨⟨by decide +kernel, by decide +kernel, ?_, by decide +kernel, by decide +kernel, by decide +kernel, ?_, ?_⟩, ⟨_, rfl⟩⟩
  · unfold StatusLegal; decide +kernel
  · intro k hk; exact ⟨0, by interval_cases k <;> rfl⟩
  · intro k hk; exact ⟨0, by interval_cases k <;> rfl⟩

theorem test_meets_CleanRunShowsInAnyErr :
    (∃ u, stepsTo 1 (imageT.withFetchWord 32 0x00000003) u) ∧
    (∀ a ∈ (imageT.withFetchWord 32 0x00000003).host.take 1, mayClear a = false) ∧
    statusAnyErr (imageT.withFetchWord 32 0x00000003).status = false := by
  refine ⟨⟨_, _, rfl, rfl⟩, by decide +kernel, by decide +kernel⟩

end Sys2Proof.Tests
end

section
/-! Proofs about the state (spec/10_state.md): the register block, what a step can do, and the obligations on host actions. -/

namespace Sys2Proof.Machine

/-! ### The register block -/

theorem regAt_regOffset (r : Reg) : regAt (regOffset r) = some r := by
  cases r with
  | kx k => fin_cases k <;> rfl
  | ky k => fin_cases k <;> rfl
  | _ => rfl

/-- At most one offset that is a multiple of 4 belongs to a register. -/
theorem regOffset_of_regAt {off : Nat} {r : Reg} (h4 : off % 4 = 0) (h : regAt off = some r) : regOffset r = off := by
  unfold regAt at h
  split at h
  case h_22 =>
    split at h
    · cases h
      simp only [regOffset]
      omega
    · split at h
      · cases h
        simp only [regOffset]
        omega
      · cases h
  all_goals
    cases h
    simp only [regOffset]
    omega

/-- Every register lies at an aligned offset inside the 256-byte block. -/
theorem regOffset_bounds (r : Reg) : regOffset r < 256 ∧ regOffset r % 4 = 0 := by
  cases r with
  | kx k => simp only [regOffset]; omega
  | ky k => simp only [regOffset]; omega
  | _ => exact ⟨by decide, by decide⟩

theorem toNat_regOffset (r : Reg) : (BitVec.ofNat 8 (regOffset r)).toNat = regOffset r :=
  by
  simp [Nat.mod_eq_of_lt (regOffset_bounds r).1]

theorem regAt_eq_none_iff {off : Nat} (h4 : off % 4 = 0) (h : off < 256) :
    regAt off = none ↔ (0x54 ≤ off ∧ off ≤ 0x5C) ∨ 0xA8 ≤ off := by
  obtain ⟨k, rfl⟩ := Nat.dvd_of_mod_eq_zero h4
  have hk : k < 64 := by omega
  interval_cases k <;> decide

/-- The registers of Table S1 that stand alone. -/
def singleRegs : List Reg :=
  [.cmd, .status, .srcBase, .srcW, .srcH, .srcStride, .dstBase, .dstStride, .dstW, .dstH, .gxBase, .gyBase, .opX, .opY, .opGx,
    .opGy, .opN, .resGx, .resGy, .resMag, .resSqrt]

/-- The 39 registers of Table S1. -/
def allRegs : List Reg := singleRegs ++ (List.finRange 9).map Reg.kx ++ (List.finRange 9).map Reg.ky

theorem mem_allRegs (r : Reg) : r ∈ allRegs := by
  cases r <;> simp [allRegs, singleRegs]

/-- Reset leaves 0 in every register (R46). -/
theorem readReg_resetRegisters (r : Reg) (s : State) : readReg r (resetRegisters s) = 0 := by
  cases r with
  | kx k => fin_cases k <;> rfl
  | ky k => fin_cases k <;> rfl
  | _ => rfl

theorem readReg_reset (r : Reg) : readReg r State.reset = 0 := readReg_resetRegisters r State.reset

theorem setWidth_and_mask16 (w : Word) : (w.setWidth 16).setWidth 32 = w &&& 0xFFFF#32 := by
  apply BitVec.eq_of_getLsbD_eq
  intro i hi
  interval_cases i <;> simp

theorem half_and_mask16 (h : Half) : h.setWidth 32 &&& 0xFFFF#32 = h.setWidth 32 := by
  simp [← setWidth_and_mask16]

theorem byte_and_mask8 (b : Byte) : b.setWidth 32 &&& 0xFF#32 = b.setWidth 32 := by
  have := b.isLt
  apply BitVec.eq_of_toNat_eq
  simp only [BitVec.toNat_and, BitVec.toNat_setWidth, BitVec.toNat_ofNat]
  rw [Nat.and_two_pow_sub_one_eq_mod _ 8]
  omega

theorem and_fullMask (w : Word) : w &&& 0xFFFFFFFF#32 = w := BitVec.and_allOnes

/-- R24: the bits a field lacks read 0. -/
theorem readReg_and_fieldMask {r : Reg} (h : accessOf r ≠ .w1c) (s : State) : readReg r s &&& fieldMask r = readReg r s := by
  cases r with
  | status => exact absurd rfl h
  | srcW | srcH | srcStride | dstStride | dstW | dstH | opX | opY => exact half_and_mask16 _
  | resMag => exact byte_and_mask8 _
  | _ => exact and_fullMask _

/-- R24: what a register of an access kind, with its bits used, reads as after a write of `w` over `old`. -/
def writtenValue (kind : Access) (mask w old : Word) : Word :=
  match kind with
  | .rw => w &&& mask
  | .ro => old
  | .w1c => if w.getLsbD 8 then old &&& 0xFFFFFEFF#32 else old

theorem readReg_writeReg_self (r : Reg) (w : Word) (s : State) :
    readReg r (writeReg r w s) = writtenValue (accessOf r) (fieldMask r) w (readReg r s) := by
  cases r with
  | status => exact statusAfterWrite_eq w s.status
  | srcW | srcH | srcStride | dstStride | opX | opY => exact setWidth_and_mask16 w
  | cmd | srcBase | dstBase | gxBase | gyBase | opGx | opGy | opN => exact (and_fullMask w).symm
  | dstW | dstH | resGx | resGy | resMag | resSqrt | kx | ky => rfl

theorem readReg_writeReg_of_ne {q r : Reg} (h : q ≠ r) (w : Word) (s : State) : readReg q (writeReg r w s) = readReg q s := by
  cases r <;> cases q <;> simp [readReg, writeReg] at h ⊢

/-- An RO register keeps its value whatever register is written. -/
theorem readReg_writeReg_of_ro {q : Reg} (h : accessOf q = .ro) (r : Reg) (w : Word) (s : State) :
    readReg q (writeReg r w s) = readReg q s := by
  by_cases hq : q = r
  · subst hq
    rw [readReg_writeReg_self, h, writtenValue]
  · exact readReg_writeReg_of_ne hq w s

/-- The host's queue is no register. -/
theorem readReg_withHost (r : Reg) (l : List HostAction) (s : State) : readReg r { s with host := l } = readReg r s := by
  cases r <;> rfl

/-- A register write leaves memory and all that is not in the register block. -/
theorem writeReg_frame (r : Reg) (w : Word) (s : State) :
    (writeReg r w s).mem = s.mem ∧ (writeReg r w s).cfg = s.cfg ∧ (writeReg r w s).host = s.host ∧
      (writeReg r w s).hostRead = s.hostRead ∧ (writeReg r w s).freeCount = s.freeCount := by
  cases r <;> exact ⟨rfl, rfl, rfl, rfl, rfl⟩

/-! ### What a step can do -/

/-- R23: an access of four bytes at a register's offset is aligned. -/
theorem alignedWord_regOffset (r : Reg) : alignedWord (BitVec.ofNat 8 (regOffset r)) 4 = true := by
  simp only [alignedWord, toNat_regOffset, (regOffset_bounds r).2, decide_true, Bool.and_self]

theorem alignedWord_iff {off : BitVec 8} {size : Nat} : alignedWord off size = true ↔ size = 4 ∧ off.toNat % 4 = 0 := by
  simp [alignedWord]

/-- An offset with a register is that register's. -/
theorem off_eq_of_regAt {off : BitVec 8} {r : Reg} (h4 : off.toNat % 4 = 0) (h : regAt off.toNat = some r) :
    off = BitVec.ofNat 8 (regOffset r) := by
  rw [regOffset_of_regAt h4 h, BitVec.ofNat_toNat, BitVec.setWidth_eq]

theorem hostAct_regRead (r : Reg) (s : State) :
    hostAct exec (.regRead (BitVec.ofNat 8 (regOffset r)) 4) s = .next { s with hostRead := some (readReg r s) } := by
  simp only [hostAct, alignedWord_regOffset, if_true, toNat_regOffset, regAt_regOffset]

/-- R24: an offset that is not listed reads 0 and ignores a write. -/
theorem hostAct_unlisted {off : BitVec 8} (h4 : off.toNat % 4 = 0) (h : regAt off.toNat = none) (s : State) :
    hostAct exec (.regRead off 4) s = .next { s with hostRead := some 0 } ∧
      ∀ w, hostAct exec (.regWrite off 4 w) s = .next s := by
  simp [hostAct, alignedWord, h4, h]

/-- R23: an access that is not an aligned 32-bit one is refused. -/
theorem hostAct_refused {off : BitVec 8} {size : Nat} (h : alignedWord off size = false) (s : State) :
    hostAct exec (.regRead off size) s = .refused .registerAccessNotAlignedWord ∧
      ∀ w, hostAct exec (.regWrite off size w) s = .refused .registerAccessNotAlignedWord := by
  simp [hostAct, h]

/-- R48: the host reads and writes a byte that exists. -/
theorem hostAct_mem_valid {s : State} {a : Nat} (h : memValid s.cfg a = true) :
    hostAct exec (.memRead a) s = .next { s with hostRead := some ((s.mem.read a).setWidth 32) } ∧
      ∀ v, hostAct exec (.memWrite a v) s = .next { s with mem := s.mem.write a v } := by
  simp [hostAct, h]

/-- A byte that does not exist stops the host by name (log 16). -/
theorem hostAct_mem_absent {s : State} {a : Nat} (h : memValid s.cfg a = false) :
    hostAct exec (.memRead a) s = .fault .hostByteAbsent ∧ ∀ v, hostAct exec (.memWrite a v) s = .fault .hostByteAbsent := by
  simp [hostAct, h]

/-- R25: a write to CMD of a word that encodes a command runs it. -/
theorem hostAct_cmd_ok {c : Word} {i : Instr} (h : decode c = .ok i) (s : State) :
    hostAct exec (.regWrite 0 4 c) s = exec i { s with cmd := c } := by
  change executeWord exec c s = _
  simp only [executeWord, h]
  rfl

/-- R211: a write to CMD of an illegal word stores it and ends with ErrIllegal. -/
theorem hostAct_cmd_error {c : Word} {r : Reject} (h : decode c = .error r) (s : State) :
    hostAct exec (.regWrite 0 4 c) s = .next { s with cmd := c, status := failWord 1 s.status } := by
  change executeWord exec c s = _
  simp only [executeWord, h, raiseError_plain_eq]
  rfl

/-- What a host action that has a next state does to the state it is performed on: one constructor a way. -/
inductive Performs (s : State) : HostAction → State → Prop where
  | command {c : Word} {i : Instr} {t : State} (hd : decode c = .ok i) (he : exec i { s with cmd := c } = .next t) :
      Performs s (.regWrite 0 4 c) t
  | illegal {c : Word} {r : Reject} (hd : decode c = .error r) :
      Performs s (.regWrite 0 4 c) { s with cmd := c, status := failWord 1 s.status }
  | register {r : Reg} (w : Word) (hr : r ≠ .cmd) : Performs s (.regWrite (BitVec.ofNat 8 (regOffset r)) 4 w) (writeReg r w s)
  | unlistedWrite {off : BitVec 8} (w : Word) (hn : regAt off.toNat = none) : Performs s (.regWrite off 4 w) s
  | regRead (r : Reg) : Performs s (.regRead (BitVec.ofNat 8 (regOffset r)) 4) { s with hostRead := some (readReg r s) }
  | unlistedRead {off : BitVec 8} (hn : regAt off.toNat = none) : Performs s (.regRead off 4) { s with hostRead := some 0 }
  | memWrite {a : Nat} (v : Byte) (ha : memValid s.cfg a = true) : Performs s (.memWrite a v) { s with mem := s.mem.write a v }
  | memRead {a : Nat} (ha : memValid s.cfg a = true) :
      Performs s (.memRead a) { s with hostRead := some ((s.mem.read a).setWidth 32) }
  | reset : Performs s .reset (resetRegisters s)

theorem performs_of_hostAct {a : HostAction} {s t : State} (h : hostAct exec a s = .next t) : Performs s a t := by
  cases a with
  | regWrite off size w =>
    cases ha : alignedWord off size with
    | false => rw [(hostAct_refused ha s).2] at h; cases h
    | true =>
      obtain ⟨rfl, h4⟩ := alignedWord_iff.mp ha
      cases hr : regAt off.toNat with
      | none => rw [(hostAct_unlisted h4 hr s).2] at h; cases h; exact .unlistedWrite w hr
      | some r =>
        obtain rfl := off_eq_of_regAt h4 hr
        by_cases hc : r = .cmd
        · subst hc
          cases hd : decode w with
          | ok i => exact .command hd ((hostAct_cmd_ok hd s).symm.trans h)
          | error e => cases (hostAct_cmd_error hd s).symm.trans h; exact .illegal hd
        · rw [hostAct_regWrite hc] at h; cases h; exact .register w hc
  | regRead off size =>
    cases ha : alignedWord off size with
    | false => rw [(hostAct_refused ha s).1] at h; cases h
    | true =>
      obtain ⟨rfl, h4⟩ := alignedWord_iff.mp ha
      cases hr : regAt off.toNat with
      | none => rw [(hostAct_unlisted h4 hr s).1] at h; cases h; exact .unlistedRead hr
      | some r =>
        obtain rfl := off_eq_of_regAt h4 hr
        rw [hostAct_regRead] at h; cases h; exact .regRead _
  | memWrite a v =>
    cases ha : memValid s.cfg a with
    | false => rw [(hostAct_mem_absent ha).2] at h; cases h
    | true => rw [(hostAct_mem_valid ha).2] at h; cases h; exact .memWrite v ha
  | memRead a =>
    cases ha : memValid s.cfg a with
    | false => rw [(hostAct_mem_absent ha).1] at h; cases h
    | true => rw [(hostAct_mem_valid ha).1] at h; cases h; exact .memRead ha
  | reset => cases h; exact .reset

/-- Everything a step can do: idle, or perform the host's next action on the state without it. -/
theorem step_next_cases {s t : State} (h : step s = .next t) :
    (s.host = [] ∧ t = s) ∨ ∃ a rest, s.host = a :: rest ∧ Performs { s with host := rest } a t := by
  cases hs : s.host with
  | nil =>
    simp only [step, runHost, hs] at h
    cases h
    exact .inl ⟨rfl, rfl⟩
  | cons a rest => exact .inr ⟨a, rest, rfl, performs_of_hostAct ((step_cons hs).symm.trans h)⟩

/-- With an action queued, a step performs it. -/
theorem performs_of_step {s t : State} {a : HostAction} {rest : List HostAction} (hs : s.host = a :: rest)
    (h : step s = .next t) : Performs { s with host := rest } a t :=
  performs_of_hostAct ((step_cons hs).symm.trans h)

end Sys2Proof.Machine
end

section
/-! What a command does to each part of the state (spec/10_state.md R26, R33, R45, R48; Table E3), said once for all ten. -/

namespace Sys2Proof.Machine

/-! ### The result registers -/

/-- The bounds of the result registers (R38, R40) and the readout registers (R41): a part of `Inv`. -/
def ResultsBounded (s : State) : Prop :=
  s.resGx.toNat ≤ 293760 ∧ s.resGy.toNat ≤ 293760 ∧ s.resSqrt.toNat ≤ 65535 ∧ (∀ k < 9, IsWeight (tapAt s.kx k)) ∧
    ∀ k < 9, IsWeight (tapAt s.ky k)

theorem tapAt_readout (t : Taps (BitVec 8)) (k : Nat) : tapAt (readout t) k = (tapAt t k).signExtend 32 := by
  unfold tapAt
  split <;> rfl

theorem isWeight_readout (t : Taps (BitVec 8)) (k : Nat) : IsWeight (tapAt (readout t) k) := ⟨_, tapAt_readout t k⟩

theorem zeroTaps_eq_readout : zeroTaps = readout nilPair.kx := by decide

/-- R38: a gradient component fits its bound as a register value. -/
theorem toNat_gradient_le {g : Nat} (h : g ≤ 293760) : (BitVec.ofNat 32 g).toNat ≤ 293760 := by
  rw [BitVec.toNat_ofNat]
  omega

/-- R40: the floor root of a 32-bit word fits 16 bits. -/
theorem toNat_sqrt_le (w : Word) : (BitVec.ofNat 32 (Nat.sqrt w.toNat)).toNat ≤ 65535 := by
  have h : Nat.sqrt w.toNat < 65536 := Nat.sqrt_lt.mpr w.isLt
  rw [BitVec.toNat_ofNat]
  omega

/-! ### Commands that produce no image -/

/-- A command that produces no image changes result registers and STATUS only, and keeps the bounds. -/
theorem exec_plain_update {s t : State} {i : Instr} (hf : imageForm s i = none) (h : exec i s = .next t) :
    (∃ gx gy mag root kx ky w, t = { s with
      resGx := gx, resGy := gy, resMag := mag, resSqrt := root, kx := kx, ky := ky, status := w }) ∧
    (ResultsBounded s → ResultsBounded t) := by
  cases i <;> simp only [imageForm, reduceCtorEq] at hf
  case gradient v c =>
    rcases exec_gradient s v c with ⟨-, h'⟩ | ⟨-, -, -, h'⟩ | ⟨-, -, -, h'⟩ | ⟨-, -, -, h'⟩ | ⟨-, -, -, h'⟩ <;>
      rw [h'] at h <;> cases h
    case inr.inr.inr.inr =>
      refine ⟨⟨_, _, _, _, _, _, _, rfl⟩, fun ⟨_, _, hb⟩ => ⟨?_, ?_, hb⟩⟩
      · exact toNat_gradient_le (gradX_le _ _ _ _)
      · exact toNat_gradient_le (gradY_le _ _ _ _)
    all_goals exact ⟨⟨_, _, _, _, _, _, _, rfl⟩, id⟩
  case isqrtNewton =>
    cases h
    refine ⟨⟨_, _, _, _, _, _, _, rfl⟩, fun ⟨hx, hy, _, hk⟩ => ⟨hx, hy, ?_, hk⟩⟩
    rw [complete_resSqrt, newtonRoot_eq_sqrt s.opN.isLt]
    exact toNat_sqrt_le _
  case isqrtBisect =>
    cases h
    refine ⟨⟨_, _, _, _, _, _, _, rfl⟩, fun ⟨hx, hy, _, hk⟩ => ⟨hx, hy, ?_, hk⟩⟩
    rw [complete_resSqrt, bisectRoot_eq_sqrt]
    exact toNat_sqrt_le _
  case klookup v =>
    cases h
    exact ⟨⟨_, _, _, _, _, _, _, rfl⟩,
      fun ⟨hx, hy, hr, _⟩ => ⟨hx, hy, hr, fun k _ => isWeight_readout _ k, fun k _ => isWeight_readout _ k⟩⟩
  all_goals
    cases h
    exact ⟨⟨_, _, _, _, _, _, _, rfl⟩, id⟩

theorem exec_plain_mem {s t : State} {i : Instr} (hf : imageForm s i = none) (h : exec i s = .next t) : t.mem = s.mem := by
  obtain ⟨⟨_, _, _, _, _, _, _, rfl⟩, -⟩ := exec_plain_update hf h
  rfl

/-! ### Every command -/

/-- No command changes CMD, the configuration or the host's queue. -/
theorem exec_frame {s t : State} {i : Instr} (h : exec i s = .next t) : t.cmd = s.cmd ∧ t.cfg = s.cfg ∧ t.host = s.host := by
  cases hf : imageForm s i with
  | none =>
    obtain ⟨⟨_, _, _, _, _, _, _, rfl⟩, -⟩ := exec_plain_update hf h
    exact ⟨rfl, rfl, rfl⟩
  | some f =>
    rcases exec_image_cases hf h with ⟨-, rfl⟩ | ⟨-, e, -, -, -, -, rfl⟩ | ⟨-, -, rfl⟩ | ⟨-, -, m, rfl, -⟩ <;>
      exact ⟨rfl, rfl, rfl⟩

theorem exec_keeps_resultsBounded {s t : State} {i : Instr} (h : exec i s = .next t) (hb : ResultsBounded s) :
    ResultsBounded t := by
  cases hf : imageForm s i with
  | none => exact (exec_plain_update hf h).2 hb
  | some f =>
    rcases exec_image_cases hf h with ⟨-, rfl⟩ | ⟨-, e, -, -, -, -, rfl⟩ | ⟨-, -, rfl⟩ | ⟨-, -, m, rfl, -⟩ <;> exact hb

/-- The STATUS word a command leaves (R26): that of `Done`, EMPTY telling an image-producing command with an undersized source,
or that of `Fail`. -/
theorem exec_status {s t : State} {i : Instr} (h : exec i s = .next t) :
    (∃ empty, t.status = doneWord empty (nilForm i) s.status ∧
      (empty = true ↔ imageForm s i ≠ none ∧ ((sourceOf s).w < 3 ∨ (sourceOf s).h < 3))) ∨
    ∃ e : CmdError, t.status = failWord (errorCode e).toNat s.status := by
  cases hf : imageForm s i with
  | none =>
    rcases exec_plain_cases hf h with ⟨u, rfl, -⟩ | ⟨v, k, e, -, -, -, -, -, rfl⟩
    · exact .inl ⟨false, rfl, by simp⟩
    · exact .inr ⟨e, rfl⟩
  | some f =>
    rcases exec_image_cases hf h with ⟨hu, rfl⟩ | ⟨-, e, -, -, -, -, rfl⟩ | ⟨-, -, rfl⟩ | ⟨hu, -, m, rfl, -⟩
    · exact .inl ⟨true, rfl, by simp [undersized_iff.mp hu]⟩
    · exact .inr ⟨e, rfl⟩
    · exact .inr ⟨.bus, rfl⟩
    · refine .inl ⟨false, rfl, ?_⟩
      have := undersized_eq_false.mp hu
      simp only [Bool.false_eq_true, false_iff, not_and]
      omega

/-! ### Memory -/

/-- The part of `Inv` about image memory: canonical form (log 7), and only bytes that exist. -/
def MemOk (cfg : Cfg) (m : Memory) : Prop := m.wf ∧ m.inSpace cfg

theorem MemOk.write {cfg : Cfg} {m : Memory} (h : MemOk cfg m) {a : Nat} (ha : memValid cfg a = true) (v : Byte) :
    MemOk cfg (m.write a v) :=
  ⟨Memory.wf_write h.1 a v, Memory.inSpace_write h.2 ha v⟩

/-- R64: an engine write keeps memory in order. -/
theorem MemOk.memWrite {cfg : Cfg} {m m' : Memory} {a v : Nat} {n : AccessSize} (h : MemOk cfg m)
    (hw : Machine.memWrite cfg m a n v = .ok m') : MemOk cfg m' := by
  obtain ⟨-, -, -, hwf, hsp, -⟩ := memWrite_spec hw
  exact ⟨hwf h.1, hsp h.2⟩

theorem MemOk.imageError {s : State} (h : MemOk s.cfg s.mem) (e : CmdError) (foot : List Rect) :
    MemOk s.cfg (imageError e foot s).mem := by
  rw [Machine.imageError, raiseError_mem]
  split
  · exact ⟨leaveResidue_wf h.1, leaveResidue_inSpace h.2⟩
  · exact h

theorem exec_keeps_memOk {s t : State} {i : Instr} (h : exec i s = .next t) (hm : MemOk s.cfg s.mem) : MemOk s.cfg t.mem := by
  cases hf : imageForm s i with
  | none => rwa [exec_plain_mem hf h]
  | some f =>
    obtain ⟨d, p, ow, oh⟩ := f
    obtain ⟨body, he, -, hk, -⟩ := exec_image hf
    cases he.symm.trans h
    rcases imageCommand_cases d p ow oh (nilForm i) body s with ⟨-, h'⟩ | ⟨-, e, -, h'⟩ | ⟨-, e, -, -, h'⟩ | ⟨-, m, -, hb, h'⟩ <;>
      rw [h']
    · exact hm
    · exact hm.imageError e _
    · exact hm.imageError e _
    · exact hk (MemOk s.cfg) (fun _ _ _ _ _ ht hw => ht.memWrite hw) _ _ hm hb

/-- R48, R220: a command changes bytes of its write footprints only. -/
theorem exec_image_read {s t : State} {i : Instr} {d p : Bool} {ow oh : Nat} (hf : imageForm s i = some (d, p, ow, oh))
    (h : exec i s = .next t) {a : Nat} (ha : ∀ r ∈ writeFoot s d p ow oh, ¬ InRect r a) : t.mem.read a = s.mem.read a := by
  rcases exec_image_cases hf h with ⟨-, rfl⟩ | ⟨-, e, -, -, -, -, rfl⟩ | ⟨-, -, rfl⟩ | ⟨-, -, m, rfl, hm⟩
  · rfl
  · rfl
  · exact leaveResidue_read fun r hr hin => absurd hin (ha r hr)
  · exact hm a ha

/-- R214: when the overlap check passes, no byte of the source image lies in a write footprint. -/
theorem source_apart {s : State} {d p : Bool} {ow oh : Nat} (ho : ¬ OverlapBad s d p ow oh) {a : Nat}
    (ha : InRect (srcRect (sourceOf s)) a) : ∀ r ∈ writeFoot s d p ow oh, ¬ InRect r a := by
  intro r hr hin
  have hdis := (List.pairwise_cons.mp (not_not.mp ho)).1 r hr
  exact hdis.not_both ha hin

/-- An ErrBus of the checks comes after the overlap check (R139, R219). -/
theorem not_overlapBad_of_bus {s : State} {d p : Bool} {ow oh : Nat} (h : imageChecks s d p ow oh = .error .bus) :
    ¬ OverlapBad s d p ow oh := by
  rcases imageChecks_cases s d p ow oh with ⟨-, h'⟩ | ⟨-, -, h'⟩ | ⟨-, -, -, h'⟩ | ⟨-, -, ho, -, -⟩ | ⟨-, h'⟩
  case inr.inr.inr.inl => exact ho
  all_goals cases h'.symm.trans h

/-- R48: no command changes a byte of its source image. -/
theorem exec_keeps_source {s t : State} {i : Instr} (h : exec i s = .next t) {a : Nat}
    (ha : InRect (srcRect (sourceOf s)) a) : t.mem.read a = s.mem.read a := by
  cases hf : imageForm s i with
  | none => rw [exec_plain_mem hf h]
  | some f =>
    rcases exec_image_cases hf h with ⟨-, rfl⟩ | ⟨-, e, -, -, -, -, rfl⟩ | ⟨-, hc, -⟩ | ⟨-, ⟨-, -, ho, -⟩, -⟩
    · rfl
    · rfl
    · exact exec_image_read hf h (source_apart (not_overlapBad_of_bus hc) ha)
    · exact exec_image_read hf h (source_apart ho ha)

/-! ### STATUS as an operand: there is none (R45) -/

/-- The outcomes are the same but for STATUS[31:8]. -/
def AgreeButStatus : Host.Outcome State Fault Refusal → Host.Outcome State Fault Refusal → Prop
  | .next t, .next u => { u with status := 0 } = { t with status := 0 } ∧ u.status.extractLsb' 0 8 = t.status.extractLsb' 0 8
  | .fault f, .fault g => g = f
  | .refused r, .refused q => q = r
  | _, _ => False

/-- R26: bits [7:0] of STATUS are its fields DONE, ERR, EMPTY, KNIL, ERRCODE. -/
theorem packStatus_low (rsv : BitVec 23) (any : Bool) (code : BitVec 4) (knil empty err done : Bool) :
    (packStatus rsv any code knil empty err done).extractLsb' 0 8 =
      (packStatus 0 false code knil empty err done).extractLsb' 0 8 := by
  apply BitVec.eq_of_getLsbD_eq
  intro i hi
  interval_cases i <;> simp [packStatus]

/-- The state with another word in STATUS. -/
def setStatus (w : Word) (s : State) : State := { s with status := w }

@[simp] theorem setStatus_mem (w : Word) (s : State) : (setStatus w s).mem = s.mem := rfl
@[simp] theorem setStatus_cfg (w : Word) (s : State) : (setStatus w s).cfg = s.cfg := rfl
@[simp] theorem setStatus_opX (w : Word) (s : State) : (setStatus w s).opX = s.opX := rfl
@[simp] theorem setStatus_opY (w : Word) (s : State) : (setStatus w s).opY = s.opY := rfl
@[simp] theorem sourceOf_setStatus (w : Word) (s : State) : sourceOf (setStatus w s) = sourceOf s := rfl
@[simp] theorem writeFoot_setStatus (w : Word) (s : State) : writeFoot (setStatus w s) = writeFoot s := rfl
@[simp] theorem imageChecks_setStatus (w : Word) (s : State) : imageChecks (setStatus w s) = imageChecks s := rfl

theorem complete_blind (e k : Bool) (s : State) (w : Word) :
    AgreeButStatus (.next (complete e k s)) (.next (complete e k (setStatus w s))) :=
  ⟨rfl, (packStatus_low ..).trans (packStatus_low ..).symm⟩

theorem raiseError_blind (e : CmdError) (p : Bool) (s : State) (w : Word) :
    AgreeButStatus (.next (raiseError e p s)) (.next (raiseError e p (setStatus w s))) :=
  ⟨rfl, (packStatus_low ..).trans (packStatus_low ..).symm⟩

theorem imageError_blind (e : CmdError) (foot : List Rect) (s : State) (w : Word) :
    AgreeButStatus (.next (imageError e foot s)) (.next (imageError e foot (setStatus w s))) := by
  unfold imageError
  split
  · exact raiseError_blind e true (leaveResidue foot s) w
  · exact raiseError_blind e true s w

theorem imageCommand_blind (d p : Bool) (ow oh : Nat) (k : Bool) (body : Memory → Except CmdError Memory) (s : State) (w : Word) :
    AgreeButStatus (.next (imageCommand d p ow oh k body s)) (.next (imageCommand d p ow oh k body (setStatus w s))) := by
  unfold imageCommand
  rw [sourceOf_setStatus, imageChecks_setStatus, writeFoot_setStatus, setStatus_mem]
  split
  · exact complete_blind true k (publish 0 0 s) w
  · split
    · exact imageError_blind _ _ s w
    · split
      · exact imageError_blind _ _ s w
      · exact complete_blind false k (publish ow oh { s with mem := _ }) w

theorem execGradient_blind (v : Variant) (c : Conv) (s : State) (w : Word) :
    AgreeButStatus (execGradient v c s) (execGradient v c (setStatus w s)) := by
  unfold execGradient
  dsimp only
  rw [sourceOf_setStatus, setStatus_opX, setStatus_opY, setStatus_cfg, setStatus_mem]
  split
  · exact raiseError_blind .config false s w
  · split
    · exact raiseError_blind .config false s w
    · split
      · split
        · exact raiseError_blind _ false s w
        · exact complete_blind false _ { s with resGx := _, resGy := _ } w
      · split
        · exact rfl
        · exact raiseError_blind .range false s w

/-- R45: a command's outcome does not depend on what STATUS held. -/
theorem exec_blind (i : Instr) (s : State) (w : Word) : AgreeButStatus (exec i s) (exec i (setStatus w s)) := by
  cases i with
  | gradient v c => exact execGradient_blind v c s w
  | filter | filterMath | gradPlanes | filterSimd => exact imageCommand_blind _ _ _ _ _ _ s w
  | nop => exact complete_blind false false s w
  | magnitude m => exact complete_blind false false { s with resMag := _ } w
  | isqrtNewton | isqrtBisect => exact complete_blind false false { s with resSqrt := _ } w
  | klookup v => exact complete_blind false _ { s with kx := _, ky := _ } w

end Sys2Proof.Machine
end

section
/-! The invariant, the host's register accesses, and the obligations on the state. -/

namespace Sys2Proof.Machine

/-! ### The invariant -/

theorem inv_iff {s : State} : Inv s ↔ MemOk s.cfg s.mem ∧ StatusLegal s.status ∧ ResultsBounded s := and_assoc.symm

theorem statusLegal_zero : StatusLegal 0 := by unfold StatusLegal; decide

/-- R120: `Done` leaves a legal STATUS when the reserved bits were 0. -/
theorem statusLegal_doneWord {o : Word} (h : statusReserved o = 0) (e k : Bool) : StatusLegal (doneWord e k o) := by
  obtain ⟨hdone, herr, -, -, hcode, -, hres⟩ := doneWord_fields e k o
  simp [StatusLegal, hdone, herr, hcode, hres, h]

theorem errorCode_bounds (e : CmdError) : 1 ≤ (errorCode e).toNat ∧ (errorCode e).toNat ≤ 6 := by
  cases e <;> decide

/-- R220: so does `Fail`, with every error. -/
theorem statusLegal_failWord {o : Word} (h : statusReserved o = 0) (e : CmdError) :
    StatusLegal (failWord (errorCode e).toNat o) := by
  obtain ⟨hdone, herr, hempty, hknil, hcode, -, hres⟩ := failWord_fields e o
  simp [StatusLegal, hdone, herr, hempty, hknil, hcode, hres, h, errorCode_bounds e]

/-- R24: a host write touches ANYERR only, of which legality does not speak. -/
theorem statusLegal_afterWrite {o : Word} (h : StatusLegal o) (w : Word) : StatusLegal (statusAfterWrite w o) := by
  simpa [StatusLegal] using h

theorem exec_keeps_statusLegal {s t : State} {i : Instr} (h : exec i s = .next t) (hl : StatusLegal s.status) :
    StatusLegal t.status := by
  rcases exec_status h with ⟨e, ht, -⟩ | ⟨e, ht⟩ <;> rw [ht]
  · exact statusLegal_doneWord hl.1 e _
  · exact statusLegal_failWord hl.1 e

theorem exec_keeps_inv {s t : State} {i : Instr} (h : exec i s = .next t) (hi : Inv s) : Inv t := by
  obtain ⟨hm, hl, hb⟩ := inv_iff.mp hi
  refine inv_iff.mpr ⟨?_, exec_keeps_statusLegal h hl, exec_keeps_resultsBounded h hb⟩
  rw [(exec_frame h).2.1]
  exact exec_keeps_memOk h hm

theorem writeReg_keeps_inv {s : State} (r : Reg) (w : Word) (hi : Inv s) : Inv (writeReg r w s) := by
  cases r with
  | status =>
    obtain ⟨hm, hl, hb⟩ := inv_iff.mp hi
    exact inv_iff.mpr ⟨hm, statusLegal_afterWrite hl w, hb⟩
  | _ => exact hi

theorem resultsBounded_of_zero {s : State} (hx : s.resGx = 0) (hy : s.resGy = 0) (hr : s.resSqrt = 0) (hkx : s.kx = zeroTaps)
    (hky : s.ky = zeroTaps) : ResultsBounded s := by
  unfold ResultsBounded
  rw [hx, hy, hr, hkx, hky, zeroTaps_eq_readout]
  exact ⟨by decide, by decide, by decide, fun k _ => isWeight_readout _ k, fun k _ => isWeight_readout _ k⟩

theorem resetRegisters_inv {s : State} (h : MemOk s.cfg s.mem) : Inv (resetRegisters s) :=
  inv_iff.mpr ⟨h, statusLegal_zero, resultsBounded_of_zero rfl rfl rfl rfl rfl⟩

theorem performs_keeps_inv {s t : State} {a : HostAction} (h : Performs s a t) (hi : Inv s) : Inv t := by
  obtain ⟨hm, hl, hb⟩ := inv_iff.mp hi
  cases h with
  | command hd he => exact exec_keeps_inv he hi
  | illegal hd => exact inv_iff.mpr ⟨hm, statusLegal_failWord hl.1 .illegal, hb⟩
  | register w hr => exact writeReg_keeps_inv _ w hi
  | memWrite v ha => exact inv_iff.mpr ⟨hm.write ha v, hl, hb⟩
  | reset => exact resetRegisters_inv hm
  | unlistedWrite | regRead | unlistedRead | memRead => exact hi

/-- Settles O53: each host action keeps the invariant, a CMD write because its command does. -/
theorem everyStepKeepsInv : Obligations.EveryStepKeepsInv := by
  intro s t hi h
  rcases step_next_cases h with ⟨-, rfl⟩ | ⟨a, rest, -, hp⟩
  · exact hi
  · exact performs_keeps_inv hp hi

/-- Settles O54: nothing is listed in memory and every register is 0. -/
theorem invAtReset : Obligations.InvAtReset := by
  have hm : MemOk State.reset.cfg State.reset.mem := ⟨⟨List.Pairwise.nil, fun _ => nofun⟩, fun _ => nofun⟩
  exact resetRegisters_inv hm

/-! ### Runs -/

/-- A performed action leaves the rest of the host's queue and the configuration. -/
theorem performs_frame {s t : State} {a : HostAction} (h : Performs s a t) : t.host = s.host ∧ t.cfg = s.cfg := by
  cases h with
  | command hd he =>
    obtain ⟨-, hcfg, hhost⟩ := exec_frame he
    exact ⟨hhost, hcfg⟩
  | register w hr =>
    obtain ⟨-, hcfg, hhost, -⟩ := writeReg_frame _ w s
    exact ⟨hhost, hcfg⟩
  | illegal | unlistedWrite | regRead | unlistedRead | memWrite | memRead | reset => exact ⟨rfl, rfl⟩

/-- R21: a step takes one action off the queue. -/
theorem step_frame {s t : State} (h : step s = .next t) : t.host = s.host.tail ∧ t.cfg = s.cfg := by
  rcases step_next_cases h with ⟨hs, rfl⟩ | ⟨a, rest, hs, hp⟩
  · exact ⟨by rw [hs]; rfl, rfl⟩
  · obtain ⟨hhost, hcfg⟩ := performs_frame hp
    exact ⟨by rw [hhost, hs]; rfl, hcfg⟩

/-- Settles O10, by induction on the number of steps. -/
theorem runTakesOneLinePerStep : Obligations.RunTakesOneLinePerStep := by
  intro n
  induction n with
  | zero => rintro s u rfl -; exact ⟨rfl, rfl⟩
  | succ n ih =>
    rintro s u ⟨t, hst, htu⟩ hn
    obtain ⟨hhost, hcfg⟩ := step_frame hst
    obtain ⟨hu, hucfg⟩ := ih t u htu (by rw [hhost, List.length_tail]; omega)
    exact ⟨by rw [hu, hhost, List.drop_tail], hucfg.trans hcfg⟩

/-! ### Register accesses -/

/-- R25: after a CMD write with a next state CMD holds the word. -/
theorem cmd_of_cmdWrite {s t : State} {c : Word} {rest : List HostAction} (hs : s.host = .regWrite 0 4 c :: rest)
    (h : step s = .next t) : t.cmd = c := by
  rw [step_cons hs] at h
  cases hd : decode c with
  | ok i =>
    rw [hostAct_cmd_ok hd] at h
    exact (exec_frame h).1
  | error r =>
    rw [hostAct_cmd_error hd] at h
    cases h
    rfl

/-- Settles O7: a CMD write decodes its word, and no command changes CMD. -/
theorem cmdWriteRunsTheDecodedCommand : Obligations.CmdWriteRunsTheDecodedCommand := by
  refine ⟨fun s c rest hs => ⟨fun i hd => ?_, fun t h => cmd_of_cmdWrite hs h⟩, fun s rest hs => ?_, rfl⟩
  · rw [step_cons hs, hostAct_cmd_ok hd]
  · exact (step_cons hs).trans (hostAct_regRead .cmd _)

/-- Settles O8: the word is delivered as a CMD write at the head of the queue. -/
theorem tableWordRunsNext : Obligations.TableWordRunsNext := by
  intro s nbits w i h
  have hd : decode (BitVec.ofNat 32 (w % 2 ^ nbits)) = .ok i := by
    unfold decodeTableWord at h
    split at h
    · rename_i hd; cases h; exact hd
    · cases h
  exact (step_cons (pushCommand_host _ s)).trans (hostAct_cmd_ok hd _)

/-- Settles O12: each register has its own aligned offset, and the rows of the table are closed facts. -/
theorem registerMapIsTableS1 : Obligations.RegisterMapIsTableS1 := by
  refine ⟨regAt_regOffset, fun off r h4 h => regOffset_of_regAt h4 h, ⟨allRegs, by decide, by decide, mem_allRegs⟩,
    by decide, fun k => ⟨rfl, rfl, rfl, rfl, rfl, rfl⟩, fun off h4 h => regAt_eq_none_iff h4 h, readReg_reset, fun s => ?_⟩
  exact ⟨rfl, rfl, rfl, rfl, rfl, rfl, rfl, rfl, rfl, rfl, rfl, rfl, rfl, rfl, rfl, rfl, rfl, rfl, rfl, rfl, rfl,
    fun k => ⟨rfl, rfl⟩⟩

/-- An action that is neither reset nor a CMD write changes no RO register. -/
theorem performs_keeps_ro {s t : State} {a : HostAction} (h : Performs s a t) (hreset : a ≠ .reset)
    (hcmd : ∀ c, a ≠ .regWrite 0 4 c) {r : Reg} (hr : accessOf r = .ro) : readReg r t = readReg r s := by
  cases h with
  | command | illegal => exact absurd rfl (hcmd _)
  | register w _ => exact readReg_writeReg_of_ro hr _ w s
  | reset => exact absurd rfl hreset
  | unlistedWrite | regRead | unlistedRead | memWrite | memRead => cases r <;> rfl

/-- Settles O13: the register rules give each clause; that RO registers stay goes by the ways an action is performed. -/
theorem registerAccessKinds : Obligations.RegisterAccessKinds := by
  refine ⟨fun s r rest hs => ?_, fun s off rest h4 hoff => ?_, fun s r w rest hr hs => ?_,
    fun s w rest u hs h => cmd_of_cmdWrite hs h, fun s r hr => readReg_and_fieldMask hr s, fun s a rest u r hs hreset hcmd h hr => ?_⟩
  · exact (step_cons hs).trans (hostAct_regRead r _)
  · have hnone : regAt off.toNat = none :=
      Option.eq_none_iff_forall_ne_some.mpr fun r hr => hoff r (regOffset_of_regAt h4 hr)
    obtain ⟨hread, hwrite⟩ := hostAct_unlisted h4 hnone { s with host := rest }
    exact ⟨fun hs => (step_cons hs).trans hread, fun w hs => (step_cons hs).trans (hwrite w)⟩
  · refine ⟨_, (step_cons hs).trans (hostAct_regWrite hr), ?_, fun q hq => ?_, writeReg_frame r w _⟩
    · rw [readReg_writeReg_self, readReg_withHost]
      cases accessOf r <;> rfl
    · rw [readReg_writeReg_of_ne hq, readReg_withHost]
  · rw [performs_keeps_ro (performs_of_step hs h) hreset hcmd hr, readReg_withHost]

/-- Settles O14: the block is 256 bytes long, and an access that is not an aligned word is refused before any register is
looked up. -/
theorem otherRegisterAccessIsRefused : Obligations.OtherRegisterAccessIsRefused := by
  refine ⟨fun cfg => ⟨Nat.mul_mod_right 256 cfg.regPage, fun off => ?_, fun a ha => ?_⟩, fun s off size w rest h => ?_⟩
  · have := off.isLt
    rw [regOffsetOf, if_pos (by omega), Nat.add_sub_cancel_left, BitVec.ofNat_toNat, BitVec.setWidth_eq]
  · rw [regOffsetOf, if_neg (by omega)]
  · have ha : alignedWord off size = false := by
      rw [Bool.eq_false_iff, ne_eq, alignedWord_iff]
      omega
    obtain ⟨hread, hwrite⟩ := hostAct_refused ha { s with host := rest }
    exact ⟨fun hs => (step_cons hs).trans (hwrite w), fun hs => (step_cons hs).trans hread⟩

/-- Settles O15: a reset step is `resetRegisters`, which every register reads as 0. -/
theorem resetClearsEveryRegister : Obligations.ResetClearsEveryRegister :=
  ⟨readReg_reset, fun _ _ hs => ⟨_, step_cons hs, fun r => readReg_resetRegisters r _, rfl, rfl, rfl⟩⟩

/-! ### Memory -/

/-- Settles O18: the byte is looked up in MEM_VALID first. -/
theorem absentByteStopsTheHost : Obligations.AbsentByteStopsTheHost := by
  intro s a v rest ha
  obtain ⟨hread, hwrite⟩ := hostAct_mem_absent (s := { s with host := rest }) ha
  exact ⟨fun hs => (step_cons hs).trans (hwrite v), fun hs => (step_cons hs).trans hread⟩

/-- Settles O17: the write footprints bound what a command changes, and the overlap check keeps them off the source. -/
theorem memoryAsState : Obligations.MemoryAsState := by
  refine ⟨fun s a v rest ha hs => ⟨s.mem.write a v, ?_, Memory.read_write_self _ a v, fun b hb => ?_⟩,
    fun s a rest ha hs => ?_, fun s i t h => ⟨fun a ha => ?_, fun a ha => exec_keeps_source h ha⟩⟩
  · exact (step_cons hs).trans ((hostAct_mem_valid (s := { s with host := rest }) ha).2 v)
  · exact Memory.read_write_of_ne hb.symm
  · exact (step_cons hs).trans (hostAct_mem_valid (s := { s with host := rest }) ha).1
  · cases hf : imageForm s i with
    | none => rw [exec_plain_mem hf h]
    | some f =>
      obtain ⟨d, p, ow, oh⟩ := f
      exact exec_image_read hf h fun r hr => ha d p ow oh r hf hr

/-! ### Published dimensions -/

theorem exec_plain_dims {s t : State} {i : Instr} (hf : imageForm s i = none) (h : exec i s = .next t) :
    t.dstW = s.dstW ∧ t.dstH = s.dstH := by
  obtain ⟨⟨_, _, _, _, _, _, _, rfl⟩, -⟩ := exec_plain_update hf h
  exact ⟨rfl, rfl⟩

/-- R33: an image-producing command publishes no image after an error and for an undersized source, else its own dimensions. -/
theorem exec_image_dims {s t : State} {i : Instr} {d p : Bool} {ow oh : Nat} (hf : imageForm s i = some (d, p, ow, oh))
    (h : exec i s = .next t) :
    (t.dstW = 0 ∧ t.dstH = 0 ∧ (statusErr t.status = true ∨ (sourceOf s).w < 3 ∨ (sourceOf s).h < 3)) ∨
    (t.dstW.toNat = ow ∧ t.dstH.toNat = oh ∧ statusErr t.status = false ∧ 3 ≤ (sourceOf s).w ∧ 3 ≤ (sourceOf s).h) := by
  rcases exec_image_cases hf h with ⟨hu, rfl⟩ | ⟨-, e, -, -, -, -, rfl⟩ | ⟨-, -, rfl⟩ | ⟨hu, -, m, rfl, -⟩
  · exact .inl ⟨rfl, rfl, .inr (undersized_iff.mp hu)⟩
  · exact .inl ⟨rfl, rfl, .inl (failWord_fields e _).2.1⟩
  · exact .inl ⟨rfl, rfl, .inl (failWord_fields .bus _).2.1⟩
  · obtain ⟨how, hoh⟩ := imageForm_bound hf
    refine .inr ⟨?_, ?_, (doneWord_fields false _ _).2.1, undersized_eq_false.mp hu⟩
    · exact Nat.mod_eq_of_lt how
    · exact Nat.mod_eq_of_lt hoh

/-- Settles O37: the ways an image-producing command ends fix what it publishes; DST_W and DST_H are RO. -/
theorem publishedDimensions : Obligations.PublishedDimensions := by
  refine ⟨fun s t i h => ⟨fun hf => exec_plain_dims hf h, fun d p ow oh hf => ?_⟩, fun _ _ _ _ => rfl,
    fun _ => ⟨rfl, rfl, rfl⟩, fun s t c rest r hs hd h => ?_, rfl, rfl, fun s off w rest hoff hs => ?_⟩
  · rcases exec_image_dims hf h with ⟨hw, hh, hwhy⟩ | ⟨hw, hh, herr, h3w, h3h⟩
    · refine ⟨fun _ => ⟨hw, hh⟩, fun _ _ => ⟨hw, hh⟩, fun herr h3w h3h => ?_⟩
      rw [herr] at hwhy
      simp only [Bool.false_eq_true, false_or] at hwhy
      omega
    · refine ⟨fun he => ?_, fun _ hsmall => by omega, fun _ _ _ => ⟨hw, hh⟩⟩
      rw [herr] at he
      cases he
  · rw [step_cons hs, hostAct_cmd_error hd] at h
    cases h
    exact ⟨rfl, rfl⟩
  · rw [step_cons hs]
    rcases hoff with rfl | rfl
    · exact hostAct_regWrite (r := .dstW) (by decide)
    · exact hostAct_regWrite (r := .dstH) (by decide)

/-! ### STATUS -/

/-- Every field of STATUS after a command (R26). -/
theorem exec_status_fields {s t : State} {i : Instr} (h : exec i s = .next t) :
    (statusDone t.status = !statusErr t.status) ∧
    (statusEmpty t.status = true ↔ statusDone t.status = true ∧ imageForm s i ≠ none ∧
      ((sourceOf s).w < 3 ∨ (sourceOf s).h < 3)) ∧
    (statusKnil t.status = true ↔ statusDone t.status = true ∧ nilForm i = true) ∧
    (statusErrCode t.status = 0 ↔ statusErr t.status = false) ∧
    (statusAnyErr t.status = (statusAnyErr s.status || statusErr t.status)) ∧
    statusReserved t.status = statusReserved s.status := by
  rcases exec_status h with ⟨e, ht, he⟩ | ⟨e, ht⟩ <;> rw [ht]
  · obtain ⟨hdone, herr, hempty, hknil, hcode, hany, hres⟩ := doneWord_fields e (nilForm i) s.status
    simp [hdone, herr, hempty, hknil, hcode, hany, hres, he]
  · obtain ⟨hdone, herr, hempty, hknil, hcode, hany, hres⟩ := failWord_fields e s.status
    have hne : errorCode e ≠ 0 := by cases e <;> decide
    simp only [hdone, herr, hempty, hknil, hcode, hany, hres]
    simpa using hne

/-- An action that is no STATUS write, no CMD write and no reset leaves STATUS. -/
theorem performs_keeps_status {s t : State} {a : HostAction} (h : Performs s a t) (hst : ∀ w, a ≠ .regWrite 4 4 w)
    (hcmd : ∀ c, a ≠ .regWrite 0 4 c) (hreset : a ≠ .reset) : t.status = s.status := by
  cases h with
  | command | illegal => exact absurd rfl (hcmd _)
  | @register r w _ =>
    have hr : Reg.status ≠ r := by rintro rfl; exact hst w rfl
    exact readReg_writeReg_of_ne hr w s
  | reset => exact absurd rfl hreset
  | unlistedWrite | regRead | unlistedRead | memWrite | memRead => rfl

/-- Settles O49: a command leaves the word of `Done` or of `Fail`, whose fields are known; the other actions follow by the
way each is performed. -/
theorem statusReportsTheLastCommand : Obligations.StatusReportsTheLastCommand := by
  refine ⟨fun s t i h => ?_, fun s t c rest r hs hd h => ?_, rfl, fun s rest hs => ⟨_, step_cons hs, rfl⟩,
    fun s w rest hs => ?_, fun s u a rest hs hst hcmd hreset h => ?_⟩
  · obtain ⟨hdone, hempty, hknil, hcode, hany, hres⟩ := exec_status_fields h
    refine ⟨hdone, hempty, hknil, hcode.mpr, fun he h0 => ?_, hany, hres⟩
    rw [hcode.mp h0] at he
    cases he
  · rw [step_cons hs, hostAct_cmd_error hd] at h
    cases h
    exact failWord_fields .illegal s.status
  · rw [← statusAfterWrite_eq]
    exact (step_cons hs).trans (hostAct_regWrite (r := .status) (by decide))
  · rw [performs_keeps_status (performs_of_step hs h) hst hcmd hreset]

/-- R45: only the commands that take a variant set KNIL. -/
theorem takesVariant_of_nilForm {i : Instr} (h : nilForm i = true) :
    (∃ v k, i = .gradient v k) ∨ (∃ v k m, i = .filter v k m) ∨ ∃ v, i = .klookup v := by
  cases i with
  | gradient v k => exact .inl ⟨v, k, rfl⟩
  | filter v k m => exact .inr (.inl ⟨v, k, m, rfl⟩)
  | klookup v => exact .inr (.inr ⟨v, rfl⟩)
  | nop | magnitude | filterMath | gradPlanes | filterSimd | isqrtNewton | isqrtBisect => cases h

theorem AgreeButStatus.eraseStatus_eq {o q : Host.Outcome State Fault Refusal} (h : AgreeButStatus o q) :
    eraseStatus q = eraseStatus o := by
  cases o <;> cases q <;> simp_all [AgreeButStatus, eraseStatus]

/-- Settles O50: STATUS enters a command only through the two words that end it, whose low bits do not depend on it. -/
theorem flagsAreNeverRead : Obligations.FlagsAreNeverRead := by
  refine ⟨fun s t i h => ?_, fun s i w => (exec_blind i s w).eraseStatus_eq, fun s t u i w ht hu => ?_⟩
  · obtain ⟨hdone, hempty, hknil, hcode, hany, -⟩ := exec_status_fields h
    exact ⟨hdone, hcode, hany, fun he => (hempty.mp he).2.1, fun hk => takesVariant_of_nilForm (hknil.mp hk).2⟩
  · have hb := exec_blind i s w
    rw [ht, setStatus, hu] at hb
    exact hb.2

end Sys2Proof.Machine
end

section
/-! The engine's access primitives. -/

namespace Sys2Proof.Machine

/-- R63, R64: an access to one absent byte raises ErrBus. -/
theorem byteAccess_absent {cfg : Cfg} {a : Nat} (h : memValid cfg a = false) (m : Memory) (v : Nat) :
    memRead cfg m a .byte = .error .bus ∧ memWrite cfg m a .byte v = .error .bus := by
  simp [memRead, memWrite, h]

/-- R63, R64: a two-byte access raises ErrBus when either byte is absent. -/
theorem halfAccess_absent {cfg : Cfg} {a : Nat} (h : memValid cfg a = false ∨ memValid cfg (a + 1) = false) (m : Memory)
    (v : Nat) : memRead cfg m a .half = .error .bus ∧ memWrite cfg m a .half v = .error .bus := by
  rcases h with h | h <;> simp [memRead, memWrite, h]

/-- Settles O19: an access to bytes that exist answers, and `memWrite_spec` says which bytes a write leaves; any other access
raises ErrBus. -/
theorem accessPrimitives : Obligations.AccessPrimitives := by
  refine ⟨fun cfg m a => ⟨memRead_byte_ok, fun h => (byteAccess_absent h m 0).1, memRead_half_ok,
    fun h => (halfAccess_absent h m 0).1⟩, fun cfg m a v => ⟨fun h => ?_, fun h => (byteAccess_absent h m v).2,
    fun h h' => ?_, fun h => (halfAccess_absent h m v).2⟩⟩
  · have hw := memWrite_byte_ok (m := m) (v := v) h
    obtain ⟨hframe, hlow, -⟩ := memWrite_spec hw
    exact ⟨_, hw, by rw [hlow, BitVec.toNat_ofNat], fun b hb => hframe b hb nofun⟩
  · have hw := memWrite_half_ok (m := m) (v := v) h h'
    obtain ⟨hframe, hlow, hhigh, -⟩ := memWrite_spec hw
    exact ⟨_, hw, by rw [hlow, BitVec.toNat_ofNat], by rw [hhigh rfl, BitVec.toNat_ofNat],
      fun b hb hb' => hframe b hb fun _ => hb'⟩

end Sys2Proof.Machine
end

section
/-! The command word (spec/30_encoding.md): its fields, the selectors, and the decoder as the inverse of the encoder. -/

namespace Sys2Proof

/-! ### A word and its fields (Table E1) -/

section pack
variable (opc : BitVec 4) (var : BitVec 3) (conv : BitVec 1) (mag : BitVec 2)

@[simp] theorem fieldZero_packCommand : fieldZero (packCommand opc var conv mag) = 0 := (Laws.EncodeShape.packed ..).1
@[simp] theorem fieldOpc_packCommand : fieldOpc (packCommand opc var conv mag) = opc := (Laws.EncodeShape.packed ..).2
@[simp] theorem fieldVar_packCommand : fieldVar (packCommand opc var conv mag) = var := by
  apply BitVec.eq_of_getLsbD_eq
  intro i hi
  interval_cases i <;> simp [fieldVar, packCommand]
@[simp] theorem fieldConv_packCommand : fieldConv (packCommand opc var conv mag) = conv := by
  apply BitVec.eq_of_getLsbD_eq
  intro i hi
  interval_cases i
  simp [fieldConv, packCommand]
@[simp] theorem fieldMag_packCommand : fieldMag (packCommand opc var conv mag) = mag := by
  apply BitVec.eq_of_getLsbD_eq
  intro i hi
  interval_cases i <;> simp [fieldMag, packCommand]

end pack

/-- A word is packed from four values exactly when they are its fields and ZERO is 0. -/
theorem packCommand_eq_iff {c : Word} {opc : BitVec 4} {var : BitVec 3} {conv : BitVec 1} {mag : BitVec 2} :
    packCommand opc var conv mag = c ↔
      fieldZero c = 0 ∧ fieldOpc c = opc ∧ fieldVar c = var ∧ fieldConv c = conv ∧ fieldMag c = mag := by
  constructor
  · rintro rfl
    simp
  · rintro ⟨hz, rfl, rfl, rfl, rfl⟩
    exact (word_eq_packCommand hz).symm

/-! ### The selectors (R95 to R97) -/

/-- R95: the eight values of VAR are the codes of the well-formed variants. -/
theorem variantCode_decodeVariant (code : BitVec 3) : variantCode (decodeVariant code) = code := by
  revert code; decide

theorem wf_decodeVariant (code : BitVec 3) : (decodeVariant code).wf = true := by
  revert code; decide

theorem decodeVariant_variantCode {v : Variant} (h : v.wf = true) : decodeVariant (variantCode v) = v := by
  cases v with
  | unrecognised code => revert h; revert code; decide
  | _ => rfl

theorem convCode_decodeConv (code : BitVec 1) : convCode (decodeConv code) = code := by
  revert code; decide

theorem decodeConv_convCode (k : Conv) : decodeConv (convCode k) = k := by
  cases k <;> rfl

theorem decodeMag_eq_some {code : BitVec 2} {m : Mag} : decodeMag code = some m ↔ code = magCode m := by
  revert code
  cases m <;> decide

theorem decodeMag_eq_none {code : BitVec 2} : decodeMag code = none ↔ code = 3 := by
  revert code; decide

/-- R97: value 3 of MAG is reserved, every other one names a strategy. -/
theorem exists_magCode {code : BitVec 2} : (∃ m, code = magCode m) ↔ code ≠ 3 := by
  simp only [← decodeMag_eq_some, ne_eq, ← decodeMag_eq_none, Option.ne_none_iff_exists']

/-- R98 (c), (e), (f): a command without selectors is read when the three selector fields are 0. -/
theorem decodePlain_eq_ok {i j : Instr} {var : BitVec 3} {conv : BitVec 1} {mag : BitVec 2} :
    decodePlain i var conv mag = .ok j ↔ i = j ∧ var = 0 ∧ conv = 0 ∧ mag = 0 := by
  unfold decodePlain
  split_ifs with hm hc hv
  · exact iff_of_false nofun fun ⟨_, _, _, h⟩ => hm h
  · exact iff_of_false nofun fun ⟨_, _, h, _⟩ => hc h
  · exact iff_of_false nofun fun ⟨_, h, _, _⟩ => hv h
  · exact ⟨fun h => ⟨Except.ok.inj h, not_not.mp hv, not_not.mp hc, not_not.mp hm⟩, by rintro ⟨rfl, -⟩; rfl⟩

/-! ### Decoding and encoding -/

/-- R93, R94. -/
theorem decode_encode {i : Instr} (h : i.wf = true) : decode (encode i) = .ok i := by
  cases i with
  | nop | filterMath | gradPlanes | filterSimd | isqrtNewton | isqrtBisect => rfl
  | gradient v k => simp [encode, decode, decodeVariant_variantCode h, decodeConv_convCode]
  | magnitude m => simp [encode, decode, decodeMag_eq_some.mpr rfl]
  | filter v k m => simp [encode, decode, decodeVariant_variantCode h, decodeConv_convCode, decodeMag_eq_some.mpr rfl]
  | klookup v => simp [encode, decode, decodeVariant_variantCode h]

/-- R90: each branch of the decoder that answers fixes the four fields of the word. -/
theorem encode_decode {c : Word} {i : Instr} (h : decode c = .ok i) : i.wf = true ∧ encode i = c := by
  by_cases hz : fieldZero c = 0
  swap
  · cases (decode_of_zero_ne hz).symm.trans h
  have hpack {opc : BitVec 4} {var : BitVec 3} {conv : BitVec 1} {mag : BitVec 2} (ho : (fieldOpc c).toNat = opc.toNat)
      (hv : fieldVar c = var) (hc : fieldConv c = conv) (hm : fieldMag c = mag) : packCommand opc var conv mag = c :=
    packCommand_eq_iff.mpr ⟨hz, BitVec.eq_of_toNat_eq ho, hv, hc, hm⟩
  have hvar := (variantCode_decodeVariant (fieldVar c)).symm
  have hconv := (convCode_decodeConv (fieldConv c)).symm
  unfold decode at h
  rw [if_neg (not_not.mpr hz)] at h
  dsimp only at h
  split at h
  case h_11 => cases h
  case h_2 ho =>
    split at h <;> cases h
    next hm => exact ⟨wf_decodeVariant _, hpack ho hvar hconv (not_not.mp hm)⟩
  case h_3 ho =>
    split at h
    · cases h
    split at h
    · cases h
    split at h <;> cases h
    next hc hv _ m hm => exact ⟨rfl, hpack ho (not_not.mp hv) (not_not.mp hc) (decodeMag_eq_some.mp hm)⟩
  case h_4 ho =>
    split at h <;> cases h
    next m hm => exact ⟨wf_decodeVariant _, hpack ho hvar hconv (decodeMag_eq_some.mp hm)⟩
  case h_10 ho =>
    split at h
    · cases h
    split at h <;> cases h
    next hm hc => exact ⟨wf_decodeVariant _, hpack ho hvar (not_not.mp hc) (not_not.mp hm)⟩
  all_goals
    obtain ⟨rfl, hv, hc, hm⟩ := decodePlain_eq_ok.mp h
    exact ⟨rfl, hpack ‹_› hv hc hm⟩

/-- R105: the decoder is the inverse of the encoder on the well-formed commands. -/
theorem decode_eq_ok_iff {c : Word} {i : Instr} : decode c = .ok i ↔ i.wf = true ∧ encode i = c :=
  ⟨encode_decode, by rintro ⟨h, rfl⟩; exact decode_encode h⟩

/-! ### The opcode map (Table E2) -/

/-- Two words are equal when their fields are. -/
theorem word_eq_iff_fields {c d : Word} : c = d ↔
    fieldZero c = fieldZero d ∧ fieldOpc c = fieldOpc d ∧ fieldVar c = fieldVar d ∧ fieldConv c = fieldConv d ∧
      fieldMag c = fieldMag d := by
  constructor
  · rintro rfl
    simp
  · rintro ⟨hz, ho, hv, hc, hm⟩
    apply BitVec.eq_of_getLsbD_eq
    intro i hi
    have field (start len : Nat) (h : c.extractLsb' start len = d.extractLsb' start len) (h1 : start ≤ i) (h2 : i < start + len) :
        c.getLsbD i = d.getLsbD i := by
      have := congrArg (·.getLsbD (i - start)) h
      simpa [BitVec.getLsbD_extractLsb', show i - start < len by omega, show start + (i - start) = i by omega] using this
    rcases Nat.lt_or_ge i 4 with h4 | h4
    · exact field 0 4 ho (by omega) (by omega)
    rcases Nat.lt_or_ge i 7 with h7 | h7
    · exact field 4 3 hv h4 (by omega)
    rcases Nat.lt_or_ge i 8 with h8 | h8
    · exact field 7 1 hc h7 (by omega)
    rcases Nat.lt_or_ge i 10 with h10 | h10
    · exact field 8 2 hm h8 (by omega)
    · exact field 10 22 hz h10 (by omega)

/-- A word matches a row under a mask when each field does. -/
theorem and_eq_iff_fields {c mask row : Word} : c &&& mask = row ↔
    fieldZero c &&& fieldZero mask = fieldZero row ∧ fieldOpc c &&& fieldOpc mask = fieldOpc row ∧
      fieldVar c &&& fieldVar mask = fieldVar row ∧ fieldConv c &&& fieldConv mask = fieldConv row ∧
      fieldMag c &&& fieldMag mask = fieldMag row := by
  rw [word_eq_iff_fields]
  simp only [fieldZero, fieldOpc, fieldVar, fieldConv, fieldMag, BitVec.extractLsb'_and]

section masks

-- A field of a mask is 0 or has all its bits set; these are the latter, as `and_eq_iff_fields` meets them.
theorem and_fullZero (x : BitVec 22) : x &&& 0x3FFFFF#22 = x := BitVec.and_allOnes
theorem and_fullOpc (x : BitVec 4) : x &&& 0xF#4 = x := BitVec.and_allOnes
theorem and_fullVar (x : BitVec 3) : x &&& 0x7#3 = x := BitVec.and_allOnes
theorem and_fullConv (x : BitVec 1) : x &&& 0x1#1 = x := BitVec.and_allOnes
theorem and_fullMag (x : BitVec 2) : x &&& 0x3#2 = x := BitVec.and_allOnes

variable (c : Word)

/-- The mask of GRADIENT's row keeps ZERO, OPC and MAG. -/
theorem gradientMask_iff : c &&& 0xFFFFFF0F#32 = 1#32 ↔ fieldZero c = 0 ∧ fieldOpc c = 1 ∧ fieldMag c = 0 := by
  rw [and_eq_iff_fields]
  simp [fieldZero, fieldOpc, fieldVar, fieldConv, fieldMag, and_fullZero, and_fullOpc, and_fullMag]

/-- The mask of MAGNITUDE's row keeps ZERO, OPC, VAR and CONV. -/
theorem magnitudeMask_iff :
    c &&& 0xFFFFFCFF#32 = 2#32 ↔ fieldZero c = 0 ∧ fieldOpc c = 2 ∧ fieldVar c = 0 ∧ fieldConv c = 0 := by
  rw [and_eq_iff_fields]
  simp [fieldZero, fieldOpc, fieldVar, fieldConv, fieldMag, and_fullZero, and_fullOpc, and_fullVar, and_fullConv]

/-- The mask of FILTER's row keeps ZERO and OPC. -/
theorem filterMask_iff : c &&& 0xFFFFFC0F#32 = 3#32 ↔ fieldZero c = 0 ∧ fieldOpc c = 3 := by
  rw [and_eq_iff_fields]
  simp [fieldZero, fieldOpc, fieldVar, fieldConv, fieldMag, and_fullZero, and_fullOpc]

/-- The mask of KLOOKUP's row keeps ZERO, OPC, CONV and MAG. -/
theorem klookupMask_iff :
    c &&& 0xFFFFFF8F#32 = 9#32 ↔ fieldZero c = 0 ∧ fieldOpc c = 9 ∧ fieldConv c = 0 ∧ fieldMag c = 0 := by
  rw [and_eq_iff_fields]
  simp [fieldZero, fieldOpc, fieldVar, fieldConv, fieldMag, and_fullZero, and_fullOpc, and_fullConv, and_fullMag]

end masks

section rows
variable {c : Word}

/-- A command without selectors has one word. -/
theorem decode_plain_iff {i : Instr} (hwf : i.wf = true) : decode c = .ok i ↔ c &&& 0xFFFFFFFF#32 = encode i := by
  rw [Machine.and_fullMask, decode_eq_ok_iff, and_iff_right hwf, eq_comm]

theorem decode_gradient_iff :
    (∃ v k, decode c = .ok (.gradient v k)) ↔ fieldZero c = 0 ∧ fieldOpc c = 1 ∧ fieldMag c = 0 := by
  simp only [decode_eq_ok_iff, encode, packCommand_eq_iff]
  constructor
  · rintro ⟨v, k, -, hz, ho, -, -, hm⟩
    exact ⟨hz, ho, hm⟩
  · rintro ⟨hz, ho, hm⟩
    exact ⟨_, _, wf_decodeVariant _, hz, ho, (variantCode_decodeVariant _).symm, (convCode_decodeConv _).symm, hm⟩

theorem decode_magnitude_iff : (∃ m, decode c = .ok (.magnitude m)) ↔
    (fieldZero c = 0 ∧ fieldOpc c = 2 ∧ fieldVar c = 0 ∧ fieldConv c = 0) ∧ fieldMag c ≠ 3 := by
  simp only [decode_eq_ok_iff, encode, packCommand_eq_iff]
  constructor
  · rintro ⟨m, -, hz, ho, hv, hc, hm⟩
    exact ⟨⟨hz, ho, hv, hc⟩, exists_magCode.mp ⟨m, hm⟩⟩
  · rintro ⟨⟨hz, ho, hv, hc⟩, h3⟩
    obtain ⟨m, hm⟩ := exists_magCode.mpr h3
    exact ⟨m, rfl, hz, ho, hv, hc, hm⟩

theorem decode_filter_iff : (∃ v k m, decode c = .ok (.filter v k m)) ↔
    (fieldZero c = 0 ∧ fieldOpc c = 3) ∧ fieldMag c ≠ 3 := by
  simp only [decode_eq_ok_iff, encode, packCommand_eq_iff]
  constructor
  · rintro ⟨v, k, m, -, hz, ho, -, -, hm⟩
    exact ⟨⟨hz, ho⟩, exists_magCode.mp ⟨m, hm⟩⟩
  · rintro ⟨⟨hz, ho⟩, h3⟩
    obtain ⟨m, hm⟩ := exists_magCode.mpr h3
    exact ⟨_, _, m, wf_decodeVariant _, hz, ho, (variantCode_decodeVariant _).symm, (convCode_decodeConv _).symm, hm⟩

theorem decode_klookup_iff :
    (∃ v, decode c = .ok (.klookup v)) ↔ fieldZero c = 0 ∧ fieldOpc c = 9 ∧ fieldConv c = 0 ∧ fieldMag c = 0 := by
  simp only [decode_eq_ok_iff, encode, packCommand_eq_iff]
  constructor
  · rintro ⟨v, -, hz, ho, -, hc, hm⟩
    exact ⟨hz, ho, hc, hm⟩
  · rintro ⟨hz, ho, hc, hm⟩
    exact ⟨_, wf_decodeVariant _, hz, ho, (variantCode_decodeVariant _).symm, hc, hm⟩

end rows

/-! ### Illegal words (R98) -/

/-- R98 over the fields as bit vectors. -/
theorem illegalWord_iff {c : Word} : Machine.IllegalWord c ↔
    fieldZero c ≠ 0 ∨ 10 ≤ fieldOpc c ∨ (fieldOpc c ∉ [2, 3] ∧ fieldMag c ≠ 0) ∨ (fieldOpc c ∈ [2, 3] ∧ fieldMag c = 3) ∨
      (fieldOpc c ∉ [1, 3] ∧ fieldConv c ≠ 0) ∨ (fieldOpc c ∉ [1, 3, 9] ∧ fieldVar c ≠ 0) := by
  have hconv (x : BitVec 1) : x.toNat = 1 ↔ x ≠ 0 := by revert x; decide
  simp only [Machine.IllegalWord, hconv, fieldZero, fieldOpc, fieldVar, fieldConv, fieldMag, List.mem_cons, List.not_mem_nil,
    or_false, ← BitVec.toNat_inj, BitVec.le_def, ne_eq]
  rfl

/-- The word of a command breaks no clause of R98, whether or not the command is well formed. -/
theorem not_illegalWord_encode (i : Instr) : ¬ Machine.IllegalWord (encode i) := by
  have hmag (m : Mag) : ¬ magCode m = 3#2 := exists_magCode.mp ⟨m, rfl⟩
  rw [illegalWord_iff]
  cases i with
  | magnitude m | filter v k m => simp [encode, hmag]
  | _ => simp [encode]

/-- R98: a word outside clauses (a) to (f) is a word of the row its OPC names. -/
theorem exists_decode_of_legal {c : Word} (h : ¬ Machine.IllegalWord c) : ∃ i, decode c = .ok i := by
  rw [illegalWord_iff] at h
  push Not at h
  obtain ⟨hz, hlt, hmag, hmag3, hconv, hvar⟩ := h
  have plain (i : Instr) (hwf : i.wf = true) (he : encode i = packCommand (fieldOpc c) 0 0 0)
      (hrow : fieldOpc c ∉ [2, 3] ∧ fieldOpc c ∉ [1, 3] ∧ fieldOpc c ∉ [1, 3, 9]) : ∃ i, decode c = .ok i :=
    ⟨i, decode_eq_ok_iff.mpr
      ⟨hwf, he.trans (packCommand_eq_iff.mpr ⟨hz, rfl, hvar hrow.2.2, hconv hrow.2.1, hmag hrow.1⟩)⟩⟩
  have hopc : fieldOpc c ∈ [0, 1, 2, 3, 4, 5, 6, 7, 8, 9] := by
    generalize fieldOpc c = opc at hlt
    revert opc
    decide
  generalize ho : fieldOpc c = opc at hopc plain hmag hmag3 hconv hvar
  simp only [List.mem_cons, List.not_mem_nil, or_false] at hopc
  rcases hopc with rfl | rfl | rfl | rfl | rfl | rfl | rfl | rfl | rfl | rfl
  · exact plain .nop rfl rfl (by decide)
  · obtain ⟨v, k, h⟩ := decode_gradient_iff.mpr ⟨hz, ho, hmag (by decide)⟩
    exact ⟨_, h⟩
  · obtain ⟨m, h⟩ := decode_magnitude_iff.mpr ⟨⟨hz, ho, hvar (by decide), hconv (by decide)⟩, hmag3 (by decide)⟩
    exact ⟨_, h⟩
  · obtain ⟨v, k, m, h⟩ := decode_filter_iff.mpr ⟨⟨hz, ho⟩, hmag3 (by decide)⟩
    exact ⟨_, h⟩
  · exact plain .filterMath rfl rfl (by decide)
  · exact plain .gradPlanes rfl rfl (by decide)
  · exact plain .filterSimd rfl rfl (by decide)
  · exact plain .isqrtNewton rfl rfl (by decide)
  · exact plain .isqrtBisect rfl rfl (by decide)
  · obtain ⟨v, h⟩ := decode_klookup_iff.mpr ⟨hz, ho, hconv (by decide), hmag (by decide)⟩
    exact ⟨_, h⟩

/-- The decoder answers exactly the words outside clauses (a) to (f). -/
theorem exists_decode_iff {c : Word} : (∃ i, decode c = .ok i) ↔ ¬ Machine.IllegalWord c := by
  refine ⟨?_, exists_decode_of_legal⟩
  rintro ⟨i, hi⟩
  obtain ⟨-, rfl⟩ := encode_decode hi
  exact not_illegalWord_encode i

/-! ### The 81 legal words -/

/-- The variants that stand for the eight values of VAR (R95). -/
def wfVariants : List Variant :=
  [.sobel, .sobelFast, .laplacian, .scharr, .sharpen, .unrecognised 5, .unrecognised 6, .unrecognised 7]

/-- The values of CONV (R96). -/
def convs : List Conv := [.checked, .fast]

/-- The values of MAG that are not reserved (R97). -/
def mags : List Mag := [.newton, .bisect, .float]

/-- The well-formed commands, row by row of Table E2: 6 without selectors, 16, 3, 48 and 8. -/
def wfInstrs : List Instr :=
  List.flatten [[.nop, .filterMath, .gradPlanes, .filterSimd, .isqrtNewton, .isqrtBisect],
    wfVariants.flatMap fun v => convs.map (Instr.gradient v),
    mags.map Instr.magnitude,
    wfVariants.flatMap fun v => convs.flatMap fun k => mags.map (Instr.filter v k),
    wfVariants.map Instr.klookup]

theorem mem_wfVariants {v : Variant} : v ∈ wfVariants ↔ v.wf = true := by
  cases v with
  | unrecognised code => revert code; decide
  | _ => decide

theorem mem_convs (k : Conv) : k ∈ convs := by cases k <;> decide

theorem mem_mags (m : Mag) : m ∈ mags := by cases m <;> decide

theorem mem_wfInstrs {i : Instr} : i ∈ wfInstrs ↔ i.wf = true := by
  cases i <;> simp [wfInstrs, mem_wfVariants, mem_convs, mem_mags, Instr.wf]

/-- R98: the legal words are the words of the well-formed commands. -/
theorem mem_legalWords {c : Word} : c ∈ wfInstrs.map encode ↔ ¬ Machine.IllegalWord c := by
  simp only [List.mem_map, mem_wfInstrs, ← exists_decode_iff, decode_eq_ok_iff]

theorem nodup_legalWords : (wfInstrs.map encode).Nodup := by decide +kernel

/-- The decoder refuses exactly the words of clauses (a) to (f). -/
theorem exists_reject_iff {c : Word} : (∃ r, decode c = .error r) ↔ Machine.IllegalWord c := by
  rw [← not_iff_not, ← exists_decode_iff]
  cases decode c <;> simp

/-! ### The pseudo-commands (R102) -/

/-- The words of the commands that take VAR, as the sum R102 writes. -/
theorem variantWords : ∀ code : BitVec 3,
    packCommand 3 code 0 0 = 0x03#32 + 16#32 * code.setWidth 32 ∧
    packCommand 3 code 1 0 = 0x83#32 + 16#32 * code.setWidth 32 ∧
    packCommand 1 code 0 0 = 0x01#32 + 16#32 * code.setWidth 32 ∧
    packCommand 9 code 0 0 = 0x09#32 + 16#32 * code.setWidth 32 := by decide

theorem magnitudeWords : ∀ code : BitVec 2, packCommand 2 0 0 code = 0x02#32 + 256#32 * code.setWidth 32 := by decide

/-! ### The obligations -/

/-- Settles O1: the decoder is run on the thirteen words. -/
theorem decodesTheOpcodeTable : Obligations.DecodesTheOpcodeTable := by
  unfold Obligations.DecodesTheOpcodeTable
  decide

/-- Settles O2: row by row of Table E2, the selectors being read back from their codes. -/
theorem encodeThenDecode : Obligations.EncodeThenDecode := fun _ => decode_encode

/-- Settles O3: a branch of the decoder that answers has tested every field its command does not use. -/
theorem decodeThenEncode : Obligations.DecodeThenEncode := fun _ _ => encode_decode

/-- Settles O4: a row and its mask say the same of the five fields. -/
theorem opcodeMapSelects : Obligations.OpcodeMapSelects := fun c =>
  ⟨decode_plain_iff rfl, decode_gradient_iff.trans (gradientMask_iff c).symm,
    decode_magnitude_iff.trans (and_congr_left' (magnitudeMask_iff c).symm),
    decode_filter_iff.trans (and_congr_left' (filterMask_iff c).symm),
    decode_plain_iff rfl, decode_plain_iff rfl, decode_plain_iff rfl, decode_plain_iff rfl, decode_plain_iff rfl,
    decode_klookup_iff.trans (klookupMask_iff c).symm⟩

/-- Settles O5: the legal words are listed as the words of the 81 well-formed commands; the CMD write of any other word is
`hostAct_cmd_error`. -/
theorem illegalWordsTakeErrIllegal : Obligations.IllegalWordsTakeErrIllegal := by
  refine ⟨fun c => exists_reject_iff, ⟨wfInstrs.map encode, rfl, nodup_legalWords, fun c => mem_legalWords⟩,
    fun s c rest hc hs => ?_⟩
  obtain ⟨r, hr⟩ := exists_reject_iff.mpr hc
  exact (Machine.step_cons hs).trans (Machine.hostAct_cmd_error hr _)

/-- Settles O6: each expansion is the command whose word the sum gives. -/
theorem pseudoCommandsExpand : Obligations.PseudoCommandsExpand :=
  ⟨fun v => variantWords (variantCode v), fun m => magnitudeWords (magCode m), rfl, rfl, rfl, rfl, rfl⟩

end Sys2Proof
end

section
/-! Table E3 (spec/30_encoding.md R100): what a command writes, and what its outcome depends on. -/

namespace Sys2Proof.Machine

/-! ### Registers through the ends of a command -/

/-- R120: `Done` writes STATUS and no other register. -/
theorem readReg_complete {r : Reg} (h : r ≠ .status) (e k : Bool) (s : State) : readReg r (complete e k s) = readReg r s := by
  cases r with
  | status => exact absurd rfl h
  | _ => rfl

/-- R120, R220: `Fail` of a command that produces no image writes STATUS and no other register. -/
theorem readReg_raiseError_plain {r : Reg} (h : r ≠ .status) (e : CmdError) (s : State) :
    readReg r (raiseError e false s) = readReg r s := by
  cases r with
  | status => exact absurd rfl h
  | _ => rfl

/-- What an image-producing command may update, DST_W, DST_H and STATUS being its only registers. -/
theorem readReg_imageUpdate {r : Reg} (h : r ∉ [.dstW, .dstH, .status]) (s : State) (m : Memory) (w ht : Half) (st : Word)
    (n : Nat) : readReg r { s with mem := m, dstW := w, dstH := ht, status := st, freeCount := n } = readReg r s := by
  cases r with
  | dstW | dstH | status => simp at h
  | _ => rfl

/-! ### The frame -/

/-- Table E3: the four image-producing commands write the same registers. -/
theorem writesOf_image {s : State} {i : Instr} {f : Bool × Bool × Nat × Nat} (hf : imageForm s i = some f) :
    writesOf i = [.dstW, .dstH, .status] := by
  cases i with
  | filter | filterMath | gradPlanes | filterSimd => rfl
  | _ => cases hf

/-- KLOOKUP writes all eighteen readout registers. -/
theorem readout_mem_writesOf (v : Variant) (k : Fin 9) : .kx k ∈ writesOf (.klookup v) ∧ .ky k ∈ writesOf (.klookup v) := by
  fin_cases k <;> simp [writesOf]

theorem exec_image_frame {s t : State} {i : Instr} {f : Bool × Bool × Nat × Nat} (hf : imageForm s i = some f)
    (h : exec i s = .next t) {r : Reg} (hr : r ∉ writesOf i) : readReg r t = readReg r s := by
  rw [writesOf_image hf] at hr
  rcases exec_image_cases hf h with ⟨-, rfl⟩ | ⟨-, e, -, -, -, -, rfl⟩ | ⟨-, -, rfl⟩ | ⟨-, -, m, rfl, -⟩ <;>
    exact readReg_imageUpdate hr s _ _ _ _ _

theorem exec_gradient_frame {s t : State} {v : Variant} {c : Conv} (h : exec (.gradient v c) s = .next t) {r : Reg}
    (hr : r ∉ writesOf (.gradient v c)) : readReg r t = readReg r s := by
  simp only [writesOf, List.mem_cons, List.not_mem_nil, or_false, not_or] at hr
  obtain ⟨hgx, hgy, hst⟩ := hr
  rcases exec_gradient s v c with ⟨-, h'⟩ | ⟨-, -, -, h'⟩ | ⟨-, -, -, h'⟩ | ⟨-, -, -, h'⟩ | ⟨-, -, -, h'⟩ <;>
    cases h'.symm.trans h
  · exact readReg_raiseError_plain hst _ s
  · exact readReg_raiseError_plain hst _ s
  · exact readReg_raiseError_plain hst _ s
  · rw [readReg_complete hst]
    cases r with
    | resGx => exact absurd rfl hgx
    | resGy => exact absurd rfl hgy
    | _ => rfl

theorem exec_plain_frame {s t : State} {i : Instr} (hf : imageForm s i = none) (h : exec i s = .next t) {r : Reg}
    (hr : r ∉ writesOf i) : readReg r t = readReg r s := by
  have hst : r ≠ .status := by
    rintro rfl
    exact hr (by cases i <;> simp [writesOf])
  cases i with
  | filter | filterMath | gradPlanes | filterSimd => cases hf
  | gradient v c => exact exec_gradient_frame h hr
  | nop => cases h; exact readReg_complete hst ..
  | magnitude m =>
    cases h
    rw [readReg_complete hst]
    cases r with
    | resMag => simp [writesOf] at hr
    | _ => rfl
  | isqrtNewton | isqrtBisect =>
    cases h
    rw [readReg_complete hst]
    cases r with
    | resSqrt => simp [writesOf] at hr
    | _ => rfl
  | klookup v =>
    cases h
    rw [readReg_complete hst]
    cases r with
    | kx k => exact absurd (readout_mem_writesOf v k).1 hr
    | ky k => exact absurd (readout_mem_writesOf v k).2 hr
    | _ => rfl

/-- The value of the host's last read is no operand and no result of a command. -/
theorem exec_hostRead {s t : State} {i : Instr} (h : exec i s = .next t) : t.hostRead = s.hostRead := by
  cases hf : imageForm s i with
  | none =>
    obtain ⟨⟨_, _, _, _, _, _, _, rfl⟩, -⟩ := exec_plain_update hf h
    rfl
  | some f =>
    rcases exec_image_cases hf h with ⟨-, rfl⟩ | ⟨-, e, -, -, -, -, rfl⟩ | ⟨-, -, rfl⟩ | ⟨-, -, m, rfl, -⟩ <;> rfl

/-- Settles O51: the ends of a command, and the result registers it sets before them, are those of its row. -/
theorem registerFrame : Obligations.RegisterFrame := by
  intro s t i h
  obtain ⟨-, hcfg, hhost⟩ := exec_frame h
  refine ⟨fun r hr => ?_, fun hf => exec_plain_mem hf h, hcfg, hhost, exec_hostRead h⟩
  cases hf : imageForm s i with
  | none => exact exec_plain_frame hf h hr
  | some f => exact exec_image_frame hf h hr

/-! ### Two runs on the same operands (R43) -/

/-- The ends of two commands are the same as far as their operands determine them: memory, STATUS[7:0] and, after `Done`, the
registers `ws`. -/
def SameResult (ws : List Reg) (t t' : State) : Prop :=
  t'.mem = t.mem ∧ t'.status.extractLsb' 0 8 = t.status.extractLsb' 0 8 ∧
    (statusDone t.status = true → ∀ r ∈ ws, r ≠ .status → readReg r t' = readReg r t)

/-- Both outcomes are next states with the same result, or both the same fault. -/
inductive SameOutcome (ws : List Reg) : Host.Outcome State Fault Refusal → Host.Outcome State Fault Refusal → Prop where
  | next {t t' : State} (h : SameResult ws t t') : SameOutcome ws (.next t) (.next t')
  | fault (f : Fault) : SameOutcome ws (.fault f) (.fault f)

/-- R120: `Done` shows of two states their memories and the registers `ws`. -/
theorem complete_sameResult {ws : List Reg} (e k : Bool) {s u : State} (hm : u.mem = s.mem)
    (hr : ∀ r ∈ ws, r ≠ .status → readReg r u = readReg r s) : SameResult ws (complete e k s) (complete e k u) := by
  refine ⟨hm, (packStatus_low ..).trans (packStatus_low ..).symm, fun _ r hw hst => ?_⟩
  rw [readReg_complete hst, readReg_complete hst, hr r hw hst]

/-- R120, R220: `Fail` shows of two states their memories only. -/
theorem raiseError_sameResult {ws : List Reg} (e : CmdError) (p : Bool) {s u : State} (hm : u.mem = s.mem) :
    SameResult ws (raiseError e p s) (raiseError e p u) := by
  refine ⟨hm, (packStatus_low ..).trans (packStatus_low ..).symm, fun hdone => ?_⟩
  simp at hdone

/-- A 16-bit register is fixed by what it reads as. -/
theorem half_eq_of_setWidth {a b : Half} (h : a.setWidth 32 = b.setWidth 32) : a = b := by
  apply BitVec.eq_of_toNat_eq
  have := congrArg BitVec.toNat h
  rwa [BitVec.toNat_setWidth_of_le (by omega), BitVec.toNat_setWidth_of_le (by omega)] at this

/-- R61: the source image is given by its four registers. -/
theorem sourceOf_congr {s u : State} (h : ∀ r ∈ sourceRegs, readReg r u = readReg r s) : sourceOf u = sourceOf s := by
  have hbase : u.srcBase = s.srcBase := h .srcBase (by decide)
  have hw := half_eq_of_setWidth (h .srcW (by decide))
  have hh := half_eq_of_setWidth (h .srcH (by decide))
  have hs := half_eq_of_setWidth (h .srcStride (by decide))
  rw [sourceOf, hbase, hw, hh, hs, sourceOf]

/-- `u` gives an image-producing command the operands that `s` gives it. -/
structure SameOperands (d p : Bool) (s u : State) : Prop where
  source : sourceOf u = sourceOf s
  dst : d = true → u.dstBase = s.dstBase ∧ u.dstStride = s.dstStride
  planes : p = true → u.gxBase = s.gxBase ∧ u.gyBase = s.gyBase
  mem : u.mem = s.mem
  cfg : u.cfg = s.cfg
  freeCount : u.freeCount = s.freeCount

section image
variable {d p : Bool} {s u : State}

theorem SameOperands.dstStrideOf_eq (h : SameOperands true p s u) (ow : Nat) : dstStrideOf u ow = dstStrideOf s ow := by
  rw [dstStrideOf, (h.dst rfl).2, dstStrideOf]

theorem SameOperands.writeFoot_eq (h : SameOperands d p s u) (ow oh : Nat) : writeFoot u d p ow oh = writeFoot s d p ow oh := by
  have hdst : (if d then [dstRect u ow oh] else []) = if d then [dstRect s ow oh] else [] := by
    cases d with
    | false => rfl
    | true => simp only [dstRect, h.dstStrideOf_eq, (h.dst rfl).1]
  unfold writeFoot
  rw [hdst, h.source]
  cases p with
  | false => rfl
  | true => rw [(h.planes rfl).1, (h.planes rfl).2]

theorem SameOperands.imageChecks_eq (h : SameOperands d p s u) (ow oh : Nat) :
    imageChecks u d p ow oh = imageChecks s d p ow oh := by
  have hdst : (d && decide (dstStrideOf u ow < ow)) = (d && decide (dstStrideOf s ow < ow)) := by
    cases d with
    | false => rfl
    | true => rw [h.dstStrideOf_eq]
  have hplanes : (p && (decide (u.gxBase.toNat % 2 = 1) || decide (u.gyBase.toNat % 2 = 1))) =
      (p && (decide (s.gxBase.toNat % 2 = 1) || decide (s.gyBase.toNat % 2 = 1))) := by
    cases p with
    | false => rfl
    | true => rw [(h.planes rfl).1, (h.planes rfl).2]
  unfold imageChecks
  rw [h.source, h.writeFoot_eq, h.cfg, hdst, hplanes]

theorem SameOperands.imageError_sameResult (h : SameOperands d p s u) {ws : List Reg} (e : CmdError) (foot : List Rect) :
    SameResult ws (imageError e foot s) (imageError e foot u) := by
  unfold imageError
  split
  · refine raiseError_sameResult e true ?_
    rw [leaveResidue_mem, leaveResidue_mem, h.mem, h.cfg, h.freeCount]
  · exact raiseError_sameResult e true h.mem

/-- The shared frame of the image-producing commands takes the same operands to the same result. -/
theorem SameOperands.imageCommand_sameResult (h : SameOperands d p s u) (ow oh : Nat) (k : Bool)
    (body : Memory → Except CmdError Memory) :
    SameResult [.dstW, .dstH, .status] (imageCommand d p ow oh k body s) (imageCommand d p ow oh k body u) := by
  unfold imageCommand
  rw [h.source, h.imageChecks_eq, h.writeFoot_eq, h.mem]
  split
  · exact complete_sameResult true k h.mem (by simp [readReg])
  · split
    · exact h.imageError_sameResult _ _
    · split
      · exact h.imageError_sameResult _ _
      · exact complete_sameResult false k rfl (by simp [readReg])

end image

/-- The operands of an image-producing command are among the registers it reads (Table E3), memory and the configuration. -/
theorem sameOperands_of_reads {s u : State} {i : Instr} {d p : Bool} {ow oh : Nat}
    (hf : imageForm s i = some (d, p, ow, oh)) (hr : ∀ r ∈ readsOf i, readReg r u = readReg r s) (hmem : u.mem = s.mem)
    (hcfg : u.cfg = s.cfg) (hfree : u.freeCount = s.freeCount) : SameOperands d p s u := by
  have hsrc : sourceRegs ⊆ readsOf i := by cases i <;> simp_all [imageForm, readsOf]
  have hdst : d = true → .dstBase ∈ readsOf i ∧ .dstStride ∈ readsOf i := by cases i <;> simp_all [imageForm, readsOf]
  have hpl : p = true → .gxBase ∈ readsOf i ∧ .gyBase ∈ readsOf i := by cases i <;> simp_all [imageForm, readsOf]
  exact ⟨sourceOf_congr fun r h => hr r (hsrc h), fun h => ⟨hr _ (hdst h).1, half_eq_of_setWidth (hr _ (hdst h).2)⟩,
    fun h => ⟨hr _ (hpl h).1, hr _ (hpl h).2⟩, hmem, hcfg, hfree⟩

/-- R136: GRADIENT takes the same source image, centre, memory and configuration to the same outcome. -/
theorem execGradient_sameOutcome {s u : State} (v : Variant) (c : Conv) (hsrc : sourceOf u = sourceOf s) (hx : u.opX = s.opX)
    (hy : u.opY = s.opY) (hmem : u.mem = s.mem) (hcfg : u.cfg = s.cfg) :
    SameOutcome [.resGx, .resGy, .status] (execGradient v c s) (execGradient v c u) := by
  unfold execGradient
  dsimp only
  rw [hsrc, hx, hy, hcfg, hmem]
  split
  · exact .next (raiseError_sameResult _ _ hmem)
  · split
    · exact .next (raiseError_sameResult _ _ hmem)
    · split
      · split
        · exact .next (raiseError_sameResult _ _ hmem)
        · exact .next (complete_sameResult _ _ rfl (by simp [readReg]))
      · split
        · exact .fault _
        · exact .next (raiseError_sameResult _ _ hmem)

/-- R100, R43: every command takes the same operands to the same outcome. -/
theorem exec_sameOutcome {s u : State} {i : Instr} (hr : ∀ r ∈ readsOf i, readReg r u = readReg r s) (hmem : u.mem = s.mem)
    (hcfg : u.cfg = s.cfg) (hfree : u.freeCount = s.freeCount) : SameOutcome (writesOf i) (exec i s) (exec i u) := by
  cases i with
  | nop => exact .next (complete_sameResult _ _ hmem (by simp [writesOf]))
  | gradient v c =>
    have hsrc := sourceOf_congr fun r h => hr r (List.mem_append_left _ h)
    have hx := half_eq_of_setWidth (hr .opX (by simp [readsOf]))
    have hy := half_eq_of_setWidth (hr .opY (by simp [readsOf]))
    exact execGradient_sameOutcome v c hsrc hx hy hmem hcfg
  | magnitude m =>
    have hgx : u.opGx = s.opGx := hr .opGx (by simp [readsOf])
    have hgy : u.opGy = s.opGy := hr .opGy (by simp [readsOf])
    exact .next (complete_sameResult _ _ hmem (by simp [writesOf, readReg, hgx, hgy, hcfg]))
  | isqrtNewton | isqrtBisect =>
    have hn : u.opN = s.opN := hr .opN (by simp [readsOf])
    exact .next (complete_sameResult _ _ hmem (by simp [writesOf, readReg, hn]))
  | klookup v => exact .next (complete_sameResult _ _ hmem (by simp [writesOf, readReg, hcfg]))
  | filter v c m =>
    have h := sameOperands_of_reads rfl hr hmem hcfg hfree
    simp only [exec, execFilter, trimmedCommand, h.source, h.cfg, h.dstStrideOf_eq, (h.dst rfl).1]
    exact .next (h.imageCommand_sameResult _ _ _ _)
  | filterMath =>
    have h := sameOperands_of_reads rfl hr hmem hcfg hfree
    simp only [exec, execFilterMath, trimmedCommand, h.source, h.cfg, h.dstStrideOf_eq, (h.dst rfl).1]
    exact .next (h.imageCommand_sameResult _ _ _ _)
  | gradPlanes =>
    have h := sameOperands_of_reads rfl hr hmem hcfg hfree
    simp only [exec, execGradPlanes, h.source, h.cfg, (h.planes rfl).1, (h.planes rfl).2]
    exact .next (h.imageCommand_sameResult _ _ _ _)
  | filterSimd =>
    have h := sameOperands_of_reads rfl hr hmem hcfg hfree
    simp only [exec, execFilterSimd, h.source, h.cfg, h.dstStrideOf_eq, (h.dst rfl).1, (h.planes rfl).1, (h.planes rfl).2]
    exact .next (h.imageCommand_sameResult _ _ _ _)

/-- Settles O52: a command sees of the state only the registers of its row, memory and the configuration, and what its ends take
from STATUS is no part of STATUS[7:0]. -/
theorem outcomeDependsOnOperandsOnly : Obligations.OutcomeDependsOnOperandsOnly := by
  intro s u i hr hmem hcfg hfree
  have h := exec_sameOutcome hr hmem hcfg hfree
  revert h
  generalize exec i s = o, exec i u = q
  rintro (h | f)
  · exact h
  · rfl

end Sys2Proof.Machine
end

section
/-! The kernel bank (spec/40_control_and_kernel_bank.md): NOP, KLOOKUP and the nil pair. -/

namespace Sys2Proof.Machine

/-! ### NOP and KLOOKUP -/

/-- R121: the only legal word with OPC = 0 is that of NOP. -/
theorem eq_zero_of_decode_opc_zero {c : Word} {i : Instr} (h : decode c = .ok i) (hopc : fieldOpc c = 0) : c = 0 := by
  obtain ⟨-, rfl⟩ := encode_decode h
  cases i with
  | nop => rfl
  | _ => simp [encode] at hopc

/-- R124: KLOOKUP as a record update. -/
theorem exec_klookup (v : Variant) (s : State) : exec (.klookup v) s = .next { s with
    kx := readout (kernelPairFor s.cfg v).kx
    ky := readout (kernelPairFor s.cfg v).ky
    status := doneWord false (resolvesToNil v) s.status } :=
  congrArg Host.Outcome.next (complete_eq _ _ _)

/-- R125: an unrecognised variant reads out eighteen zeros. -/
theorem exec_klookup_unrecognised (code : BitVec 3) (s : State) : exec (.klookup (.unrecognised code)) s =
    .next { s with kx := zeroTaps, ky := zeroTaps, status := doneWord false true s.status } :=
  exec_klookup _ s

theorem readout_sobelPair : readout sobelPair.kx = ⟨0xFFFFFFFF, 0, 1, 0xFFFFFFFE, 0, 2, 0xFFFFFFFF, 0, 1⟩ ∧
    readout sobelPair.ky = ⟨0xFFFFFFFF, 0xFFFFFFFE, 0xFFFFFFFF, 0, 0, 0, 1, 2, 1⟩ := by decide

theorem readout_scharrPair : readout scharrPair.kx = ⟨0xFFFFFFFD, 0, 3, 0xFFFFFFF6, 0, 10, 0xFFFFFFFD, 0, 3⟩ ∧
    readout scharrPair.ky = ⟨0xFFFFFFFD, 0xFFFFFFF6, 0xFFFFFFFD, 0, 0, 0, 3, 10, 3⟩ := by decide

/-! ### GRADIENT and FILTER that end with Done -/

/-- R136: what a GRADIENT whose checks pass answers. -/
theorem exec_gradient_ok {s : State} (v : Variant) (c : Conv) (hcfg : ¬ GradientConfigBad s)
    (hin : Interior s s.opX.toNat s.opY.toNat) (hnine : NineExist s s.opX.toNat s.opY.toNat) :
    exec (.gradient v c) s = .next { s with
      resGx := BitVec.ofNat 32 (gradX s v s.opX.toNat s.opY.toNat)
      resGy := BitVec.ofNat 32 (gradY s v s.opX.toNat s.opY.toNat)
      status := doneWord false (resolvesToNil v) s.status } := by
  rcases exec_gradient s v c with ⟨hbad, -⟩ | ⟨-, hout, -⟩ | ⟨-, hout, -⟩ | ⟨-, -, habs, -⟩ | ⟨-, -, -, h⟩
  · exact absurd hbad hcfg
  · exact absurd hin hout
  · exact absurd hin hout
  · exact absurd hnine habs
  · rw [h, complete_eq]

/-- R141: what a FILTER whose checks pass answers: its image, every sample the 8-bit intensity at its centre. -/
theorem exec_filter_ok {s : State} (v : Variant) (c : Conv) (m : Mag) (hw : 3 ≤ (sourceOf s).w) (hh : 3 ≤ (sourceOf s).h)
    (hp : ChecksPass s true false ((sourceOf s).w - 2) ((sourceOf s).h - 2)) :
    ∃ M, exec (.filter v c m) s = .next { s with
        mem := M
        dstW := BitVec.ofNat 16 ((sourceOf s).w - 2)
        dstH := BitVec.ofNat 16 ((sourceOf s).h - 2)
        status := doneWord false (resolvesToNil v) s.status } ∧
      (∀ x y, x < (sourceOf s).w - 2 → y < (sourceOf s).h - 2 →
        M.read (dstAddr s.dstBase.toNat (dstStrideOf s ((sourceOf s).w - 2)) x y) =
          BitVec.ofNat 8 (sampleAt s v (x + 1) (y + 1))) ∧
      ∀ a, ¬ InRect (dstRect s ((sourceOf s).w - 2) ((sourceOf s).h - 2)) a → M.read a = s.mem.read a := by
  obtain ⟨M, hM, hsample, hframe⟩ := trimmedLoop_ok rfl rfl hp
    (fun t x y hk hi => filterPixel_ok hp.source hk hi v (effectiveConv v c) m)
  refine ⟨M, ?_, hsample, hframe⟩
  have hu : undersized (sourceOf s) = false := undersized_eq_false.mpr ⟨hw, hh⟩
  simp only [exec, execFilter, trimmedCommand, imageCommand, hu, Bool.false_eq_true, if_false, imageChecks_ok hp, hM,
    complete_eq]
  rfl

/-! ### The nil pair (R125) -/

theorem weightedSum_nilPair (p : Nat → Nat → Nat) : weightedSum nilPair.kx p = 0 ∧ weightedSum nilPair.ky p = 0 := by
  simp [weightedSum, nilPair]

/-- R125: the nil pair's gradient is (0, 0) at every pixel. -/
theorem gradient_unrecognised (s : State) (code : BitVec 3) (x y : Nat) :
    gradX s (.unrecognised code) x y = 0 ∧ gradY s (.unrecognised code) x y = 0 := by
  obtain ⟨hx, hy⟩ := weightedSum_nilPair (window s x y)
  exact ⟨congrArg Int.natAbs hx, congrArg Int.natAbs hy⟩

/-- The intensity of the nil pair is the magnitude of (0, 0) under every strategy. -/
theorem sampleAt_unrecognised (s : State) (code : BitVec 3) (m : Mag) (x y : Nat) :
    sampleAt s (.unrecognised code) x y = magnitude s.cfg.roundPolicy m 0 0 := by
  obtain ⟨hx, hy⟩ := gradient_unrecognised s code x y
  rw [sampleAt, hx, hy, magnitude_eq _ _ (by decide) (by decide)]

/-- R125, R162: 0 is its own exact ceiling root. -/
theorem magnitude_ceil_zero (m : Mag) : magnitude .ceil m 0 0 = 0 := by
  rw [magnitude_eq _ _ (by decide) (by decide)]
  simp [magOf, roundUp, clamp255]

/-! ### The obligations -/

/-- Settles O20: `Done(0, 0)` is the only update, and a legal word with OPC = 0 is the word of NOP. -/
theorem nopCommand : Obligations.NopCommand := by
  refine ⟨rfl, fun c hopc hne => ?_, fun s => ?_⟩
  · cases hd : decode c with
    | error r => exact ⟨r, rfl⟩
    | ok i => exact absurd (eq_zero_of_decode_opc_zero hd hopc) hne
  · have hdone : exec .nop s = .next { s with status := doneWord false false s.status } :=
      congrArg Host.Outcome.next (complete_eq _ _ _)
    simpa [doneWord] using hdone

/-- Settles O21: the readout registers are read from the pair tap by tap. -/
theorem klookupCommand : Obligations.KlookupCommand := by
  refine ⟨fun v => ?_, fun s v => ⟨_, _, exec_klookup v s, fun k _ => ⟨tapAt_readout _ k, tapAt_readout _ k⟩⟩,
    fun s => rfl, fun s code => exec_klookup_unrecognised code s⟩
  obtain ⟨-, -, -, hword⟩ := variantWords (variantCode v)
  exact hword

/-- Settles O22: the two pairs of the ROM, sign-extended, are the words of V15 and V17. -/
theorem sobelAndScharrWeights : Obligations.SobelAndScharrWeights := by
  intro s
  simp only [exec_klookup, kernelPairFor, readout_sobelPair, readout_scharrPair, resolvesToNil, and_self]

/-- Settles O23: both components of the nil pair's gradient are sums of zeros, in GRADIENT and at every sample of FILTER. -/
theorem nilPairGivesZeroGradient : Obligations.NilPairGivesZeroGradient := by
  refine ⟨fun s code k hcfg hin hnine => ?_, fun s code k m hw hh hp => ?_, fun s code => exec_klookup_unrecognised code s,
    magnitude_ceil_zero⟩
  · obtain ⟨hx, hy⟩ := gradient_unrecognised s code s.opX.toNat s.opY.toNat
    rw [exec_gradient_ok _ k hcfg hin hnine, hx, hy]
    rfl
  · obtain ⟨M, hex, hsample, -⟩ := exec_filter_ok (.unrecognised code) k m hw hh hp
    obtain ⟨hbw, hbh⟩ := imageForm_bound (s := s) (i := .filter (.unrecognised code) k m) rfl
    refine ⟨_, hex, rfl, Nat.mod_eq_of_lt hbw, Nat.mod_eq_of_lt hbh, fun x y hx hy => ?_⟩
    rw [hsample x y hx hy, sampleAt_unrecognised s code m]

/-- Settles O24: a pair depends on the configuration alone, which no step and no command changes; the first KLOOKUP after
reset runs as any other. -/
theorem kernelBankIsConstant : Obligations.KernelBankIsConstant := by
  refine ⟨fun s t v h => ?_, fun s t i v h => ?_, ?_⟩
  · obtain ⟨-, hcfg⟩ := step_frame h
    rw [hcfg]
  · obtain ⟨-, hcfg, -⟩ := exec_frame h
    rw [hcfg]
  · have hd : decode 0x09 = .ok (.klookup .sobel) := by decide
    exact ⟨_, (step_cons (pushCommand_host 0x09 State.reset)).trans ((hostAct_cmd_ok hd _).trans (exec_klookup .sobel _)),
      rfl, rfl⟩

end Sys2Proof.Machine
end


section
/-! The command GRADIENT (spec/41_convolution.md R134 to R137): its outcomes in the order of its tests, the one case that stops,
the two indexing strategies, and the bounds of the components. -/

namespace Sys2Proof.Machine

/-! ### The outcomes -/

section outcome
variable {s : State} (v : Variant) (c : Conv)

/-- R136: a bad stride or hull comes first. -/
theorem exec_gradient_config (h : GradientConfigBad s) :
    exec (.gradient v c) s = .next { s with status := failWord 2 s.status } := by
  rcases exec_gradient s v c with ⟨-, he⟩ | ⟨hok, -⟩ | ⟨hok, -⟩ | ⟨hok, -⟩ | ⟨hok, -⟩
  · exact he.trans (congrArg _ (raiseError_plain_eq .config s))
  all_goals exact absurd h hok

/-- R136: on the CHECKED path a centre that is not interior comes next. -/
theorem exec_gradient_range (hcfg : ¬ GradientConfigBad s) (hout : ¬ Interior s s.opX.toNat s.opY.toNat)
    (hchk : ¬ (c = .fast ∨ v = .sobelFast)) :
    exec (.gradient v c) s = .next { s with status := failWord 5 s.status } := by
  rcases exec_gradient s v c with ⟨hbad, -⟩ | ⟨-, -, -, he⟩ | ⟨-, -, hfast, -⟩ | ⟨-, hin, -⟩ | ⟨-, hin, -⟩
  · exact absurd hbad hcfg
  · exact he.trans (congrArg _ (raiseError_plain_eq .range s))
  · exact absurd (effectiveConv_eq_fast.mp hfast) hchk
  all_goals exact absurd hin hout

/-- R136, R216: an absent byte among the nine comes last. -/
theorem exec_gradient_bus (hcfg : ¬ GradientConfigBad s) (hin : Interior s s.opX.toNat s.opY.toNat)
    (habs : ¬ NineExist s s.opX.toNat s.opY.toNat) :
    exec (.gradient v c) s = .next { s with status := failWord 6 s.status } := by
  rcases exec_gradient s v c with ⟨hbad, -⟩ | ⟨-, hout, -⟩ | ⟨-, hout, -⟩ | ⟨-, -, -, he⟩ | ⟨-, -, hnine, -⟩
  · exact absurd hbad hcfg
  · exact absurd hin hout
  · exact absurd hin hout
  · exact he.trans (congrArg _ (raiseError_plain_eq .bus s))
  · exact absurd hnine habs

/-- R137: GRADIENT stops exactly on the FAST path with a centre that is not interior, after its ErrConfig tests. -/
theorem exec_gradient_fault_iff {f : Fault} : exec (.gradient v c) s = .fault f ↔
    f = .fastGradientOutOfRange ∧ (c = .fast ∨ v = .sobelFast) ∧ ¬ GradientConfigBad s ∧
      ¬ Interior s s.opX.toNat s.opY.toNat := by
  rcases exec_gradient s v c with ⟨hbad, he⟩ | ⟨-, -, hchk, he⟩ | ⟨hcfg, hout, hfast, he⟩ | ⟨-, hin, -, he⟩ | ⟨-, hin, -, he⟩ <;>
    rw [he]
  · simp [hbad]
  · simp [effectiveConv_eq_checked.mp hchk]
  · simp [hcfg, hout, effectiveConv_eq_fast.mp hfast, eq_comm]
  · simp [hin]
  · simp [hin]

/-- R134: a GRADIENT that ends with Done leaves the components at its centre. -/
theorem exec_gradient_done {t : State} (h : exec (.gradient v c) s = .next t) (hdone : statusDone t.status = true) :
    t.resGx = BitVec.ofNat 32 (gradX s v s.opX.toNat s.opY.toNat) ∧
      t.resGy = BitVec.ofNat 32 (gradY s v s.opX.toNat s.opY.toNat) := by
  rcases exec_gradient s v c with ⟨-, he⟩ | ⟨-, -, -, he⟩ | ⟨-, -, -, he⟩ | ⟨-, -, -, he⟩ | ⟨-, -, -, he⟩ <;>
    cases he.symm.trans h
  case inr.inr.inr.inr => exact ⟨rfl, rfl⟩
  all_goals simp at hdone

/-- R135: at an interior centre GRADIENT shows of its variant the kernel pair and KNIL only, and nothing of its strategy. -/
theorem exec_gradient_congr {w : Variant} (d : Conv) (hpair : kernelPairFor s.cfg v = kernelPairFor s.cfg w)
    (hnil : resolvesToNil v = resolvesToNil w) (hin : Interior s s.opX.toNat s.opY.toNat) :
    exec (.gradient v c) s = exec (.gradient w d) s := by
  have hint := (interior_eq _ _ _).mpr hin
  obtain ⟨hx, -, hy, -⟩ := hin
  simp only [exec, execGradient, if_pos hint, pixelTap_eq _ _ _ hx hy, hpair, hnil]

end outcome

/-- Only a GRADIENT stops (R210: every other command ends with Done or with an error). -/
theorem eq_gradient_of_fault {s : State} {i : Instr} {f : Fault} (h : exec i s = .fault f) : ∃ v c, i = .gradient v c := by
  cases i with
  | gradient v c => exact ⟨v, c, rfl⟩
  | _ => cases h

/-- The words of GRADIENT as the sum R136 writes. -/
theorem gradientWords : ∀ (var : BitVec 3) (conv : BitVec 1),
    packCommand 1 var conv 0 = 0x01#32 + 16#32 * var.setWidth 32 + 128#32 * conv.setWidth 32 := by decide

/-! ### Bounds and sums of the two presumed pairs (R123) -/

theorem weightedSum_sobel (p : Nat → Nat → Nat) :
    weightedSum sobelPair.kx p = (p 0 2 - p 0 0 : Int) + 2 * (p 1 2 - p 1 0) + (p 2 2 - p 2 0) ∧
    weightedSum sobelPair.ky p = (p 2 0 - p 0 0 : Int) + 2 * (p 2 1 - p 0 1) + (p 2 2 - p 0 2) := by
  constructor <;> (simp [weightedSum, sobelPair]; ring)

theorem weightedSum_scharr (p : Nat → Nat → Nat) :
    weightedSum scharrPair.kx p = 3 * (p 0 2 - p 0 0 : Int) + 10 * (p 1 2 - p 1 0) + 3 * (p 2 2 - p 2 0) ∧
    weightedSum scharrPair.ky p = 3 * (p 2 0 - p 0 0 : Int) + 10 * (p 2 1 - p 0 1) + 3 * (p 2 2 - p 0 2) := by
  constructor <;> (simp [weightedSum, scharrPair]; ring)

/-- R134: the Scharr sums of bytes are at most 4080. -/
theorem scharr_bound {p : Nat → Nat → Nat} (hp : ∀ i j, p i j ≤ 255) :
    (weightedSum scharrPair.kx p).natAbs ≤ 4080 ∧ (weightedSum scharrPair.ky p).natAbs ≤ 4080 := by
  obtain ⟨hx, hy⟩ := weightedSum_scharr p
  rw [hx, hy]
  have := hp 0 0; have := hp 0 1; have := hp 0 2; have := hp 1 0; have := hp 1 2; have := hp 2 0; have := hp 2 1; have := hp 2 2
  omega

theorem toNat_ofNat_le {g b : Nat} (h : g ≤ b) : (BitVec.ofNat 32 g).toNat ≤ b :=
  (BitVec.toNat_ofNat ..).trans_le ((Nat.mod_le ..).trans h)

/-! ### The obligations -/

/-- Settles O31: one clause an outcome, the tests of `exec_gradient` being in the order of R136. -/
theorem gradientCommand : Obligations.GradientCommand :=
  ⟨fun v k => gradientWords (variantCode v) (convCode k), fun _ v k =>
    ⟨exec_gradient_config v k, exec_gradient_range v k, exec_gradient_bus v k, exec_gradient_ok v k⟩⟩

/-- Settles O32: no other command stops, and GRADIENT on the FAST path outside the interior does. -/
theorem fastGradientOutsideStops : Obligations.FastGradientOutsideStops := by
  intro s i f
  constructor
  · intro h
    obtain ⟨v, k, rfl⟩ := eq_gradient_of_fault h
    obtain ⟨hf, hwhy⟩ := (exec_gradient_fault_iff v k).mp h
    exact ⟨hf, v, k, rfl, hwhy⟩
  · rintro ⟨hf, v, k, rfl, hwhy⟩
    exact (exec_gradient_fault_iff v k).mpr ⟨hf, hwhy⟩

/-- Settles O33: the components are weighted sums of nine bytes, bounded pair by pair. -/
theorem gradientWidths : Obligations.GradientWidths := by
  intro s t v k h hdone
  obtain ⟨hx, hy⟩ := exec_gradient_done v k h hdone
  rw [hx, hy]
  refine ⟨toNat_ofNat_le (gradX_le ..), toNat_ofNat_le (gradY_le ..), fun hsobel => ?_, ?_⟩
  · have ⟨hbx, hby⟩ := sobel_bound (window_le s s.opX.toNat s.opY.toNat)
    rcases hsobel with rfl | rfl <;> exact ⟨toNat_ofNat_le hbx, toNat_ofNat_le hby⟩
  · rintro rfl
    have ⟨hbx, hby⟩ := scharr_bound (window_le s s.opX.toNat s.opY.toNat)
    exact ⟨toNat_ofNat_le hbx, toNat_ofNat_le hby⟩

/-- Settles O34: at an interior centre both accessors read the same nine bytes; Sobel and SobelFast have one pair. -/
theorem indexingStrategiesAgree : Obligations.IndexingStrategiesAgree :=
  ⟨fun _ v => exec_gradient_congr v .checked .fast rfl rfl, fun _ j k => exec_gradient_congr .sobel j k rfl rfl,
    fun _ v hv hcfg hout => exec_gradient_range v .checked hcfg hout (by simp [hv])⟩

end Sys2Proof.Machine
end

section
/-! The image-producing commands: the checks in their order and the empty output (spec/41_convolution.md R138, R139), FILTER and
FILTER_MATH (R140 to R142), that neither shows its indexing strategy (R144) and FILTER_MATH not its binary64 sums, and the two
images whose results are known (R143, R146). -/

namespace Sys2Proof.Machine

/-! ### The checks, one outcome each (R139) -/

section checks
variable {s : State} {d p : Bool} {ow oh : Nat}

theorem imageChecks_config (h : ConfigBad s d p ow oh) : imageChecks s d p ow oh = .error .config := by
  rcases imageChecks_cases s d p ow oh with ⟨-, he⟩ | ⟨hok, -⟩ | ⟨hok, -⟩ | ⟨hok, -⟩ | ⟨⟨hok, -⟩, -⟩
  · exact he
  all_goals exact absurd h hok

theorem imageChecks_align (hc : ¬ ConfigBad s d p ow oh) (h : AlignBad s p) : imageChecks s d p ow oh = .error .align := by
  rcases imageChecks_cases s d p ow oh with ⟨hbad, -⟩ | ⟨-, -, he⟩ | ⟨-, hok, -⟩ | ⟨-, hok, -⟩ | ⟨⟨-, hok, -⟩, -⟩
  · exact absurd hbad hc
  · exact he
  all_goals exact absurd h hok

theorem imageChecks_overlap (hc : ¬ ConfigBad s d p ow oh) (ha : ¬ AlignBad s p) (h : OverlapBad s d p ow oh) :
    imageChecks s d p ow oh = .error .overlap := by
  rcases imageChecks_cases s d p ow oh with ⟨hbad, -⟩ | ⟨-, hbad, -⟩ | ⟨-, -, -, he⟩ | ⟨-, -, hok, -⟩ | ⟨⟨-, -, hok, -⟩, -⟩
  · exact absurd hbad hc
  · exact absurd hbad ha
  · exact he
  all_goals exact absurd h hok

theorem imageChecks_bus (hc : ¬ ConfigBad s d p ow oh) (ha : ¬ AlignBad s p) (ho : ¬ OverlapBad s d p ow oh)
    (h : BusBad s d p ow oh) : imageChecks s d p ow oh = .error .bus := by
  rcases imageChecks_cases s d p ow oh with ⟨hbad, -⟩ | ⟨-, hbad, -⟩ | ⟨-, -, hbad, -⟩ | ⟨-, -, -, -, he⟩ | ⟨⟨-, -, -, hok⟩, -⟩
  · exact absurd hbad hc
  · exact absurd hbad ha
  · exact absurd hbad ho
  · exact he
  · exact absurd h hok

/-! ### The ends of a command -/

variable {i : Instr} (hf : imageForm s i = some (d, p, ow, oh))
include hf

/-- R138: the empty output comes before any check. -/
theorem exec_image_undersized (h : (sourceOf s).w < 3 ∨ (sourceOf s).h < 3) :
    exec i s = .next { s with dstW := 0, dstH := 0, status := doneWord true (nilForm i) s.status } := by
  obtain ⟨body, he, -⟩ := exec_image hf
  rw [he, imageCommand, if_pos (undersized_iff.mpr h), complete_eq]
  rfl

/-- R139, R220: an error of the checks ends the command. -/
theorem exec_image_checks_error (hw : 3 ≤ (sourceOf s).w) (hh : 3 ≤ (sourceOf s).h) {e : CmdError}
    (hc : imageChecks s d p ow oh = .error e) : exec i s = .next (imageError e (writeFoot s d p ow oh) s) := by
  obtain ⟨body, he, -⟩ := exec_image hf
  rw [he]
  simp only [imageCommand, undersized_eq_false.mpr ⟨hw, hh⟩, hc, Bool.false_eq_true, if_false]

/-- R139: a command that passes its checks ends with Done and publishes its dimensions. -/
theorem exec_image_ok (hw : 3 ≤ (sourceOf s).w) (hh : 3 ≤ (sourceOf s).h) (hp : ChecksPass s d p ow oh) :
    ∃ m, exec i s = .next { s with
      mem := m, dstW := BitVec.ofNat 16 ow, dstH := BitVec.ofNat 16 oh, status := doneWord false (nilForm i) s.status } := by
  obtain ⟨body, he, -, -, hbody⟩ := exec_image hf
  obtain ⟨m, hm, -⟩ := hbody hw hh hp
  refine ⟨m, ?_⟩
  rw [he]
  simp only [imageCommand, undersized_eq_false.mpr ⟨hw, hh⟩, imageChecks_ok hp, hm, Bool.false_eq_true, if_false, complete_eq]
  rfl

/-- R26, R138, R139: Done on a source of full size tells that the checks passed. -/
theorem checksPass_of_done {t : State} (hw : 3 ≤ (sourceOf s).w) (hh : 3 ≤ (sourceOf s).h) (h : exec i s = .next t)
    (hdone : statusDone t.status = true) : ChecksPass s d p ow oh := by
  rcases exec_image_cases hf h with ⟨hu, -⟩ | ⟨-, e, -, -, -, -, rfl⟩ | ⟨-, -, rfl⟩ | ⟨-, hp, -⟩
  · have := undersized_iff.mp hu
    omega
  · rw [(failWord_fields e _).1] at hdone
    cases hdone
  · rw [show (6 : Nat) = (errorCode .bus).toNat from rfl, (failWord_fields .bus _).1] at hdone
    cases hdone
  · exact hp

end checks

/-! ### The driving loop shows of a pixel function its values at the interior pixels only (R140) -/

/-- A byte written into the destination rectangle is none of the source image's (R214). -/
theorem sourceKept_memWrite {s : State} {t t' : Memory} {ow oh x y v : Nat} (ho : ¬ OverlapBad s true false ow oh)
    (hx : x < ow) (hy : y < oh) (hk : SourceKept s t)
    (hw : memWrite s.cfg t (dstAddr s.dstBase.toNat (dstStrideOf s ow) x y) .byte v = .ok t') : SourceKept s t' := by
  obtain ⟨hother, -⟩ := memWrite_spec hw
  intro a ha
  have hne : a ≠ dstAddr s.dstBase.toNat (dstStrideOf s ow) x y := by
    rintro rfl
    exact source_apart ho ha (dstRect s ow oh) (by simp [writeFoot]) ⟨x, y, hx, hy, rfl⟩
  rw [hother a hne (by simp), hk a ha]

/-- `loopXY_congr` for iterations that agree only on states of an invariant that the scan keeps. -/
theorem loopXY_congr_inv {σ : Type} {P : σ → Prop} {w h : Nat} {f g : Nat → Nat → σ → Except CmdError σ} {s : σ} (h0 : P s)
    (hfg : ∀ x y t, x < w → y < h → P t → f x y t = g x y t)
    (hkeep : ∀ x y t t', x < w → y < h → P t → f x y t = .ok t' → P t') : loopXY w h f s = loopXY w h g s := by
  refine loopBelow_congr_inv h0 (fun y t hy ht => ?_) fun y t t' hy ht hrow => ?_
  · exact loopBelow_congr_inv ht (fun x u hx hu => hfg x y u hx hy hu) fun x u u' hx hu hf => hkeep x y u u' hx hy hu hf
  · exact loopBelow_inv (P := fun _ => P) ht (fun x u u' hx hu hf => hkeep x y u u' hx hy hu hf) hrow

theorem trimmedLoop_congr {s : State} {f g : Memory → Nat → Nat → Except CmdError Nat}
    (ho : ¬ OverlapBad s true false ((sourceOf s).w - 2) ((sourceOf s).h - 2))
    (hfg : ∀ t x y, SourceKept s t → interior (sourceOf s) x y = true → f t x y = g t x y) :
    trimmedLoop s.cfg (sourceOf s) s.dstBase.toNat (dstStrideOf s ((sourceOf s).w - 2)) f s.mem =
      trimmedLoop s.cfg (sourceOf s) s.dstBase.toNat (dstStrideOf s ((sourceOf s).w - 2)) g s.mem := by
  refine loopXY_congr_inv (P := SourceKept s) (fun a _ => rfl) (fun x y t hx hy hk => ?_) fun x y t t' hx hy hk hf => ?_
  · rw [hfg t (x + 1) (y + 1) hk (interior_iff.mpr (by omega))]
  · split at hf
    · cases hf
    · exact sourceKept_memWrite ho hx hy hk hf

/-- R138, R139: the loop of a command runs only after its checks. -/
theorem imageCommand_congr {d p : Bool} {ow oh : Nat} (k : Bool) {f g : Memory → Except CmdError Memory} {s : State}
    (h : ChecksPass s d p ow oh → f s.mem = g s.mem) : imageCommand d p ow oh k f s = imageCommand d p ow oh k g s := by
  unfold imageCommand
  cases hc : imageChecks s d p ow oh with
  | error e => rfl
  | ok u => rw [h (checksPass_of_ok hc)]

/-- R141, R142: two filter commands whose pixel functions agree at the interior pixels of the source image have one outcome. -/
theorem trimmedCommand_congr {s : State} (k : Bool) {f g : Memory → Nat → Nat → Except CmdError Nat}
    (hfg : ∀ t x y, RectExists s.cfg (srcRect (sourceOf s)) → SourceKept s t → interior (sourceOf s) x y = true →
      f t x y = g t x y) : trimmedCommand k f s = trimmedCommand k g s := by
  refine imageCommand_congr k fun hp => ?_
  obtain ⟨-, -, ho, -⟩ := id hp
  exact trimmedLoop_congr ho fun t x y hk hi => hfg t x y hp.source hk hi

/-- R144: FILTER shows nothing of its indexing strategy. -/
theorem exec_filter_eq_checked (s : State) (v : Variant) (k : Conv) (m : Mag) :
    exec (.filter v k m) s = .next (trimmedCommand (resolvesToNil v)
      (fun t x y => filterPixel s.cfg.roundPolicy m (checkedTap s.cfg t (sourceOf s) x y) (kernelPairFor s.cfg v)) s) := by
  refine congrArg Host.Outcome.next (trimmedCommand_congr _ fun t x y _ _ hi => ?_)
  obtain ⟨hx, -, hy, -⟩ := interior_bounds hi
  rw [pixelTap_eq _ _ _ hx hy]

/-- R142: binary64 loses nothing, so the pixels of FILTER_MATH are those of FILTER with the Sobel pair and any magnitude
strategy. -/
theorem exec_filterMath_eq_filter (s : State) (k : Conv) (m : Mag) : exec .filterMath s = exec (.filter .sobel k m) s := by
  rw [exec_filter_eq_checked]
  refine congrArg Host.Outcome.next (trimmedCommand_congr _ fun t x y hv hk hi => ?_)
  rw [floatPixel_ok hv hk hi]
  exact (filterPixel_ok hv hk hi .sobel .checked m).symm

/-! ### Samples -/

/-- R140, R163: every strategy gives the closed form of the intensity. -/
theorem magnitude_gradient (s : State) (v : Variant) (m : Mag) (x y : Nat) :
    magnitude s.cfg.roundPolicy m (gradX s v x y) (gradY s v x y) = sampleAt s v x y := by
  have hx := gradX_le s v x y
  have hy := gradY_le s v x y
  exact magnitude_eq _ _ (by omega) (by omega)

/-- R141: what a FILTER whose checks pass leaves, told by the interior pixels of its source. -/
theorem exec_filter_samples {s : State} (v : Variant) (k : Conv) (m : Mag) (hw : 3 ≤ (sourceOf s).w) (hh : 3 ≤ (sourceOf s).h)
    (hp : ChecksPass s true false ((sourceOf s).w - 2) ((sourceOf s).h - 2)) :
    ∃ M, exec (.filter v k m) s = .next { s with
        mem := M
        dstW := BitVec.ofNat 16 ((sourceOf s).w - 2)
        dstH := BitVec.ofNat 16 ((sourceOf s).h - 2)
        status := doneWord false (resolvesToNil v) s.status } ∧
      (∀ x y, Interior s x y →
        M.read (dstAddr s.dstBase.toNat (dstStrideOf s ((sourceOf s).w - 2)) (x - 1) (y - 1)) =
          BitVec.ofNat 8 (sampleAt s v x y)) ∧
      ∀ a, ¬ InRect (dstRect s ((sourceOf s).w - 2) ((sourceOf s).h - 2)) a → M.read a = s.mem.read a := by
  obtain ⟨M, hM, hsample, hframe⟩ := exec_filter_ok v k m hw hh hp
  refine ⟨M, hM, fun x y ⟨hx1, hxw, hy1, hyh⟩ => ?_, hframe⟩
  rw [hsample (x - 1) (y - 1) (by omega) (by omega), Nat.sub_add_cancel hx1, Nat.sub_add_cancel hy1]

/-! ### A constant image (R143) -/

theorem weightedSum_constant {k : Taps (BitVec 8)} {q : Nat → Nat → Nat} {c : Nat}
    (h : ∀ i j, i < 3 → j < 3 → q i j = c) : weightedSum k q = weightTotal k * c := by
  have hrow : ∀ i < 3, q i 0 = c ∧ q i 1 = c ∧ q i 2 = c := fun i hi =>
    ⟨h i 0 hi (by decide), h i 1 hi (by decide), h i 2 hi (by decide)⟩
  simp only [weightedSum, weightTotal, hrow 0 (by decide), hrow 1 (by decide), hrow 2 (by decide)]
  ring

/-- The nine pixels around an interior pixel belong to the image. -/
theorem window_constant {s : State} {c x y : Nat} (hc : ConstantImage s c) (hin : Interior s x y) {i j : Nat} (hi : i < 3)
    (hj : j < 3) : window s x y i j = c := by
  obtain ⟨hx1, hxw, hy1, hyh⟩ := hin
  exact hc _ _ (by omega) (by omega)

theorem gradient_constant {s : State} {c x y : Nat} (hc : ConstantImage s c) (hin : Interior s x y) (v : Variant) :
    gradX s v x y = (weightTotal (kernelPairFor s.cfg v).kx * c).natAbs ∧
      gradY s v x y = (weightTotal (kernelPairFor s.cfg v).ky * c).natAbs := by
  have hwin : ∀ i j, i < 3 → j < 3 → window s x y i j = c := fun i j hi hj => window_constant hc hin hi hj
  exact ⟨congrArg Int.natAbs (weightedSum_constant hwin), congrArg Int.natAbs (weightedSum_constant hwin)⟩

theorem weightTotal_rom : weightTotal sobelPair.kx = 0 ∧ weightTotal sobelPair.ky = 0 ∧ weightTotal scharrPair.kx = 0 ∧
    weightTotal scharrPair.ky = 0 ∧ weightTotal nilPair.kx = 0 ∧ weightTotal nilPair.ky = 0 := by decide

/-- R123, R125: the weights of every pair but the two open ones sum to 0. -/
theorem weightTotal_eq_zero (cfg : Cfg) {v : Variant} (hl : v ≠ .laplacian) (hs : v ≠ .sharpen) :
    weightTotal (kernelPairFor cfg v).kx = 0 ∧ weightTotal (kernelPairFor cfg v).ky = 0 := by
  obtain ⟨hsx, hsy, hcx, hcy, hnx, hny⟩ := weightTotal_rom
  cases v with
  | sobel | sobelFast => exact ⟨hsx, hsy⟩
  | scharr => exact ⟨hcx, hcy⟩
  | unrecognised code => exact ⟨hnx, hny⟩
  | laplacian => exact absurd rfl hl
  | sharpen => exact absurd rfl hs

/-- R162: the intensity of a zero gradient tells the rounding policy. -/
theorem magOf_zero (policy : RoundPolicy) : magOf policy 0 = if policy = .ceil then 0 else 1 := by
  cases policy <;> decide

/-- R143: the intensity on a constant image, where the weights sum to 0. -/
theorem sampleAt_constant {s : State} {c x y : Nat} (hc : ConstantImage s c) (hin : Interior s x y) {v : Variant}
    (hl : v ≠ .laplacian) (hs : v ≠ .sharpen) : sampleAt s v x y = if s.cfg.roundPolicy = .ceil then 0 else 1 := by
  obtain ⟨hx, hy⟩ := gradient_constant hc hin v
  obtain ⟨tx, ty⟩ := weightTotal_eq_zero s.cfg hl hs
  rw [sampleAt, hx, hy, tx, ty, zero_mul]
  exact magOf_zero _

/-- A command that is a FILTER of one of the closed pairs, or FILTER_MATH, runs as a FILTER of one of them. -/
theorem exists_filter_of_closed {i : Instr} (hi : i = .filterMath ∨ ∃ v k m, i = .filter v k m ∧ v ≠ .laplacian ∧ v ≠ .sharpen)
    (s : State) : ∃ v k m, exec i s = exec (.filter v k m) s ∧ v ≠ .laplacian ∧ v ≠ .sharpen := by
  rcases hi with rfl | ⟨v, k, m, rfl, hv⟩
  · exact ⟨.sobel, .checked, .float, exec_filterMath_eq_filter s _ _, by decide, by decide⟩
  · exact ⟨v, k, m, rfl, hv⟩

/-! ### The obligations -/

/-- Settles O35: each condition gives the outcome of the checks, and that the end of the command. -/
theorem imageChecksInOrder : Obligations.ImageChecksInOrder := by
  intro s i d p ow oh hf hw hh
  have hend : ∀ e, e ≠ .bus → imageChecks s d p ow oh = .error e →
      exec i s = .next { s with dstW := 0, dstH := 0, status := failWord (errorCode e).toNat s.status } := fun e hne hc =>
    (exec_image_checks_error hf hw hh hc).trans (congrArg _ (imageError_eq hne))
  refine ⟨fun hc => hend .config (by decide) (imageChecks_config hc),
    fun hc ha => hend .align (by decide) (imageChecks_align hc ha),
    fun hc ha ho => hend .overlap (by decide) (imageChecks_overlap hc ha ho), fun hc ha ho hb => ?_, exec_image_ok hf hw hh⟩
  exact ⟨_, _, (exec_image_checks_error hf hw hh (imageChecks_bus hc ha ho hb)).trans (congrArg _ imageError_bus_eq)⟩

/-- Settles O36: the empty output needs no check; a command that ends with Done passed its checks and published W−2 by H−2. -/
theorem undersizedGivesEmptyOutput : Obligations.UndersizedGivesEmptyOutput := by
  refine ⟨fun s i d p ow oh hf hsmall => exec_image_undersized hf hsmall, fun s t i hi hw hh h hdone => ?_⟩
  have hf : imageForm s i = some (true, false, (sourceOf s).w - 2, (sourceOf s).h - 2) := by
    rcases hi with rfl | ⟨v, k, m, rfl⟩ <;> rfl
  obtain ⟨hbw, hbh⟩ := imageForm_bound hf
  obtain ⟨M, he⟩ := exec_image_ok hf hw hh (checksPass_of_done hf hw hh h hdone)
  cases he.symm.trans h
  exact ⟨Nat.mod_eq_of_lt hbw, Nat.mod_eq_of_lt hbh⟩

/-- Settles O38: the driving loop stores the intensity of every interior pixel, and every strategy has that value. -/
theorem filterWritesEverySample : Obligations.FilterWritesEverySample := by
  intro s v k m hw hh hp
  simp only [magnitude_gradient]
  exact exec_filter_samples v k m hw hh hp

/-- Settles O39: FILTER_MATH is a FILTER with the Sobel pair. -/
theorem filterMathWritesEverySample : Obligations.FilterMathWritesEverySample := by
  intro s hw hh hp
  rw [exec_filterMath_eq_filter s .checked .float]
  exact exec_filter_samples .sobel .checked .float hw hh hp

/-- Settles O40: the binary64 sums and root of a pixel are exact. -/
theorem filterMathIsFilterFloat : Obligations.FilterMathIsFilterFloat := fun s => exec_filterMath_eq_filter s .checked .float

/-- Settles O41: every FILTER is the one that reads through the CHECKED accessor; Sobel and SobelFast have one pair. -/
theorem checkedEqualsFast : Obligations.CheckedEqualsFast := by
  refine ⟨fun s v m => ?_, fun s k m => ?_⟩
  · rw [exec_filter_eq_checked s v .checked, exec_filter_eq_checked s v .fast]
  · rw [exec_filter_eq_checked s .sobel, exec_filter_eq_checked s .sobelFast]
    rfl

/-- Settles O45: a weighted sum of equal pixels is the weights' sum times the pixel. -/
theorem uniformImageGivesZero : Obligations.UniformImageGivesZero := by
  refine ⟨fun s v c x y hc hin => ?_, fun s t i c x y hc hin hi h hdone => ?_⟩
  · obtain ⟨hx, hy⟩ := gradient_constant hc hin v
    simp only [hx, hy, Int.natAbs_eq_zero, mul_eq_zero, Int.natCast_eq_zero]
    tauto
  · obtain ⟨v, k, m, he, hl, hs⟩ := exists_filter_of_closed hi s
    rw [he] at h
    have ⟨hw, hh⟩ : 3 ≤ (sourceOf s).w ∧ 3 ≤ (sourceOf s).h := by
      obtain ⟨hx1, hxw, hy1, hyh⟩ := hin
      omega
    obtain ⟨M, hM, hsample, -⟩ := exec_filter_samples v k m hw hh (checksPass_of_done rfl hw hh h hdone)
    cases hM.symm.trans h
    rw [hsample x y hin, sampleAt_constant hc hin hl hs]
    split <;> rfl

/-- Settles O46: the rows 0, 0, 255 weigh in the lower row of the vertical kernel only. -/
theorem knownVector : Obligations.KnownVector := by
  intro s h
  obtain ⟨hx, hy⟩ := weightedSum_sobel (window s 1 1)
  have hrow : ∀ j < 3, window s 1 1 0 j = 0 ∧ window s 1 1 1 j = 0 ∧ window s 1 1 2 j = 255 := fun j hj => by
    simpa [window] using h j hj
  obtain ⟨a0, b0, c0⟩ := hrow 0 (by decide)
  obtain ⟨a1, b1, c1⟩ := hrow 1 (by decide)
  obtain ⟨a2, b2, c2⟩ := hrow 2 (by decide)
  have hgx : gradX s .sobel 1 1 = 0 := by
    rw [a0, a2, b0, b2, c0, c2] at hx
    exact congrArg Int.natAbs hx
  have hgy : gradY s .sobel 1 1 = 1020 := by
    rw [a0, a1, a2, c0, c1, c2] at hy
    exact congrArg Int.natAbs hy
  refine ⟨hgx, hgy, ?_⟩
  rw [sampleAt, hgx, hgy]
  exact magOf_large _ (by decide)

end Sys2Proof.Machine
end


section
/-! The magnitude estimator (spec/42_magnitude.md): the root commands, MAGNITUDE, the clamp, and the agreement of the three
strategies. -/

namespace Sys2Proof.Machine

/-! ### Rounding up and the clamp (R162, R164) -/

theorem roundUp_ceil (s r : Nat) : roundUp .ceil s r = if r * r = s then r else r + 1 := by simp [roundUp]

theorem roundUp_plusOne (s r : Nat) : roundUp .plusOne s r = r + 1 := by simp [roundUp]

/-- R162: rounding the floor root up is left adjoint to squaring. -/
theorem roundUp_ceil_sqrt_le_iff {s d : Nat} : roundUp .ceil s (Nat.sqrt s) ≤ d ↔ s ≤ d * d := by
  rw [roundUp_ceil]
  split_ifs with h
  · rw [← Nat.mul_self_le_mul_self_iff, h]
  · have hlt : Nat.sqrt s * Nat.sqrt s < s := lt_of_le_of_ne (Nat.sqrt_le s) h
    refine ⟨fun hd => ?_, fun hd => ?_⟩
    · exact (Nat.lt_succ_sqrt s).le.trans (Nat.mul_self_le_mul_self hd)
    · exact Nat.mul_self_lt_mul_self_iff.mp (hlt.trans_le hd)

theorem isCeilSqrt_roundUp (s : Nat) : IsCeilSqrt s (roundUp .ceil s (Nat.sqrt s)) :=
  ⟨roundUp_ceil_sqrt_le_iff.mp le_rfl, fun _ => roundUp_ceil_sqrt_le_iff.mpr⟩

theorem clamp255_eq_255_iff {c : Nat} : clamp255 c = 255 ↔ ¬ c ≤ 254 := by
  rw [clamp255]
  omega

theorem clamp255_of_le {c : Nat} (h : c ≤ 254) : clamp255 c = c := min_eq_left (by omega)

theorem magOf_ceil_eq_255_iff {s : Nat} : magOf .ceil s = 255 ↔ 64516 < s := by
  rw [magOf, clamp255_eq_255_iff, roundUp_ceil_sqrt_le_iff, not_le]

/-- R164: below the clamp MagOf is the ceiling root itself. -/
theorem magOf_ceil_of_le {s : Nat} (h : s ≤ 64516) : IsCeilSqrt s (magOf .ceil s) ∧ magOf .ceil s ≤ 254 := by
  have hle : roundUp .ceil s (Nat.sqrt s) ≤ 254 := roundUp_ceil_sqrt_le_iff.mpr h
  rw [magOf, clamp255_of_le hle]
  exact ⟨isCeilSqrt_roundUp s, hle⟩

theorem magOf_plusOne_eq_255_iff {s : Nat} : magOf .plusOne s = 255 ↔ 64516 ≤ s := by
  rw [magOf, roundUp_plusOne, clamp255_eq_255_iff, Nat.add_one_le_iff, Nat.sqrt_lt, not_lt]

/-- R177: the clamp hides the policy from 64517 on; below, PLUS_ONE adds 1 to an exact root and CEIL does not. -/
theorem magOf_ceil_ne_plusOne_iff (s : Nat) : magOf .ceil s ≠ magOf .plusOne s ↔ s < 64517 ∧ ∃ r, r * r = s := by
  rcases Nat.lt_or_ge s 64517 with h | h
  · have hr : Nat.sqrt s < 255 := Nat.sqrt_lt.mpr (by omega)
    rw [Nat.exists_mul_self, magOf, magOf, roundUp_ceil, roundUp_plusOne, clamp255, clamp255]
    split_ifs with hsq <;> omega
  · rw [magOf_large _ h, magOf_large _ h]
    omega

/-! ### The commands (R174 to R176) -/

theorem exec_isqrtNewton (s : State) : exec .isqrtNewton s =
    .next { s with resSqrt := BitVec.ofNat 32 (Nat.sqrt s.opN.toNat), status := doneWord false false s.status } := by
  rw [← newtonRoot_eq_sqrt s.opN.isLt]
  exact congrArg Host.Outcome.next (complete_eq _ _ _)

theorem exec_isqrtBisect (s : State) : exec .isqrtBisect s =
    .next { s with resSqrt := BitVec.ofNat 32 (Nat.sqrt s.opN.toNat), status := doneWord false false s.status } := by
  rw [← bisectRoot_eq_sqrt]
  exact congrArg Host.Outcome.next (complete_eq _ _ _)

theorem exec_magnitude (m : Mag) (s : State) : exec (.magnitude m) s =
    .next { s with
      resMag := BitVec.ofNat 8 (magOf s.cfg.roundPolicy (s.opGx.toNat * s.opGx.toNat + s.opGy.toNat * s.opGy.toNat))
      status := doneWord false false s.status } := by
  rw [← magnitude_eq _ m s.opGx.isLt s.opGy.isLt]
  exact congrArg Host.Outcome.next (complete_eq _ _ _)

/-- R173: FILTER shows nothing of its magnitude strategy, since at each interior pixel every one gives the closed form. -/
theorem exec_filter_mag (s : State) (v : Variant) (k : Conv) (m n : Mag) : exec (.filter v k m) s = exec (.filter v k n) s :=
  congrArg Host.Outcome.next (trimmedCommand_congr _ fun _ _ _ hv hk hi =>
    (filterPixel_ok hv hk hi v (effectiveConv v k) m).trans (filterPixel_ok hv hk hi v (effectiveConv v k) n).symm)

/-! ### The obligations -/

/-- Settles O25: the Newton loop ends at the floor root. -/
theorem isqrtNewtonCommand : Obligations.IsqrtNewtonCommand :=
  ⟨rfl, fun s => ⟨Nat.sqrt s.opN.toNat, Nat.sqrt_le _, Nat.lt_succ_sqrt _, exec_isqrtNewton s⟩⟩

/-- Settles O26: the bisection ends at the floor root. -/
theorem isqrtBisectCommand : Obligations.IsqrtBisectCommand :=
  ⟨rfl, fun s => ⟨Nat.sqrt s.opN.toNat, Nat.sqrt_le _, Nat.lt_succ_sqrt _, exec_isqrtBisect s⟩⟩

/-- Settles O27: the root before the clamp is the floor root rounded up by the policy. -/
theorem magnitudeCommand : Obligations.MagnitudeCommand := by
  refine ⟨fun m => magnitudeWords (magCode m), fun s m => ⟨roundUp s.cfg.roundPolicy _ _, exec_magnitude m s, ?_, ?_⟩⟩
  · intro hp
    rw [hp]
    exact isCeilSqrt_roundUp _
  · intro hp
    rw [hp]
    exact roundUp_plusOne _ _

/-- Settles O28: every strategy is the closed form, whose clamp binds where the rounded root passes 254. -/
theorem clampThreshold : Obligations.ClampThreshold := by
  refine ⟨fun v => rfl, fun m gx gy hx hy => ?_⟩
  simp only [magnitude_eq _ m hx hy]
  exact ⟨magOf_ceil_eq_255_iff, magOf_ceil_of_le, magOf_plusOne_eq_255_iff, fun h policy => magOf_large policy (by omega)⟩

/-- Settles O29: each strategy is the closed form, on the operands of MAGNITUDE and at each pixel of FILTER. -/
theorem strategiesAgree : Obligations.StrategiesAgree :=
  ⟨fun policy m _ _ hx hy => magnitude_eq policy m hx hy,
    fun s m n => (exec_magnitude m s).trans (exec_magnitude n s).symm,
    exec_filter_mag,
    fun s => (exec_isqrtNewton s).trans (exec_isqrtBisect s).symm⟩

/-- Settles O30: the strategies agree on the rows, and the bisection is run on each. -/
theorem referenceMagnitudes : Obligations.ReferenceMagnitudes := by
  refine ⟨fun m _ row hrow => ?_, magOf_ceil_ne_plusOne_iff⟩
  obtain ⟨hx, hy⟩ : row.1 < 2 ^ 32 ∧ row.2.1 < 2 ^ 32 := by
    revert row
    decide
  simp only [magnitude_eq _ m hx hy, ← magnitude_bisect_eq]
  clear hx hy
  revert row
  decide

end Sys2Proof.Machine
end

section
/-! The gradient planes and the vectorized path (spec/43_planes_and_simd.md): what GRAD_PLANES (R191, R192) and FILTER_SIMD (R193,
R195) leave in memory, and that inside the border FILTER_SIMD agrees with FILTER (R198). -/

namespace Sys2Proof.Machine

/-! ### The end of a command whose checks pass -/

section ok
variable {s : State}

/-- R138, R139: a source of full size and passed checks leave the loop of a command and the publication of its output. -/
theorem imageCommand_ok {d p : Bool} {ow oh : Nat} (k : Bool) {body : Memory → Except CmdError Memory} {m : Memory}
    (hw : 3 ≤ (sourceOf s).w) (hh : 3 ≤ (sourceOf s).h) (hp : ChecksPass s d p ow oh) (hm : body s.mem = .ok m) :
    imageCommand d p ow oh k body s = { s with
      mem := m, dstW := BitVec.ofNat 16 ow, dstH := BitVec.ofNat 16 oh, status := doneWord false k s.status } := by
  simp only [imageCommand, undersized_eq_false.mpr ⟨hw, hh⟩, imageChecks_ok hp, hm, Bool.false_eq_true, if_false, complete_eq]
  rfl

/-- R193: an output as large as the source is published by the source's own dimensions. -/
theorem ofNat_sourceOf (s : State) : BitVec.ofNat 16 (sourceOf s).w = s.srcW ∧ BitVec.ofNat 16 (sourceOf s).h = s.srcH :=
  ⟨(BitVec.ofNat_toNat 16 s.srcW).trans (BitVec.setWidth_eq _), (BitVec.ofNat_toNat 16 s.srcH).trans (BitVec.setWidth_eq _)⟩

/-! ### Plane samples -/

/-- R192, inside: the gradient. -/
theorem plane_interior {x y : Nat} (h : Interior s x y) : planeX s x y = gradX s .sobel x y ∧ planeY s x y = gradY s .sobel x y := by
  simp [planeX, planeY, (interior_eq s x y).mpr h]

/-- R192, at the border: the fill value. -/
theorem plane_border {x y : Nat} (h : ¬ Interior s x y) : planeX s x y = 0 ∧ planeY s x y = 0 := by
  simp [planeX, planeY, (interior_eq s x y).not.mpr h]

/-- R134, R192: a Sobel gradient fits a plane sample, so the min of R192 never binds. -/
theorem min_sobel (s : State) (x y : Nat) :
    min (gradX s .sobel x y) 65535 = gradX s .sobel x y ∧ min (gradY s .sobel x y) 65535 = gradY s .sobel x y := by
  obtain ⟨hx, hy⟩ : gradX s .sobel x y ≤ 1020 ∧ gradY s .sobel x y ≤ 1020 := sobel_bound (window_le s x y)
  exact ⟨Nat.min_eq_left (by omega), Nat.min_eq_left (by omega)⟩

/-- A 16-bit sample depends on the bytes of its plane only. -/
theorem readHalf_plane_congr {m m' : Memory} {base x y : Nat} {src : Source}
    (h : ∀ a, InRect (planeRect base src) a → m'.read a = m.read a) (hx : x < src.w) (hy : y < src.h) :
    readHalf m' (planeAddr base src x y) = readHalf m (planeAddr base src x y) := by
  have hbytes : ∀ c ∈ halfCells (planeAddr base src x y) 0, m'.read c.1 = m.read c.1 := fun c hc => h _ (inRect_halfCells hx hy hc)
  rw [readHalf, readHalf, hbytes _ (mem_halfCells.mpr (.inl rfl)), hbytes _ (mem_halfCells.mpr (.inr rfl))]

/-! ### The two commands -/

/-- R191: what a GRAD_PLANES whose checks pass answers. -/
theorem exec_gradPlanes_ok (hw : 3 ≤ (sourceOf s).w) (hh : 3 ≤ (sourceOf s).h)
    (hp : ChecksPass s false true (sourceOf s).w (sourceOf s).h) :
    ∃ M, exec .gradPlanes s = .next { s with
        mem := M, dstW := s.srcW, dstH := s.srcH, status := doneWord false false s.status } ∧
      (∀ x y, x < (sourceOf s).w → y < (sourceOf s).h →
        readHalf M (planeAddr s.gxBase.toNat (sourceOf s) x y) = planeX s x y ∧
        readHalf M (planeAddr s.gyBase.toNat (sourceOf s) x y) = planeY s x y) ∧
      ∀ a, ¬ InRect (planeRect s.gxBase.toNat (sourceOf s)) a → ¬ InRect (planeRect s.gyBase.toNat (sourceOf s)) a →
        M.read a = s.mem.read a := by
  obtain ⟨M, hM, hplanes, hframe⟩ := planesLoop_ok hp.planesReady
  refine ⟨M, ?_, hplanes, hframe⟩
  rw [exec, execGradPlanes, imageCommand_ok false hw hh hp hM, (ofNat_sourceOf s).1, (ofNat_sourceOf s).2]

/-- R193, R195: what a FILTER_SIMD whose checks pass answers. The reduction stores outside the planes (R214), so they keep what
stage 1 left there. -/
theorem exec_filterSimd_ok (hw : 3 ≤ (sourceOf s).w) (hh : 3 ≤ (sourceOf s).h)
    (hp : ChecksPass s true true (sourceOf s).w (sourceOf s).h) :
    ∃ M, exec .filterSimd s = .next { s with
        mem := M, dstW := s.srcW, dstH := s.srcH, status := doneWord false false s.status } ∧
      (∀ x y, x < (sourceOf s).w → y < (sourceOf s).h →
        M.read (dstAddr s.dstBase.toNat (dstStrideOf s (sourceOf s).w) x y) =
          BitVec.ofNat 8 (magnitude s.cfg.roundPolicy .float (planeX s x y) (planeY s x y)) ∧
        readHalf M (planeAddr s.gxBase.toNat (sourceOf s) x y) = planeX s x y ∧
        readHalf M (planeAddr s.gyBase.toNat (sourceOf s) x y) = planeY s x y) ∧
      ∀ a, ¬ InRect (planeRect s.gxBase.toNat (sourceOf s)) a → ¬ InRect (planeRect s.gyBase.toNat (sourceOf s)) a →
        ¬ InRect (dstRect s (sourceOf s).w (sourceOf s).h) a → M.read a = s.mem.read a := by
  obtain ⟨hstride, hexists, hapartX, hapartY⟩ := simd_ready hp
  obtain ⟨P, hP, hplanes, hframe⟩ := planesLoop_ok hp.planesReady
  obtain ⟨M, hM, hsample, hkept⟩ := reduceLoop_ok hp.planesReady hstride hexists hapartX hapartY hplanes
  refine ⟨M, ?_, fun x y hx hy => ⟨hsample x y hx hy, ?_, ?_⟩, fun a hax hay had => (hkept a had).trans (hframe a hax hay)⟩
  · rw [exec, execFilterSimd, imageCommand_ok (m := M) false hw hh hp (by simp only [hP, hM]), (ofNat_sourceOf s).1,
      (ofNat_sourceOf s).2]
  · rw [readHalf_plane_congr (fun a ha => hkept a (hapartX.not_both ha)) hx hy, (hplanes x y hx hy).1]
  · rw [readHalf_plane_congr (fun a ha => hkept a (hapartY.not_both ha)) hx hy, (hplanes x y hx hy).2]

end ok

/-! ### Two states with one source image -/

theorem weightedSum_congr (k : Taps (BitVec 8)) {p q : Nat → Nat → Nat} (h : ∀ i j, i < 3 → j < 3 → p i j = q i j) :
    weightedSum k p = weightedSum k q := by
  have hrow : ∀ i < 3, p i 0 = q i 0 ∧ p i 1 = q i 1 ∧ p i 2 = q i 2 := fun i hi =>
    ⟨h i 0 hi (by decide), h i 1 hi (by decide), h i 2 hi (by decide)⟩
  simp only [weightedSum, hrow 0 (by decide), hrow 1 (by decide), hrow 2 (by decide)]

section sameSource
variable {s u : State} (h : SameSource s u)
include h

theorem SameSource.sourcePixel_eq {x y : Nat} (hx : x < (sourceOf s).w) (hy : y < (sourceOf s).h) :
    sourcePixel u x y = sourcePixel s x y := by
  obtain ⟨hsrc, hmem⟩ := h
  rw [sourcePixel, sourcePixel, hsrc, hmem _ (inRect_src hx hy)]

variable {x y : Nat} (hin : Interior s x y)
include hin

/-- R11: an interior pixel of one is an interior pixel of the other. -/
theorem SameSource.interior : Interior u x y := by
  rw [Interior, h.1]
  exact hin

/-- R133: the gradient at an interior pixel depends on the source image and the kernel pair only. -/
theorem SameSource.gradient_eq {v : Variant} (hpair : kernelPairFor u.cfg v = kernelPairFor s.cfg v) :
    gradX u v x y = gradX s v x y ∧ gradY u v x y = gradY s v x y := by
  have hwindow : ∀ i j, i < 3 → j < 3 → window u x y i j = window s x y i j := fun i j hi hj => by
    obtain ⟨hx1, hxw, hy1, hyh⟩ := hin
    exact h.sourcePixel_eq (by omega) (by omega)
  rw [gradX, gradX, gradY, gradY, hpair, weightedSum_congr _ hwindow, weightedSum_congr _ hwindow]
  exact ⟨rfl, rfl⟩

/-- R140: so does the intensity, under one rounding policy. -/
theorem SameSource.sampleAt_eq {v : Variant} (hpair : kernelPairFor u.cfg v = kernelPairFor s.cfg v)
    (hpolicy : u.cfg.roundPolicy = s.cfg.roundPolicy) : sampleAt u v x y = sampleAt s v x y := by
  obtain ⟨hgx, hgy⟩ := h.gradient_eq hin hpair
  rw [sampleAt, sampleAt, hpolicy, hgx, hgy]

end sameSource

/-! ### Interior samples of the two outputs -/

theorem Interior.inside {s : State} {x y : Nat} (h : Interior s x y) : x < (sourceOf s).w ∧ y < (sourceOf s).h := by
  obtain ⟨hx1, hxw, hy1, hyh⟩ := h
  omega

theorem Interior.full_size {s : State} {x y : Nat} (h : Interior s x y) : 3 ≤ (sourceOf s).w ∧ 3 ≤ (sourceOf s).h := by
  obtain ⟨hx1, hxw, hy1, hyh⟩ := h
  omega

section samples
variable {s t : State} {x y : Nat} (hin : Interior s x y) (hdone : statusDone t.status = true)
include hin hdone

/-- R195: inside the border FILTER_SIMD stores the Sobel intensity at its own position. -/
theorem filterSimd_sample (h : exec .filterSimd s = .next t) :
    t.mem.read (dstAddr s.dstBase.toNat (dstStrideOf s (sourceOf s).w) x y) = BitVec.ofNat 8 (sampleAt s .sobel x y) := by
  obtain ⟨hw, hh⟩ := hin.full_size
  obtain ⟨M, hM, hsample, -⟩ := exec_filterSimd_ok hw hh (checksPass_of_done rfl hw hh h hdone)
  obtain ⟨hx, hy⟩ := hin.inside
  obtain ⟨hpx, hpy⟩ := plane_interior hin
  cases hM.symm.trans h
  rw [(hsample x y hx hy).1, hpx, hpy, magnitude_gradient]

/-- R140: FILTER stores the intensity one column and one row before. -/
theorem filter_sample {v : Variant} {k : Conv} {m : Mag} (h : exec (.filter v k m) s = .next t) :
    t.mem.read (dstAddr s.dstBase.toNat (dstStrideOf s ((sourceOf s).w - 2)) (x - 1) (y - 1)) =
      BitVec.ofNat 8 (sampleAt s v x y) := by
  obtain ⟨hw, hh⟩ := hin.full_size
  obtain ⟨M, hM, hsample, -⟩ := exec_filter_samples v k m hw hh (checksPass_of_done rfl hw hh h hdone)
  cases hM.symm.trans h
  exact hsample x y hin

end samples

/-! ### The obligations -/

/-- Settles O42: a plane sample is the gradient inside and the fill value at the border. -/
theorem gradPlanesWritesBothPlanes : Obligations.GradPlanesWritesBothPlanes := by
  intro s hw hh hp
  obtain ⟨M, hM, hplanes, hframe⟩ := exec_gradPlanes_ok hw hh hp
  refine ⟨M, hM, fun x y hin => ?_, fun x y hx hy hout => ?_, hframe⟩
  · obtain ⟨hx, hy⟩ := hin.inside
    obtain ⟨hpx, hpy⟩ := plane_interior hin
    rw [(min_sobel s x y).1, (min_sobel s x y).2, ← hpx, ← hpy]
    exact hplanes x y hx hy
  · obtain ⟨hpx, hpy⟩ := plane_border hout
    have hsample := hplanes x y hx hy
    rwa [hpx, hpy] at hsample

/-- Settles O43: the reduction reads the samples that the gradient primitive left, and stores outside the planes. -/
theorem filterSimdWritesEverySample : Obligations.FilterSimdWritesEverySample := fun _ => exec_filterSimd_ok

/-- Settles O44: both outputs hold the Sobel intensity at `(x, y)`, which one source image and one policy fix. -/
theorem simdInteriorIsFilter : Obligations.SimdInteriorIsFilter := by
  intro s u t t' k m x y hsrc hpolicy hin hsimd hdone hfilter hdone'
  rw [filterSimd_sample hin hdone hsimd, filter_sample (hsrc.interior hin) hdone' hfilter, hsrc.sampleAt_eq hin rfl hpolicy]

end Sys2Proof.Machine
end

section
/-! The errors of commands (spec/60_exceptions.md): which command can raise which (R218, Table X1), the state an error leaves
(R220), and the idle engine (R230). -/

namespace Sys2Proof.Machine

/-! ### The errors of each command (Table X1) -/

/-- Table X1, by command. ErrIllegal is the decoder's, so no command has it. -/
def errorsOf : Instr → List CmdError
  | .gradient v c => if c = .checked ∧ v ≠ .sobelFast then [.config, .range, .bus] else [.config, .bus]
  | .filter _ _ _ => [.config, .overlap, .bus]
  | .filterMath => [.config, .overlap, .bus]
  | .gradPlanes => [.config, .align, .overlap, .bus]
  | .filterSimd => [.config, .align, .overlap, .bus]
  | .nop => []
  | .magnitude _ => []
  | .isqrtNewton => []
  | .isqrtBisect => []
  | .klookup _ => []

/-- Table X1, GRADIENT: ErrRange is of the CHECKED path. -/
theorem mem_errorsOf_gradient {v : Variant} {c : Conv} {e : CmdError} :
    e ∈ errorsOf (.gradient v c) ↔ e = .config ∨ e = .bus ∨ (e = .range ∧ c = .checked ∧ v ≠ .sobelFast) := by
  by_cases h : c = .checked ∧ v ≠ .sobelFast
  · rw [errorsOf, if_pos h]
    simp [h, or_comm (a := e = .range)]
  · rw [errorsOf, if_neg h]
    simp [h]

/-- R213: the checks find a misaligned base only where planes are used. -/
theorem planes_of_align {s : State} {d p : Bool} {ow oh : Nat} (h : imageChecks s d p ow oh = .error .align) : p = true := by
  rcases imageChecks_cases s d p ow oh with ⟨-, h'⟩ | ⟨-, ⟨hp, -⟩, -⟩ | ⟨-, -, -, h'⟩ | ⟨-, -, -, -, h'⟩ | ⟨-, h'⟩
  case inr.inl => exact hp
  all_goals cases h'.symm.trans h

/-- Table X1: an image-producing command has the errors of its checks, ErrAlign only if it uses the planes. -/
theorem mem_errorsOf_image {s : State} {i : Instr} {d p : Bool} {ow oh : Nat} (hf : imageForm s i = some (d, p, ow, oh))
    {e : CmdError} (he : e = .config ∨ (e = .align ∧ p = true) ∨ e = .overlap ∨ e = .bus) : e ∈ errorsOf i := by
  cases i <;> simp only [imageForm, Option.some.injEq, Prod.mk.injEq, reduceCtorEq] at hf
  case filter | filterMath =>
    obtain ⟨-, rfl, -, -⟩ := hf
    simpa [errorsOf] using he
  case gradPlanes | filterSimd =>
    obtain ⟨-, rfl, -, -⟩ := hf
    simpa [errorsOf] using he

/-- An error of the checks is one of the command's. -/
theorem mem_errorsOf_checks {s : State} {i : Instr} {d p : Bool} {ow oh : Nat} (hf : imageForm s i = some (d, p, ow, oh))
    {e : CmdError} (h : imageChecks s d p ow oh = .error e) : e ∈ errorsOf i := by
  refine mem_errorsOf_image hf ?_
  rcases imageChecks_error h with rfl | rfl | rfl | rfl
  · exact .inl rfl
  · exact .inr (.inl ⟨rfl, planes_of_align h⟩)
  · exact .inr (.inr (.inl rfl))
  · exact .inr (.inr (.inr rfl))

/-- R120, R218: a command ends with Done, or with an error that Table X1 gives it. -/
theorem exec_done_or_error {s t : State} {i : Instr} (h : exec i s = .next t) :
    (∃ empty, t.status = doneWord empty (nilForm i) s.status) ∨
    ∃ e ∈ errorsOf i, t.status = failWord (errorCode e).toNat s.status := by
  cases hf : imageForm s i with
  | none =>
    rcases exec_plain_cases hf h with ⟨u, rfl, -⟩ | ⟨v, k, e, rfl, hi, ha, ho, hr, rfl⟩
    · exact .inl ⟨false, rfl⟩
    · refine .inr ⟨e, mem_errorsOf_gradient.mpr ?_, rfl⟩
      cases e with
      | config => exact .inl rfl
      | bus => exact .inr (.inl rfl)
      | range => exact .inr (.inr ⟨rfl, hr rfl⟩)
      | illegal => exact absurd rfl hi
      | align => exact absurd rfl ha
      | overlap => exact absurd rfl ho
  | some f =>
    rcases exec_image_cases hf h with ⟨-, rfl⟩ | ⟨-, e, -, -, -, hc, rfl⟩ | ⟨-, hc, rfl⟩ | ⟨-, -, m, rfl, -⟩
    · exact .inl ⟨true, rfl⟩
    · exact .inr ⟨e, mem_errorsOf_checks hf hc, rfl⟩
    · exact .inr ⟨.bus, mem_errorsOf_checks hf hc, rfl⟩
    · exact .inl ⟨false, rfl⟩

/-! ### The rows of Table X1 -/

theorem errorCode_injective : Function.Injective errorCode := by
  intro e f h
  cases e <;> cases f <;> simp [errorCode] at h ⊢

theorem illegal_notMem_errorsOf (i : Instr) : .illegal ∉ errorsOf i := by
  cases i with
  | gradient v c => simp [mem_errorsOf_gradient]
  | _ => simp [errorsOf]

theorem of_align_mem_errorsOf {i : Instr} (h : .align ∈ errorsOf i) : i = .gradPlanes ∨ i = .filterSimd := by
  cases i with
  | gradPlanes => exact .inl rfl
  | filterSimd => exact .inr rfl
  | gradient v c => simp [mem_errorsOf_gradient] at h
  | _ => simp [errorsOf] at h

theorem of_overlap_mem_errorsOf {i : Instr} (h : .overlap ∈ errorsOf i) (s : State) : imageForm s i ≠ none := by
  cases i with
  | filter | filterMath | gradPlanes | filterSimd => simp [imageForm]
  | gradient v c => simp [mem_errorsOf_gradient] at h
  | _ => simp [errorsOf] at h

theorem of_range_mem_errorsOf {i : Instr} (h : .range ∈ errorsOf i) :
    ∃ v c, i = .gradient v c ∧ c = .checked ∧ v ≠ .sobelFast := by
  cases i with
  | gradient v c => exact ⟨v, c, rfl, by simpa [mem_errorsOf_gradient] using h⟩
  | _ => simp [errorsOf] at h

/-- The five register commands have no error. -/
theorem errorsOf_register {s : State} {i : Instr} (hf : imageForm s i = none) (hg : ∀ v c, i ≠ .gradient v c) :
    errorsOf i = [] := by
  cases i with
  | gradient v c => exact absurd rfl (hg v c)
  | filter | filterMath | gradPlanes | filterSimd => cases hf
  | _ => rfl

/-- Settles O48: a command ends with Done or with an error of its row of Table X1, and the code names the error. -/
theorem errorCodesByCommand : Obligations.ErrorCodesByCommand := by
  intro s t i h
  rcases exec_done_or_error h with ⟨empty, ht⟩ | ⟨e, he, ht⟩ <;> rw [ht]
  · obtain ⟨hdone, -, -, -, hcode, -⟩ := doneWord_fields empty (nilForm i) s.status
    simp [hdone, hcode]
  · obtain ⟨hdone, -, -, -, hcode, -⟩ := failWord_fields e s.status
    rw [hdone, hcode]
    have of_code {e' : CmdError} (hc : errorCode e = errorCode e') : e' ∈ errorsOf i := errorCode_injective hc ▸ he
    refine ⟨?_, (errorCode_bounds e).2, fun hc => illegal_notMem_errorsOf i (of_code (e' := .illegal) hc),
      fun hc => of_align_mem_errorsOf (of_code (e' := .align) hc),
      fun hc => of_overlap_mem_errorsOf (of_code (e' := .overlap) hc) s,
      fun hc => of_range_mem_errorsOf (of_code (e' := .range) hc), fun hf hg => ?_⟩
    · cases e <;> decide
    · rw [errorsOf_register hf hg] at he
      cases he

/-! ### Error entry (R220) -/

/-- R220: a failed command that produces no image changes STATUS only. -/
theorem exec_plain_failed {s t : State} {i : Instr} (hf : imageForm s i = none) (h : exec i s = .next t)
    (herr : statusErr t.status = true) :
    ∃ e, e ≠ .illegal ∧ t = { s with status := failWord (errorCode e).toNat s.status } := by
  rcases exec_plain_cases hf h with ⟨u, rfl, -⟩ | ⟨-, -, e, -, hi, -, -, -, rfl⟩
  · rw [(doneWord_fields _ _ _).2.1] at herr
    cases herr
  · exact ⟨e, hi, rfl⟩

/-- R220: a failed image-producing command publishes no image, and changes memory only with ErrBus. -/
theorem exec_image_failed {s t : State} {i : Instr} {f : Bool × Bool × Nat × Nat} (hf : imageForm s i = some f)
    (h : exec i s = .next t) (herr : statusErr t.status = true) :
    ∃ e m n, e ≠ .illegal ∧ (e ≠ .bus → m = s.mem) ∧ t = { s with
      mem := m, dstW := 0, dstH := 0, status := failWord (errorCode e).toNat s.status, freeCount := n } := by
  rcases exec_image_cases hf h with ⟨-, rfl⟩ | ⟨-, e, -, hi, -, -, rfl⟩ | ⟨-, -, rfl⟩ | ⟨-, -, m, rfl, -⟩
  · rw [(doneWord_fields _ _ _).2.1] at herr
    cases herr
  · exact ⟨e, s.mem, s.freeCount, hi, fun _ => rfl, rfl⟩
  · exact ⟨.bus, _, _, by decide, fun hb => absurd rfl hb, rfl⟩
  · rw [(doneWord_fields _ _ _).2.1] at herr
    cases herr

theorem errorCode_command {e : CmdError} (h : e ≠ .illegal) : 2 ≤ (errorCode e).toNat ∧ (errorCode e).toNat ≤ 6 := by
  cases e with
  | illegal => exact absurd rfl h
  | _ => decide

theorem errorCode_ne_six {e : CmdError} (h : (errorCode e).toNat ≠ 6) : e ≠ .bus := by
  rintro rfl
  exact h rfl

/-- R26, R220: the nine used bits of STATUS after an error depend on its code only. -/
theorem failWord_low (code : Nat) (old : Word) :
    (failWord code old).extractLsb' 0 9 = 0x100#9 ||| BitVec.ofNat 9 (16 * code + 2) := by
  have hcode : (BitVec.ofNat 32 (16 * code + 2)).extractLsb' 0 9 = BitVec.ofNat 9 (16 * code + 2) := by
    apply BitVec.eq_of_toNat_eq
    simp
  simp [failWord, BitVec.extractLsb'_or, BitVec.extractLsb'_and, hcode]

/-- Settles O47: the two ways a command fails give its word, its registers and its memory; the frame of memory is that of every
command. -/
theorem errorEntry : Obligations.ErrorEntry := by
  refine ⟨fun s t i h herr => ?_, fun s c rest r hs hd => (step_cons hs).trans (hostAct_cmd_error hd _), fun old => ?_⟩
  · cases hf : imageForm s i with
    | none =>
      obtain ⟨e, hi, rfl⟩ := exec_plain_failed hf h herr
      refine ⟨_, (errorCode_command hi).1, (errorCode_command hi).2, rfl, nofun, fun _ => ⟨rfl, rfl⟩, fun r hst _ _ => ?_,
        fun _ => rfl, fun _ => rfl, nofun, fun _ _ => rfl⟩
      rw [← raiseError_plain_eq]
      exact readReg_raiseError_plain hst e s
    | some f =>
      obtain ⟨e, m, n, hi, hm, rfl⟩ := exec_image_failed hf h herr
      refine ⟨_, (errorCode_command hi).1, (errorCode_command hi).2, rfl, fun _ _ _ _ _ => ⟨rfl, rfl⟩, nofun,
        fun r hst hw hh => readReg_imageUpdate (by simp [hst, hw, hh]) s _ _ _ _ _, fun hc => hm (errorCode_ne_six hc), nofun,
        fun d p ow oh a hf' ha => exec_image_read (hf.trans hf') h ha, fun a ha => exec_keeps_source h ha⟩
  · simp [failWord_low]

/-! ### The idle engine -/

/-- R230: with no host action to come a step changes nothing. -/
theorem step_nil {s : State} (h : s.host = []) : step s = .next s := by
  simp [step, runHost, h]

/-- Settles O9: the engine idles. -/
theorem idleKeepsEverything : Obligations.IdleKeepsEverything := fun _ => step_nil

end Sys2Proof.Machine
end

section
/-! Hazards and reset (spec/70_reset_and_hazards.md): the ways a host action stops (R246, R257), every command straight after
reset (R244), and what ANYERR tells of a run (R258). -/

namespace Sys2Proof.Machine

/-! ### The ways a host action stops -/

/-- R137, R210: a command goes on, but for GRADIENT on the FAST path with a centre that is not interior. -/
theorem exec_next_or_fault (i : Instr) (s : State) : (∃ t, exec i s = .next t) ∨
    ∃ v c, i = .gradient v c ∧ (c = .fast ∨ v = .sobelFast) ∧ ¬ Interior s s.opX.toNat s.opY.toNat ∧
      exec i s = .fault .fastGradientOutOfRange := by
  cases i with
  | gradient v c =>
    rcases exec_gradient s v c with ⟨-, he⟩ | ⟨-, -, -, he⟩ | ⟨-, hout, hfast, he⟩ | ⟨-, -, -, he⟩ | ⟨-, -, -, he⟩
    case inr.inr.inl => exact .inr ⟨v, c, rfl, effectiveConv_eq_fast.mp hfast, hout, he⟩
    all_goals exact .inl ⟨_, he⟩
  | _ => exact .inl ⟨_, rfl⟩

/-- The ways a host action on a state has no next state: one constructor a way, with the outcome it has instead. -/
inductive Stops (s : State) : HostAction → Host.Outcome State Fault Refusal → Prop where
  | fastGradient {c : Word} {v : Variant} {k : Conv} (hd : decode c = .ok (.gradient v k))
      (hfast : k = .fast ∨ v = .sobelFast) (hout : ¬ Interior s s.opX.toNat s.opY.toNat) :
      Stops s (.regWrite 0 4 c) (.fault .fastGradientOutOfRange)
  | absentWrite {a : Nat} (v : Byte) (ha : memValid s.cfg a = false) : Stops s (.memWrite a v) (.fault .hostByteAbsent)
  | absentRead {a : Nat} (ha : memValid s.cfg a = false) : Stops s (.memRead a) (.fault .hostByteAbsent)
  | refusedWrite {off : BitVec 8} {size : Nat} (w : Word) (ha : alignedWord off size = false) :
      Stops s (.regWrite off size w) (.refused .registerAccessNotAlignedWord)
  | refusedRead {off : BitVec 8} {size : Nat} (ha : alignedWord off size = false) :
      Stops s (.regRead off size) (.refused .registerAccessNotAlignedWord)

/-- R120, R211: a CMD write of any word goes on unless its command stops. -/
theorem cmdWrite_next_or_stops (c : Word) (s : State) : (∃ t, hostAct exec (.regWrite 0 4 c) s = .next t) ∨
    Stops s (.regWrite 0 4 c) (hostAct exec (.regWrite 0 4 c) s) := by
  cases hd : decode c with
  | error e => exact .inl ⟨_, hostAct_cmd_error hd s⟩
  | ok i =>
    rw [hostAct_cmd_ok hd]
    rcases exec_next_or_fault i { s with cmd := c } with hnext | ⟨v, k, rfl, hfast, hout, he⟩
    · exact .inl hnext
    · rw [he]
      exact .inr (.fastGradient hd hfast hout)

theorem hostAct_next_or_stops (a : HostAction) (s : State) :
    (∃ t, hostAct exec a s = .next t) ∨ Stops s a (hostAct exec a s) := by
  cases a with
  | regWrite off size w =>
    cases ha : alignedWord off size with
    | false => rw [(hostAct_refused ha s).2]; exact .inr (.refusedWrite w ha)
    | true =>
      obtain ⟨rfl, h4⟩ := alignedWord_iff.mp ha
      cases hr : regAt off.toNat with
      | none => exact .inl ⟨_, (hostAct_unlisted h4 hr s).2 w⟩
      | some r =>
        obtain rfl := off_eq_of_regAt h4 hr
        by_cases hc : r = .cmd
        · subst hc
          exact cmdWrite_next_or_stops w s
        · exact .inl ⟨_, hostAct_regWrite hc⟩
  | regRead off size =>
    cases ha : alignedWord off size with
    | false => rw [(hostAct_refused ha s).1]; exact .inr (.refusedRead ha)
    | true =>
      obtain ⟨rfl, h4⟩ := alignedWord_iff.mp ha
      cases hr : regAt off.toNat with
      | none => exact .inl ⟨_, (hostAct_unlisted h4 hr s).1⟩
      | some r =>
        obtain rfl := off_eq_of_regAt h4 hr
        exact .inl ⟨_, hostAct_regRead r s⟩
  | memWrite a v =>
    cases ha : memValid s.cfg a with
    | false => rw [(hostAct_mem_absent ha).2]; exact .inr (.absentWrite v ha)
    | true => exact .inl ⟨_, (hostAct_mem_valid ha).2 v⟩
  | memRead a =>
    cases ha : memValid s.cfg a with
    | false => rw [(hostAct_mem_absent ha).1]; exact .inr (.absentRead ha)
    | true => exact .inl ⟨_, (hostAct_mem_valid ha).1⟩
  | reset => exact .inl ⟨_, rfl⟩

/-- R23: an access is not an aligned 32-bit one by its size or by its offset. -/
theorem alignedWord_eq_false {off : BitVec 8} {size : Nat} :
    alignedWord off size = false ↔ size ≠ 4 ∨ off.toNat % 4 ≠ 0 := by
  rw [Bool.eq_false_iff, ne_eq, alignedWord_iff, not_and_or]

/-- Settles O11: with no action the engine idles; an action is performed or stops in one of the ways of `Stops`, each under one
of the three names. -/
theorem stopsOnlyWhereNamed : Obligations.StopsOnlyWhereNamed := by
  intro s
  cases hs : s.host with
  | nil => exact .inl ⟨s, step_nil hs⟩
  | cons a rest =>
    rw [step_cons hs]
    rcases hostAct_next_or_stops a { s with host := rest } with hnext | hstop
    · exact .inl hnext
    · refine .inr ?_
      generalize hostAct exec a { s with host := rest } = o at hstop
      cases hstop with
      | fastGradient hd hfast hout => exact .inl ⟨rfl, _, rest, _, _, rfl, hd, hfast, hout⟩
      | absentWrite v ha => exact .inr (.inl ⟨rfl, _, rest, ha, .inr ⟨v, rfl⟩⟩)
      | absentRead ha => exact .inr (.inl ⟨rfl, _, rest, ha, .inl rfl⟩)
      | refusedWrite w ha => exact .inr (.inr ⟨rfl, _, _, rest, alignedWord_eq_false.mp ha, .inr ⟨w, rfl⟩⟩)
      | refusedRead ha => exact .inr (.inr ⟨rfl, _, _, rest, alignedWord_eq_false.mp ha, .inl rfl⟩)

/-! ### Straight after reset -/

/-- R120: the word `Done` leaves in a STATUS of 0. -/
theorem doneWord_zero (e k : Bool) : doneWord e k 0 = if e then (if k then 13 else 5) else (if k then 9 else 1) := by
  cases e <;> cases k <;> decide

section zeroed
variable {s : State} (hz : ∀ r, readReg r s = 0)
include hz

/-- R9, R46: the source image of an engine just reset has no columns. -/
theorem source_w_of_zeroed : (sourceOf s).w = 0 := congrArg BitVec.toNat (half_eq_of_setWidth (b := 0) (hz .srcW))

/-- R244: an image-producing command has an empty output, whose dimensions DST_W and DST_H already hold. -/
theorem exec_image_zeroed {i : Instr} {d p : Bool} {ow oh : Nat} (hf : imageForm s i = some (d, p, ow, oh)) :
    exec i s = .next { s with status := if nilForm i then 13 else 5 } := by
  have hsmall : (sourceOf s).w < 3 := by rw [source_w_of_zeroed hz]; decide
  have hst : s.status = 0 := hz .status
  have hw : s.dstW = 0 := half_eq_of_setWidth (hz .dstW)
  have hh : s.dstH = 0 := half_eq_of_setWidth (hz .dstH)
  rw [exec_image_undersized hf (.inl hsmall), hst, doneWord_zero, hw, hh]
  rfl

/-- R244: no centre is interior, and neither the stride nor the hull is refused. -/
theorem gradient_zeroed : ¬ GradientConfigBad s ∧ ¬ Interior s s.opX.toNat s.opY.toNat := by
  simp [GradientConfigBad, Interior, source_w_of_zeroed hz]

/-- R244: both operands of MAGNITUDE are 0. -/
theorem exec_magnitude_zeroed (m : Mag) :
    exec (.magnitude m) s = .next { s with status := 1, resMag := if s.cfg.roundPolicy = .ceil then 0 else 1 } := by
  have hst : s.status = 0 := hz .status
  have hgx : s.opGx = 0 := hz .opGx
  have hgy : s.opGy = 0 := hz .opGy
  have hmag : BitVec.ofNat 8 (if s.cfg.roundPolicy = .ceil then 0 else 1) = if s.cfg.roundPolicy = .ceil then 0 else 1 := by
    split <;> rfl
  rw [exec_magnitude, hgx, hgy, hst, doneWord_zero, ← hmag, ← magOf_zero]
  rfl

/-- R244: OP_N is 0, the root is 0, and RES_SQRT already holds it. -/
theorem exec_isqrt_zeroed : exec .isqrtNewton s = .next { s with status := 1 } ∧
    exec .isqrtBisect s = .next { s with status := 1 } := by
  have hst : s.status = 0 := hz .status
  have hn : s.opN = 0 := hz .opN
  have hres : s.resSqrt = 0 := hz .resSqrt
  rw [exec_isqrtNewton, exec_isqrtBisect, hn, hres, hst, doneWord_zero]
  exact ⟨rfl, rfl⟩

end zeroed

/-- Settles O16: each command's outcome, taken at operands that are 0. -/
theorem everyCommandAfterReset : Obligations.EveryCommandAfterReset := by
  intro s hz
  have hst : s.status = 0 := hz .status
  obtain ⟨hcfg, hout⟩ := gradient_zeroed hz
  refine ⟨?_, fun i d p ow oh hf => exec_image_zeroed hz hf, exec_magnitude_zeroed hz, (exec_isqrt_zeroed hz).1,
    (exec_isqrt_zeroed hz).2, fun v => ⟨_, exec_klookup v s, (doneWord_fields _ _ _).1⟩, fun v hv => ?_, fun v => ?_⟩
  · rw [nopCommand.2.2 s, hst]
    rfl
  · rw [exec_gradient_range v .checked hcfg hout (by simp [hv]), hst]
    rfl
  · exact (exec_gradient_fault_iff v .fast).mpr ⟨rfl, .inl rfl, hcfg, hout⟩

/-! ### ANYERR over a run -/

/-- R26: a CMD write raises ANYERR exactly when its command ends with an error. -/
theorem cmdWrite_anyErr {s t : State} {c : Word} (h : hostAct exec (.regWrite 0 4 c) s = .next t) :
    statusAnyErr t.status = (statusAnyErr s.status || statusErr t.status) := by
  cases hd : decode c with
  | ok i =>
    obtain ⟨-, -, -, -, hany, -⟩ := exec_status_fields ((hostAct_cmd_ok hd s).symm.trans h)
    exact hany
  | error e =>
    have hst : t.status = failWord (errorCode .illegal).toNat s.status := by
      cases (hostAct_cmd_error hd s).symm.trans h
      rfl
    obtain ⟨-, herr, -, -, -, hany, -⟩ := failWord_fields .illegal s.status
    rw [hst, hany, herr, Bool.or_true]

/-- R24: a write that cannot clear ANYERR leaves it, whatever register it goes to. -/
theorem writeReg_keeps_anyErr {r : Reg} {w : Word} (hc : mayClear (.regWrite (BitVec.ofNat 8 (regOffset r)) 4 w) = false)
    (s : State) : statusAnyErr (writeReg r w s).status = statusAnyErr s.status := by
  by_cases hr : Reg.status = r
  · subst hr
    have hw : statusAnyErr w = false := hc
    rw [writeReg, clearAnyErr, statusAnyErr_afterWrite, hw, Bool.not_false, Bool.and_true]
  · exact congrArg statusAnyErr (readReg_writeReg_of_ne hr w s)

/-- R26: an action that is no CMD write and cannot clear ANYERR leaves it. -/
theorem performs_keeps_anyErr {s t : State} {a : HostAction} (h : Performs s a t) (hcmd : ∀ c, a ≠ .regWrite 0 4 c)
    (hc : mayClear a = false) : statusAnyErr t.status = statusAnyErr s.status := by
  cases h with
  | command | illegal => exact absurd rfl (hcmd _)
  | register w _ => exact writeReg_keeps_anyErr hc s
  | reset => cases hc
  | unlistedWrite | regRead | unlistedRead | memWrite | memRead => rfl

/-- R258: a step that does not clear ANYERR leaves it 0 exactly when it was 0 and no command of the step ended with an error. -/
theorem step_anyErr {s t : State} (h : step s = .next t) (hc : ∀ a ∈ s.host.head?, mayClear a = false) :
    statusAnyErr t.status = false ↔ statusAnyErr s.status = false ∧ (writesCommand s → statusErr t.status = false) := by
  cases hs : s.host with
  | nil =>
    cases (step_nil hs).symm.trans h
    simp [writesCommand, hs]
  | cons a rest =>
    by_cases hcmd : ∃ c, a = .regWrite 0 4 c
    · obtain ⟨c, rfl⟩ := hcmd
      rw [cmdWrite_anyErr ((step_cons hs).symm.trans h), Bool.or_eq_false_iff]
      simp [writesCommand, hs]
    · have hkeep := performs_keeps_anyErr (performs_of_step hs h) (not_exists.mp hcmd) (hc a (by simp [hs]))
      have hno : ¬ writesCommand s := by
        rintro ⟨c, _, hs'⟩
        cases hs.symm.trans hs'
        exact hcmd ⟨c, rfl⟩
      simp [hkeep, hno]

/-- A run is clean from its first state when the first step is and the rest from the next state. -/
theorem cleanRun_succ {n : Nat} {s t u : State} (h : step s = .next t) :
    cleanRun (n + 1) s u ↔ (writesCommand s → statusErr t.status = false) ∧ cleanRun n t u := by
  simp [cleanRun, h]

/-- R258: after steps that never clear ANYERR it is 0 exactly when it was 0 and the run was clean. -/
theorem stepsTo_anyErr (n : Nat) : ∀ {s u : State}, stepsTo n s u → (∀ a ∈ s.host.take n, mayClear a = false) →
    (statusAnyErr u.status = false ↔ statusAnyErr s.status = false ∧ cleanRun n s u) := by
  induction n with
  | zero => rintro s u rfl -; simp [cleanRun]
  | succ n ih =>
    rintro s u ⟨t, hst, htu⟩ hc
    have hhead : ∀ a ∈ s.host.head?, mayClear a = false := fun a ha =>
      hc a (List.mem_of_mem_head? (by rwa [List.head?_take, if_neg n.succ_ne_zero]))
    have htail : ∀ a ∈ t.host.take n, mayClear a = false := fun a ha => by
      have hrest : t.host.take n = (s.host.take (n + 1)).tail := by
        rw [(step_frame hst).1, List.tail_take_eq_take_tail, Nat.add_sub_cancel]
      exact hc a (List.mem_of_mem_tail (hrest ▸ ha))
    rw [ih htu htail, step_anyErr hst hhead, cleanRun_succ hst, and_assoc]

/-- Settles O55: ANYERR was 0, so what is left of `stepsTo_anyErr` is that the run was clean. -/
theorem cleanRunShowsInAnyErr : Obligations.CleanRunShowsInAnyErr := by
  intro n s u h hc h0
  rw [stepsTo_anyErr n h hc, and_iff_right h0]

end Sys2Proof.Machine
end
